-- ==== Sys2Proof/Word.lean ====
section
/-! DEFINITION. The words of the block: 32-bit register words, bytes, and binary32 data carried as their bit patterns
(00_scope.md R16, R17). -/

namespace Sys2Proof

/-- A 32-bit register word (10_state.md R30). -/
abbrev Word := BitVec 32

/-- One byte lane of a register (20_memory.md R83). -/
abbrev Byte := BitVec 8

/-- A binary32 datum, held as its 32-bit pattern: `f32` and `bits32` of R17 are both the identity here, so NaN payloads
survive every move. -/
abbrev F32 := BitVec 32

end Sys2Proof
end

