-- ==== Sys2Proof/Config.lean ====
section
/-! DEFINITION. What one instance of the block fixes (00_scope.md R13), the uninterpreted transcendental functions
(R20), and the names that operand codes stand for (30_encoding.md R104, R105). -/

namespace Sys2Proof

/-- The form of the band-pass numerator (40_filter.md R143). -/
inductive BpVariant where
  | peak0dB
  | skirt
deriving DecidableEq, Repr

/-- `Cfg.FILTER_INIT` (R13). -/
structure FilterInit where
  type : F32
  cutoff : F32
  resonance : F32
deriving DecidableEq, Repr

/-- `Cfg.DELAY_INIT` (R13). -/
structure DelayInit where
  time : F32
  feedback : F32
  mix : F32
deriving DecidableEq, Repr

/-- `Cfg.DIST_INIT` (R13). -/
structure DistInit where
  type : F32
  drive : F32
  mix : F32
  outputGain : F32
  bitDepth : F32
deriving DecidableEq, Repr

/-- `Cfg.ENV_INIT` (R13). -/
structure EnvInit where
  attack : F32
  decay : F32
  hold : F32
  sustain : F32
  release : F32
deriving DecidableEq, Repr

/-- `Cfg.SM_INIT` (R13). -/
structure SmInit where
  current : F32
  target : F32
  factor : F32
deriving DecidableEq, Repr

/-- What is known of a binary32 function: (operand, result) pairs, the first pair of an operand counting, and the result at
every operand without a pair, where that is known. -/
structure FunTable where
  pairs : List (F32 × F32)
  rest : Option F32
deriving DecidableEq, Repr

/-- The configuration record `Cfg` of R13, with the platform parameter `BASE` of 20_memory.md R80.
The four tables hold what is known of `SIN32`, `COS32`, `TANH32` and `EXP32` of an instance; where a table is silent the
function is the uninterpreted constant of `Config` below (log 2, DESIGN CHOICE). -/
structure Cfg where
  SR : F32
  CHAIN_CAP : Nat
  DELAY_CAP : Nat
  N_ENV : Nat
  N_SM : Nat
  FILTER_INIT : FilterInit
  DELAY_INIT : DelayInit
  DIST_INIT : DistInit
  ENV_INIT : EnvInit
  SM_INIT : SmInit
  BP_VARIANT : BpVariant
  BASE : Nat
  sinTable : FunTable
  cosTable : FunTable
  tanhTable : FunTable
  expTable : FunTable
deriving DecidableEq, Repr

/-- `SIN32` where the instance's table is silent: total, deterministic, nothing else known (R20). -/
opaque Config.sinFree : F32 → F32
/-- `COS32` where the instance's table is silent (R20). -/
opaque Config.cosFree : F32 → F32
/-- `TANH32` where the instance's table is silent (R20). -/
opaque Config.tanhFree : F32 → F32
/-- `EXP32` where the instance's table is silent (R20). -/
opaque Config.expFree : F32 → F32

/-- The configuration `State.reset` is built from: CFG-A of 95_test_vectors.md section 0, with `BASE` 0 and nothing known
of the transcendental functions (log 1, DESIGN CHOICE). -/
def Config.reference : Cfg where
  SR := 0x473B8000#32
  CHAIN_CAP := 4
  DELAY_CAP := 65536
  N_ENV := 2
  N_SM := 2
  FILTER_INIT := { type := 0x00000000#32, cutoff := 0x447A0000#32, resonance := 0x3F3504F3#32 }
  DELAY_INIT := { time := 0x3E800000#32, feedback := 0x3F000000#32, mix := 0x3F000000#32 }
  DIST_INIT :=
    { type := 0x3F800000#32, drive := 0x3F800000#32, mix := 0x3F800000#32, outputGain := 0x3F800000#32,
      bitDepth := 0x41800000#32 }
  ENV_INIT :=
    { attack := 0x3C23D70A#32, decay := 0x3C23D70A#32, hold := 0x00000000#32, sustain := 0x3F000000#32,
      release := 0x3C23D70A#32 }
  SM_INIT := { current := 0x00000000#32, target := 0x00000000#32, factor := 0x3DCCCCCD#32 }
  BP_VARIANT := .peak0dB
  BASE := 0
  sinTable := ⟨[], none⟩
  cosTable := ⟨[], none⟩
  tanhTable := ⟨[], none⟩
  expTable := ⟨[], none⟩

/-- The parameter name that `SEL` of `EFX.SETP` stands for (R104); `other` is an id no effect recognizes. -/
inductive ParamName where
  | cutoff
  | resonance
  | type
  | time
  | feedback
  | mix
  | drive
  | outputGain
  | bitDepth
  | other (id : Nat)
deriving DecidableEq, Repr

/-- The effect kind that `SEL` of `CH.ADD` stands for (R105); `bad` is a code that names no kind, which makes the command
illegal (R108 (d)). -/
inductive KindCode where
  | filter
  | delay
  | distortion
  | bad (code : Nat)
deriving DecidableEq, Repr

end Sys2Proof
end

