-- ==== Sys2Proof/Syntax.lean ====
section
/-! DEFINITION. The commands of the block: one constructor per row of spec/opcode_table.json, in the table's order
(30_encoding.md R103). -/

namespace Sys2Proof

/-- A command. `idx` is the `IDX` field, zero-extended (R102); the operand `V` is not part of the word: it is the `DATA`
register at the time of the `CMD` write (R101). -/
inductive Instr where
  | nop
  | efxProc (idx : Nat)
  | efxRst (idx : Nat)
  | efxSetp (idx : Nat) (name : ParamName)
  | efxName (idx : Nat)
  | chAdd (kind : KindCode)
  | chRem (idx : Nat)
  | chProc
  | chRstall
  | chCount
  | envSeta (idx : Nat)
  | envSetd (idx : Nat)
  | envSeth (idx : Nat)
  | envSets (idx : Nat)
  | envSetr (idx : Nat)
  | envTrig (idx : Nat)
  | envRel (idx : Nat)
  | envProc (idx : Nat)
  | envActive (idx : Nat)
  | smTgt (idx : Nat)
  | smFact (idx : Nat)
  | smProc (idx : Nat)
  | smRst (idx : Nat)
  | smClose (idx : Nat)
deriving DecidableEq, Repr

end Sys2Proof
end

