-- ==== Sys2Proof/WellFormed.lean ====
section
/-! DEFINITION. Which commands have a command word: an index fits its 8-bit field, and a code that stands for a name is
written as that name (30_encoding.md R101, R104, R105). -/

namespace Sys2Proof

/-- `IDX` is an 8-bit field (R101). -/
def idxWf (idx : Nat) : Bool := decide (idx < 256)

/-- `other` holds only ids that R104 gives no name. -/
def ParamName.wf : ParamName → Bool
  | .other id => decide (id = 0 ∨ 10 ≤ id) && decide (id < 256)
  | .cutoff | .resonance | .type | .time | .feedback | .mix | .drive | .outputGain | .bitDepth => true

/-- `bad` holds only codes that R105 gives no kind. -/
def KindCode.wf : KindCode → Bool
  | .bad code => decide (code = 0 ∨ 4 ≤ code) && decide (code < 256)
  | .filter | .delay | .distortion => true

/-- The command has a word. -/
def Instr.wf : Instr → Bool
  | .nop | .chProc | .chRstall | .chCount => true
  | .efxProc idx | .efxRst idx | .efxName idx | .chRem idx => idxWf idx
  | .efxSetp idx name => idxWf idx && name.wf
  | .chAdd kind => kind.wf
  | .envSeta idx | .envSetd idx | .envSeth idx | .envSets idx | .envSetr idx => idxWf idx
  | .envTrig idx | .envRel idx | .envProc idx | .envActive idx => idxWf idx
  | .smTgt idx | .smFact idx | .smProc idx | .smRst idx | .smClose idx => idxWf idx

end Sys2Proof
end

