-- ==== Sys2Proof/Decode.lean ====
section
/-! DEFINITION. Decoding a command word, total on every word and every list of bytes, and the encoder
(30_encoding.md sections 2 to 5). -/

namespace Sys2Proof

/-- Why a word is no command, whatever the state (R108 (a) to (c)); each makes the command illegal (60_exceptions.md
R332). `truncated` is for a list of fewer than four bytes, which no host write can present. -/
inductive DecodeError where
  | reservedOpcode (op : Nat)
  | nonzeroReserved (rsv : Nat)
  | nonzeroIdx (idx : Nat)
  | nonzeroSel (sel : Nat)
  | truncated
deriving DecidableEq, Repr

/-- The 8-bit field of `w` whose lowest bit is `lo`, zero-extended (R102). -/
def byteField (w : Word) (lo : Nat) : Nat := w.toNat / 2 ^ lo % 256

/-- `OP`, bits 31:24 (R101). -/
def opField (w : Word) : Nat := byteField w 24
/-- `IDX`, bits 23:16 (R101). -/
def idxField (w : Word) : Nat := byteField w 16
/-- `SEL`, bits 15:8 (R101). -/
def selField (w : Word) : Nat := byteField w 8
/-- `RSV`, bits 7:0 (R101). -/
def rsvField (w : Word) : Nat := byteField w 0

/-- The word with the four fields (R101). -/
def packFields (op idx sel rsv : Nat) : Word :=
  BitVec.ofNat 32 (2 ^ 24 * (op % 256) + 2 ^ 16 * (idx % 256) + 2 ^ 8 * (sel % 256) + rsv % 256)

/-- The name an id of `EFX.SETP` stands for (R104). -/
def ParamName.ofId (id : Nat) : ParamName :=
  if id = 1 then .cutoff
  else if id = 2 then .resonance
  else if id = 3 then .type
  else if id = 4 then .time
  else if id = 5 then .feedback
  else if id = 6 then .mix
  else if id = 7 then .drive
  else if id = 8 then .outputGain
  else if id = 9 then .bitDepth
  else .other id

/-- The id of a name (R104). -/
def ParamName.id : ParamName → Nat
  | .cutoff => 1
  | .resonance => 2
  | .type => 3
  | .time => 4
  | .feedback => 5
  | .mix => 6
  | .drive => 7
  | .outputGain => 8
  | .bitDepth => 9
  | .other id => id

/-- The kind a code of `CH.ADD` stands for (R105). -/
def KindCode.ofCode (code : Nat) : KindCode :=
  if code = 1 then .filter
  else if code = 2 then .delay
  else if code = 3 then .distortion
  else .bad code

/-- The code of a kind (R105). -/
def KindCode.code : KindCode → Nat
  | .filter => 1
  | .delay => 2
  | .distortion => 3
  | .bad code => code

/-- How a command uses `IDX` and `SEL`: the `I`, `S` and `0` columns of R103. -/
inductive Shape where
  | plain (i : Instr)
  | indexed (mk : Nat → Instr)
  | selected (mk : Nat → Instr)
  | indexedSelected (mk : Nat → Nat → Instr)

/-- One line of the opcode map R103. -/
structure OpRow where
  op : Nat
  shape : Shape

/-- The opcode map R103, in its order. -/
def opcodeMap : List OpRow :=
  [⟨0x00, .plain .nop⟩,
   ⟨0x10, .indexed .efxProc⟩,
   ⟨0x11, .indexed .efxRst⟩,
   ⟨0x12, .indexedSelected fun idx sel => .efxSetp idx (.ofId sel)⟩,
   ⟨0x13, .indexed .efxName⟩,
   ⟨0x20, .selected fun sel => .chAdd (.ofCode sel)⟩,
   ⟨0x21, .indexed .chRem⟩,
   ⟨0x22, .plain .chProc⟩,
   ⟨0x23, .plain .chRstall⟩,
   ⟨0x24, .plain .chCount⟩] ++
  [⟨0x30, .indexed .envSeta⟩,
   ⟨0x31, .indexed .envSetd⟩,
   ⟨0x32, .indexed .envSeth⟩,
   ⟨0x33, .indexed .envSets⟩,
   ⟨0x34, .indexed .envSetr⟩,
   ⟨0x35, .indexed .envTrig⟩,
   ⟨0x36, .indexed .envRel⟩,
   ⟨0x37, .indexed .envProc⟩,
   ⟨0x38, .indexed .envActive⟩] ++
  [⟨0x40, .indexed .smTgt⟩,
   ⟨0x41, .indexed .smFact⟩,
   ⟨0x42, .indexed .smProc⟩,
   ⟨0x43, .indexed .smRst⟩,
   ⟨0x44, .indexed .smClose⟩]

/-- The command of a shape at given `IDX` and `SEL`; a field the shape does not use must be 0 (R108 (c)). -/
def Shape.read (idx sel : Nat) : Shape → Except DecodeError Instr
  | .plain i =>
    if idx ≠ 0 then .error (.nonzeroIdx idx) else if sel ≠ 0 then .error (.nonzeroSel sel) else .ok i
  | .indexed mk => if sel ≠ 0 then .error (.nonzeroSel sel) else .ok (mk idx)
  | .selected mk => if idx ≠ 0 then .error (.nonzeroIdx idx) else .ok (mk sel)
  | .indexedSelected mk => .ok (mk idx sel)

/-- The decode procedure R111, less the conditions that need the state or the configuration and the kind code of
`CH.ADD`, which the meanings check (log 8). -/
def decode (w : Word) : Except DecodeError Instr :=
  if rsvField w ≠ 0 then .error (.nonzeroReserved (rsvField w))
  else
    match opcodeMap.find? (fun r => r.op == opField w) with
    | some r => r.shape.read (idxField w) (selField w)
    | none => .error (.reservedOpcode (opField w))

/-- A command word from its four bytes, byte `+0` carrying bits 7:0 (20_memory.md R83), with the bytes after it. -/
def decodeBytes : List Byte → Except DecodeError (Instr × List Byte)
  | b0 :: b1 :: b2 :: b3 :: rest =>
    match decode (packFields b3.toNat b2.toNat b1.toNat b0.toNat) with
    | .ok i => .ok (i, rest)
    | .error e => .error e
  | _ => .error .truncated

/-- The opcode, `IDX` and `SEL` of a command (R103). -/
def Instr.fields : Instr → Nat × Nat × Nat
  | .nop => (0x00, 0, 0)
  | .efxProc idx => (0x10, idx, 0)
  | .efxRst idx => (0x11, idx, 0)
  | .efxSetp idx name => (0x12, idx, name.id)
  | .efxName idx => (0x13, idx, 0)
  | .chAdd kind => (0x20, 0, kind.code)
  | .chRem idx => (0x21, idx, 0)
  | .chProc => (0x22, 0, 0)
  | .chRstall => (0x23, 0, 0)
  | .chCount => (0x24, 0, 0)
  | .envSeta idx => (0x30, idx, 0)
  | .envSetd idx => (0x31, idx, 0)
  | .envSeth idx => (0x32, idx, 0)
  | .envSets idx => (0x33, idx, 0)
  | .envSetr idx => (0x34, idx, 0)
  | .envTrig idx => (0x35, idx, 0)
  | .envRel idx => (0x36, idx, 0)
  | .envProc idx => (0x37, idx, 0)
  | .envActive idx => (0x38, idx, 0)
  | .smTgt idx => (0x40, idx, 0)
  | .smFact idx => (0x41, idx, 0)
  | .smProc idx => (0x42, idx, 0)
  | .smRst idx => (0x43, idx, 0)
  | .smClose idx => (0x44, idx, 0)

/-- The word of a well-formed command (R101, R103). -/
def encode (i : Instr) : Word := packFields i.fields.1 i.fields.2.1 i.fields.2.2 0

/-- The four bytes of a word in increasing byte offset (20_memory.md R83). -/
def wordBytes (w : Word) : List Byte :=
  [BitVec.ofNat 8 (byteField w 0), BitVec.ofNat 8 (byteField w 8), BitVec.ofNat 8 (byteField w 16),
   BitVec.ofNat 8 (byteField w 24)]

/-- The command word of an opcode-table row's `nbits` bits `w`, the bits above them 0. -/
def tableWord (nbits w : Nat) : Word := BitVec.ofNat 32 (w % 2 ^ nbits)

/-- The command the decoder reads from a row's bits, laid out as bytes and given to it; `none` where it refuses. -/
def decodeTableWord (nbits w : Nat) : Option Instr :=
  match decodeBytes (wordBytes (tableWord nbits w)) with
  | .ok (i, _) => some i
  | .error _ => none

end Sys2Proof
end

