-- ==== Sys2Proof/Machine/Memory.lean ====
section
/-! DEFINITION. The sample memory of a Delay: whole binary32 elements by index (20_memory.md R81), held in one canonical
form (log 7). -/

namespace Sys2Proof.Machine

/-- (index, element) pairs, indices strictly rising, no element equal to `Memory.unlisted`. -/
abbrev Memory := List (Nat × F32)

/-- What an unlisted index reads as: `0.0`, the content construction, reset and growth give (41_delay.md R180, R186,
R192). -/
def Memory.unlisted : F32 := 0x00000000#32

/-- Indices rise strictly from `lo` on, and no element equals `Memory.unlisted`. -/
def Memory.wfFrom (lo : Nat) : Memory → Bool
  | [] => true
  | (k, v) :: m => decide (lo ≤ k) && decide (v ≠ Memory.unlisted) && Memory.wfFrom (k + 1) m

/-- The canonical form. -/
def Memory.wf (m : Memory) : Bool := Memory.wfFrom 0 m

/-- Every listed index is below `len`. -/
def Memory.within (len : Nat) (m : Memory) : Bool := m.all fun c => decide (c.1 < len)

/-- `d.buf[k]` (20_memory.md R81). -/
def Memory.read : Memory → Nat → F32
  | [], _ => Memory.unlisted
  | (a, v) :: m, k => if a = k then v else Memory.read m k

/-- `d.buf[k] <- v` (20_memory.md R81); writing `Memory.unlisted` removes the entry. -/
def Memory.write : Memory → Nat → F32 → Memory
  | [], k, v => if v = Memory.unlisted then [] else [(k, v)]
  | (a, x) :: m, k, v =>
    if k < a then (if v = Memory.unlisted then (a, x) :: m else (k, v) :: (a, x) :: m)
    else if k = a then (if v = Memory.unlisted then m else (a, v) :: m)
    else (a, x) :: Memory.write m k v

/-- Every element `Memory.unlisted`. -/
def Memory.cleared : Memory := []

/-- The element move of `GROW` (41_delay.md R186) on a buffer of length `len` with write cursor `w`: element `k` moves to
position `(k + len - w) mod len`, so the oldest comes first; the new elements are unlisted. -/
def Memory.unroll (len w : Nat) (m : Memory) : Memory :=
  (m.filter fun c => decide (w ≤ c.1)).map (fun c => (c.1 - w, c.2)) ++
  (m.filter fun c => decide (c.1 < w)).map (fun c => (c.1 + len - w, c.2))

end Sys2Proof.Machine
end

