-- ==== Sys2Proof/Machine/Float.lean ====
section
/-! DEFINITION. IEEE 754 binary32 arithmetic and comparison on bit patterns (00_scope.md R17, R18): every operation
computes its exact result and rounds it once, to nearest, ties to even; subnormals are kept; an arithmetic NaN is
`0x7FC00000`. -/

namespace Sys2Proof.F32

/-- The sign bit. -/
def sign (a : F32) : Bool := decide (2 ^ 31 ≤ a.toNat)
/-- The pattern without its sign bit, as a number. -/
def mag (a : F32) : Nat := a.toNat % 2 ^ 31
/-- The biased exponent, bits 30:23 (R17). -/
def expo (a : F32) : Nat := mag a / 2 ^ 23
/-- The fraction, bits 22:0 (R17). -/
def frac (a : F32) : Nat := mag a % 2 ^ 23

/-- The magnitude pattern of the infinities. -/
def infMag : Nat := 0x7F800000

def isNaN (a : F32) : Bool := decide (infMag < mag a)
def isInf (a : F32) : Bool := decide (mag a = infMag)
def isZero (a : F32) : Bool := decide (mag a = 0)
def isFinite (a : F32) : Bool := decide (mag a < infMag)

/-- The quiet NaN every arithmetic operation delivers (R18, 92 D42). -/
def qNaN : F32 := 0x7FC00000#32
def posZero : F32 := 0x00000000#32
def negZero : F32 := 0x80000000#32

/-- A datum from its sign and its magnitude pattern. -/
def ofSignMag (neg : Bool) (m : Nat) : F32 := cond neg (BitVec.ofNat 32 (2 ^ 31 + m)) (BitVec.ofNat 32 m)

def inf (neg : Bool) : F32 := ofSignMag neg infMag
def zero (neg : Bool) : F32 := ofSignMag neg 0

/-- The significand of a finite datum, with its hidden bit where the datum is normal. -/
def mant (a : F32) : Nat := if expo a = 0 then frac a else 2 ^ 23 + frac a

/-- The magnitude of a finite datum in units of `2^-149`, the smallest subnormal. -/
def units (a : F32) : Nat := mant a * 2 ^ (expo a - 1)

/-- The value of a finite datum in units of `2^-149`. -/
def val (a : F32) : Int := cond (sign a) (-(units a : Int)) (units a : Int)

/-- `1.0` in units of `2^-149`. -/
def oneUnits : Nat := 2 ^ 149

/-- How far the quotient of `n / d` must be shifted right to keep 24 significant bits. -/
def roundShift (n d : Nat) : Nat := Nat.log2 (n / d) - 23

/-- `n / d`, both positive numbers of the step `2^sh`, to the nearest integer, ties to even. -/
def roundStep (n den : Nat) : Nat :=
  let q := n / den
  let r := n % den
  if den < 2 * r ∨ (2 * r = den ∧ q % 2 = 1) then q + 1 else q

/-- The magnitude pattern of the binary32 nearest to `n / d` units, ties to even; a value too large rounds to infinity.
The sum carries a rounded significand of `2^24` into the exponent. -/
def roundMag (n d : Nat) : Nat :=
  let sh := roundShift n d
  min (2 ^ 23 * sh + roundStep n (d * 2 ^ sh)) infMag

/-- The one rounding of R18: the exact value `n / d` units with a sign, to binary32. -/
def roundQ (neg : Bool) (n d : Nat) : F32 := ofSignMag neg (roundMag n d)

/-- An exact integer number of units, rounded; an exact zero takes the sign `zeroNeg`. -/
def roundInt (zeroNeg : Bool) (z : Int) : F32 :=
  if z = 0 then zero zeroNeg else roundQ (decide (z < 0)) z.natAbs 1

/-- `-a` flips the sign bit, of a NaN too (R18). -/
def neg (a : F32) : F32 := ofSignMag (!sign a) (mag a)

/-- `|a|` clears the sign bit (R18). -/
def abs (a : F32) : F32 := ofSignMag false (mag a)

/-- `a + b` (R18). -/
def add (a b : F32) : F32 :=
  if isNaN a || isNaN b then qNaN
  else if isInf a then (if isInf b && (sign a != sign b) then qNaN else a)
  else if isInf b then b
  else roundInt (sign a && sign b) (val a + val b)

/-- `a - b` (R18). -/
def sub (a b : F32) : F32 := add a (neg b)

/-- `a * b` (R18). -/
def mul (a b : F32) : F32 :=
  if isNaN a || isNaN b then qNaN
  else if isInf a || isInf b then (if isZero a || isZero b then qNaN else inf (sign a != sign b))
  else roundQ (sign a != sign b) (units a * units b) oneUnits

/-- `a / b` (R18). -/
def div (a b : F32) : F32 :=
  if isNaN a || isNaN b then qNaN
  else if isInf a then (if isInf b then qNaN else inf (sign a != sign b))
  else if isInf b then zero (sign a != sign b)
  else if isZero b then (if isZero a then qNaN else inf (sign a != sign b))
  else roundQ (sign a != sign b) (oneUnits * units a) (units b)

/-- An integer that orders every datum but NaN as IEEE comparison does; both zeros have 0. -/
def key (a : F32) : Int := cond (sign a) (-(mag a : Int)) (mag a : Int)

/-- `a < b`, false when either is NaN (R18). -/
def lt (a b : F32) : Bool := !isNaN a && !isNaN b && decide (key a < key b)

/-- `a <= b`, false when either is NaN (R18). -/
def le (a b : F32) : Bool := !isNaN a && !isNaN b && decide (key a ≤ key b)

/-- `a > b` (R18). -/
def gt (a b : F32) : Bool := lt b a

/-- `a >= b` (R18). -/
def ge (a b : F32) : Bool := le b a

/-- `a = b` as IEEE compares: the zeros are equal, a NaN equals nothing (R18). -/
def eq (a b : F32) : Bool := !isNaN a && !isNaN b && decide (key a = key b)

/-- The binary32 `2^n`, for `n` up to 127. -/
def pow2 (n : Nat) : F32 := BitVec.ofNat 32 (2 ^ 23 * (127 + n))

/-! Literals: the binary32 nearest the decimal (R18). -/

def c0 : F32 := 0x00000000#32
def c1 : F32 := 0x3F800000#32
def c2 : F32 := 0x40000000#32
def cNeg1 : F32 := 0xBF800000#32
def cNeg2 : F32 := 0xC0000000#32
def cNeg5 : F32 := 0xC0A00000#32
def c16 : F32 := 0x41800000#32
def c20 : F32 := 0x41A00000#32
def c100 : F32 := 0x42C80000#32
/-- `0.001f` (44_envelope.md R270). -/
def c0p001 : F32 := 0x3A83126F#32
/-- `0.1f` (40_filter.md R147). -/
def c0p1 : F32 := 0x3DCCCCCD#32
/-- `0.49f` (40_filter.md R145). -/
def c0p49 : F32 := 0x3EFAE148#32
/-- `0.99f` (41_delay.md R188). -/
def c0p99 : F32 := 0x3F7D70A4#32
/-- `PI32` (R21). -/
def pi32 : F32 := 0x40490FDB#32

end Sys2Proof.F32
end

