-- ==== Sys2Proof/Machine/Operands.lean ====
section
/-! DEFINITION. The operand conversions of the commands: clamps and conversions (00_scope.md R19), the configuration
functions (R20) and the configuration's own check (R13). -/

namespace Sys2Proof.F32

/-- `CLAMP` (R19): a NaN `v` is returned. -/
def clamp (v lo hi : F32) : F32 := if lt v lo then lo else if gt v hi then hi else v

/-- `FLOOR_AT` (R19): a NaN `v` is returned. -/
def floorAt (v lo : F32) : F32 := if lt v lo then lo else v

/-- The integer part of the magnitude of a finite datum. -/
def truncMag (v : F32) : Nat := units v / oneUnits

/-- `2^32` as a binary32. -/
def two32 : F32 := pow2 32

/-- `TRUNC_SAT` (R19). -/
def truncSat (v : F32) : Nat :=
  if isNaN v || le v c0 then 0 else if ge v two32 then 2 ^ 32 - 1 else truncMag v

/-- `TRUNC_INT` (R19). -/
def truncInt (v : F32) : Int :=
  if isNaN v || isInf v then 0 else cond (sign v) (-(truncMag v : Int)) (truncMag v : Int)

/-- `ROUND_HAFZ` (R19): half away from zero; NaN, infinities and zeros are returned; a result of zero keeps the operand's
sign, as the `round` of C does (92 D33; log 6, DEDUCED). -/
def roundHafz (v : F32) : F32 :=
  if isNaN v || isInf v || isZero v then v
  else roundQ (sign v) (oneUnits * ((units v + oneUnits / 2) / oneUnits)) 1

end Sys2Proof.F32

namespace Sys2Proof

/-- The result the table knows for `x`, else that of the uninterpreted function (log 2). -/
def FunTable.apply (t : FunTable) (free : F32 → F32) (x : F32) : F32 :=
  match t.pairs.lookup x, t.rest with
  | some y, _ => y
  | none, some y => y
  | none, none => free x

/-- `SIN32` (00_scope.md R20). -/
def Cfg.SIN32 (c : Cfg) (x : F32) : F32 := c.sinTable.apply Config.sinFree x
/-- `COS32` (R20). -/
def Cfg.COS32 (c : Cfg) (x : F32) : F32 := c.cosTable.apply Config.cosFree x
/-- `TANH32` (R20). -/
def Cfg.TANH32 (c : Cfg) (x : F32) : F32 := c.tanhTable.apply Config.tanhFree x
/-- `EXP32` (R20). -/
def Cfg.EXP32 (c : Cfg) (x : F32) : F32 := c.expTable.apply Config.expFree x

/-- The upper cutoff bound `0.49f * Cfg.SR` (40_filter.md R145). -/
def Cfg.cutoffMax (c : Cfg) : F32 := F32.mul F32.c0p49 c.SR

/-- The tick `DT = 1.0 / Cfg.SR` (44_envelope.md R275). -/
def Cfg.DT (c : Cfg) : F32 := F32.div F32.c1 c.SR

/-- `DSAMP` (41_delay.md R181). -/
def Cfg.DSAMP (c : Cfg) (t : F32) : Nat := F32.truncSat (F32.mul t c.SR)

/-- `DCAP` (41_delay.md R183). -/
def Cfg.DCAP (c : Cfg) (n : Nat) : Nat := min n (c.DELAY_CAP - 1)

/-- The constraints of 00_scope.md R13: a record that violates one is not a block. -/
def Cfg.valid (c : Cfg) : Bool :=
  F32.isFinite c.SR && F32.ge c.cutoffMax F32.c20 &&
  decide (1 ≤ c.CHAIN_CAP ∧ c.CHAIN_CAP ≤ 256) && decide (1 ≤ c.DELAY_CAP) &&
  decide (1 ≤ c.N_ENV ∧ c.N_ENV ≤ 256) && decide (1 ≤ c.N_SM ∧ c.N_SM ≤ 256) &&
  decide (c.DSAMP c.DELAY_INIT.time + 1 ≤ c.DELAY_CAP)

end Sys2Proof
end

