-- ==== Sys2Proof/Machine/State.lean ====
section
/-! DEFINITION. Everything the spec gives the machine, as plain data (10_state.md), and its value after power-on reset
(R50 to R55). -/

namespace Sys2Proof.Machine

/-- Filter response type (10_state.md R39). -/
inductive FilterType where
  | lowPass
  | highPass
  | bandPass
  | notch
deriving DecidableEq, Repr

/-- Distortion transfer function (R43). -/
inductive DistType where
  | soft
  | hard
  | foldback
  | sine
  | bitcrush
deriving DecidableEq, Repr

/-- Envelope stage, codes 0 to 5 (R44). -/
inductive Stage where
  | idle
  | attack
  | decay
  | hold
  | sustain
  | release
deriving DecidableEq, Repr

/-- The normalized coefficients a Filter stores (R39; 40_filter.md R144). -/
structure Coeffs where
  A0 : F32
  A1 : F32
  A2 : F32
  B1 : F32
  B2 : F32
deriving DecidableEq, Repr

/-- Filter state (R39). -/
structure Filter where
  type : FilterType
  cutoff : F32
  resonance : F32
  coeffs : Coeffs
  x1 : F32
  x2 : F32
  y1 : F32
  y2 : F32
deriving DecidableEq, Repr

/-- Delay state (R41). -/
structure Delay where
  buf : Memory
  len : Nat
  wp : Nat
  d : Nat
  time : F32
  feedback : F32
  mix : F32
deriving DecidableEq, Repr

/-- Distortion state (R43). -/
structure Distortion where
  type : DistType
  drive : F32
  mix : F32
  outputGain : F32
  bitDepth : Nat
deriving DecidableEq, Repr

/-- The effect in an occupied slot: its kind and that kind's private state (R38). -/
inductive Effect where
  | filter (f : Filter)
  | delay (d : Delay)
  | distortion (z : Distortion)
deriving DecidableEq, Repr

/-- One Envelope instance (R44). -/
structure Envelope where
  stage : Stage
  level : F32
  stageTime : F32
  startLevel : F32
  attack : F32
  decay : F32
  hold : F32
  sustain : F32
  release : F32
deriving DecidableEq, Repr

/-- One ParameterSmoother instance (R46). -/
structure Smoother where
  current : F32
  target : F32
  factor : F32
deriving DecidableEq, Repr

/-- What a host access does (20_memory.md R86). -/
inductive AccessKind where
  | read
  | write (value : Word)
deriving DecidableEq, Repr

/-- One host access: its byte address, how many bytes it moves, and its direction (R84, 30_encoding.md R118). -/
structure HostAccess where
  addr : Nat
  bytes : Nat
  kind : AccessKind
deriving DecidableEq, Repr

/-- What the outside can do to the block (log 3, log 5). -/
inductive HostEvent where
  /-- The host makes one register access. -/
  | access (a : HostAccess)
  /-- Two agents access the block at once: outside the contract (20_memory.md R93, 60_exceptions.md R341). -/
  | concurrent (a b : HostAccess)
  /-- Power-on reset (70_reset_and_hazards.md R360). -/
  | powerOn
deriving DecidableEq, Repr

/-- The four host-visible registers (10_state.md R30, 30_encoding.md R100). -/
inductive HostReg where
  | cmd
  | data
  | result
  | status
deriving DecidableEq, Repr

/-- The machine. `data`, `result`, `status`, `chain`, `envs` and `sms` are the block's state (10_state.md); `cfg` is its
configuration, which no step changes (R13); `pending`, `pc` and `hostRead` are the host's side (R31). -/
structure State where
  cfg : Cfg
  data : Word
  result : Word
  status : Word
  chain : List Effect
  envs : List Envelope
  sms : List Smoother
  pending : List HostEvent
  pc : Nat
  hostRead : Word
deriving DecidableEq, Repr

/-- The reasons the machine could stop with a fault: none. "every operation is total and always returns a well-defined
value" (60_exceptions.md R330). An illegal command and a capacity limit are next states (R331, R333). -/
inductive Fault where
deriving DecidableEq, Repr

/-- The reasons the model takes no step. -/
inductive Refusal where
  /-- An instruction without a meaning yet; raised by an arm of `exec`, of which none is left. Safe. -/
  | notModelled (mnemonic : String)
  /-- The configuration violates 00_scope.md R13, so it is not a block; raised by `step`. Safe: the spec asks for it
  (60_exceptions.md R341). -/
  | invalidConfiguration
  /-- A host access that is not an aligned 32-bit access to one of the four offsets; raised by `step`. Safe: the spec asks
  for it (20_memory.md R84). -/
  | undefinedAccess
  /-- Two agents access the block at once; raised by `step`. Safe: the spec asks for it (60_exceptions.md R341). -/
  | concurrentAccess
deriving DecidableEq, Repr

/-- An Envelope after power-on reset (10_state.md R52; 70_reset_and_hazards.md R361). -/
def Envelope.powerOn (c : Cfg) : Envelope where
  stage := .idle
  level := F32.c0
  stageTime := F32.c0
  startLevel := F32.c0
  attack := F32.floorAt c.ENV_INIT.attack F32.c0p001
  decay := F32.floorAt c.ENV_INIT.decay F32.c0p001
  hold := F32.floorAt c.ENV_INIT.hold F32.c0
  sustain := F32.clamp c.ENV_INIT.sustain F32.c0 F32.c1
  release := F32.floorAt c.ENV_INIT.release F32.c0p001

/-- A ParameterSmoother after power-on reset (R53). -/
def Smoother.powerOn (c : Cfg) : Smoother where
  current := c.SM_INIT.current
  target := c.SM_INIT.target
  factor := F32.clamp c.SM_INIT.factor F32.c0 F32.c1

/-- Power-on reset of the block with configuration `c` (R50 to R53), no host access made and none waiting (log 3, 4). -/
def State.powerOn (c : Cfg) : State where
  cfg := c
  data := 0x00000000#32
  result := 0x00000000#32
  status := 0x00000000#32
  chain := []
  envs := List.replicate c.N_ENV (Envelope.powerOn c)
  sms := List.replicate c.N_SM (Smoother.powerOn c)
  pending := []
  pc := 0
  hostRead := 0x00000000#32

/-- The machine right after reset, in the reference configuration (log 1). -/
def State.reset : State := State.powerOn Config.reference

end Sys2Proof.Machine
end

