-- ==== Sys2Proof/Machine/Flags.lean ====
section
/-! DEFINITION. The `STATUS` word: its two bits and the three values a command can leave (10_state.md R35,
60_exceptions.md R335). The block has no other flag (R36). -/

namespace Sys2Proof.Machine

/-- A legal command that met no capacity limit (R335). -/
def statusOk : Word := 0x00000000#32
/-- An illegal command (R331). -/
def statusIll : Word := 0x00000001#32
/-- A legal command that met a capacity limit (R333). -/
def statusCap : Word := 0x00000002#32

/-- `STATUS` of a legal command, from whether it met a capacity limit (41_delay.md R187, 43_chain.md R243). -/
def statusOf (cap : Bool) : Word := cond cap statusCap statusOk

/-- `STATUS.ILL`, bit 0 (10_state.md R35). -/
def State.ill (s : State) : Bool := s.status.getLsbD 0
/-- `STATUS.CAP`, bit 1 (R35). -/
def State.cap (s : State) : Bool := s.status.getLsbD 1

/-- A boolean result: `0x00000001` or `0x00000000` (R34). -/
def boolWord (b : Bool) : Word := cond b 0x00000001#32 0x00000000#32

/-- A count or a code as an unsigned 32-bit word (R34). -/
def natWord (n : Nat) : Word := BitVec.ofNat 32 n

end Sys2Proof.Machine
end

