-- ==== Sys2Proof/Machine/Ops.lean ====
section
/-! DEFINITION. The named operations the commands share: ending a command, the illegal outcome, access to chain slots,
envelopes and smoothers, and the host's register accesses. -/

namespace Sys2Proof.Machine

/-- Every outcome of a meaning is a next state, a fault or a refusal. -/
abbrev Result := Host.Outcome State Fault Refusal

/-- The operand `V = f32(DATA)` (30_encoding.md R101). -/
def State.operand (s : State) : F32 := s.data

/-- `count` (10_state.md R37). -/
def State.count (s : State) : Nat := s.chain.length

/-- `return v`: `RESULT <- v`, `STATUS <- 0` (00_scope.md R22). -/
def State.complete (s : State) (v : Word) : State := { s with result := v, status := statusOk }

/-- `return v` by a command that says whether it met a capacity limit (60_exceptions.md R333). -/
def State.completeCap (s : State) (v : Word) (cap : Bool) : State := { s with result := v, status := statusOf cap }

/-- `raise Illegal`, the one exceptional outcome of the block: `STATUS <- 1`, `RESULT <- 0` and nothing else
(60_exceptions.md R331). No state is saved and nothing returns from it (R338, R339). -/
def State.raiseIllegal (s : State) : State := { s with result := 0x00000000#32, status := statusIll }

/-- `slot[idx]`; `none` when `idx >= count` (10_state.md R37). -/
def State.slot (s : State) (idx : Nat) : Option Effect := s.chain[idx]?

/-- `slot[idx] <- e`. -/
def State.setSlot (s : State) (idx : Nat) (e : Effect) : State := { s with chain := s.chain.set idx e }

/-- `env[idx]`; `none` when `idx >= Cfg.N_ENV` (44_envelope.md R288; log 11). -/
def State.env (s : State) (idx : Nat) : Option Envelope := if idx < s.cfg.N_ENV then s.envs[idx]? else none

/-- `env[idx] <- e`. -/
def State.setEnv (s : State) (idx : Nat) (e : Envelope) : State := { s with envs := s.envs.set idx e }

/-- `sm[idx]`; `none` when `idx >= Cfg.N_SM` (45_smoother.md R316; log 11). -/
def State.sm (s : State) (idx : Nat) : Option Smoother := if idx < s.cfg.N_SM then s.sms[idx]? else none

/-- `sm[idx] <- x`. -/
def State.setSm (s : State) (idx : Nat) (x : Smoother) : State := { s with sms := s.sms.set idx x }

/-- A command on the effect at `idx`: illegal when there is none (60_exceptions.md R332), else `f` gives the effect after
it and the result word. -/
def onSlot (idx : Nat) (s : State) (f : Effect → Effect × Word) : Result :=
  match s.slot idx with
  | none => .next s.raiseIllegal
  | some e => .next ((s.setSlot idx (f e).1).complete (f e).2)

/-- A command on `env[idx]`: illegal when there is none (R332), else `f` gives the envelope after it and the result
word. -/
def onEnv (idx : Nat) (s : State) (f : Envelope → Envelope × Word) : Result :=
  match s.env idx with
  | none => .next s.raiseIllegal
  | some e => .next ((s.setEnv idx (f e).1).complete (f e).2)

/-- A command on `sm[idx]`: illegal when there is none (R332), else `f` gives the smoother after it and the result word. -/
def onSm (idx : Nat) (s : State) (f : Smoother → Smoother × Word) : Result :=
  match s.sm idx with
  | none => .next s.raiseIllegal
  | some x => .next ((s.setSm idx (f x).1).complete (f x).2)

/-- Power-on reset of the block: its own state takes the reset values; the configuration and the host's side stay
(70_reset_and_hazards.md R360; log 5). -/
def State.powerCycle (s : State) : State :=
  { State.powerOn s.cfg with pending := s.pending, pc := s.pc, hostRead := s.hostRead }

/-- The register at byte offset `off` (30_encoding.md R100). -/
def HostReg.atOffset (off : Nat) : Option HostReg :=
  if off = 0x0 then some .cmd
  else if off = 0x4 then some .data
  else if off = 0x8 then some .result
  else if off = 0xC then some .status
  else none

/-- The byte offset of a register (R100). -/
def HostReg.offset : HostReg → Nat
  | .cmd => 0x0
  | .data => 0x4
  | .result => 0x8
  | .status => 0xC

/-- The register an access reaches; `none` for an access the spec does not define: another width, another offset, an
address that is not word aligned or lies below `BASE` (20_memory.md R84; log 10). -/
def accessReg (c : Cfg) (a : HostAccess) : Option HostReg :=
  if a.bytes = 4 ∧ a.addr % 4 = 0 ∧ c.BASE ≤ a.addr then HostReg.atOffset (a.addr - c.BASE) else none

/-- The word a register reads as (10_state.md R32 to R35): `CMD` reads 0. -/
def State.readReg (s : State) : HostReg → Word
  | .cmd => 0x00000000#32
  | .data => s.data
  | .result => s.result
  | .status => s.status

/-- A host read: no side effect on the block (20_memory.md R86); the host has the word (log 4). -/
def State.hostReads (s : State) (r : HostReg) : State := { s with hostRead := s.readReg r }

/-- A host write of `DATA` stores the word (R32); writes of `RESULT` and `STATUS` are ignored (R34, R35). A `CMD` write is
a command and is not handled here. -/
def State.hostWrites (s : State) (r : HostReg) (v : Word) : State :=
  match r with
  | .data => { s with data := v }
  | .cmd | .result | .status => s

/-- The host's position in its command stream advances by one (10_state.md R31). -/
def State.advance (s : State) : State := { s with pc := s.pc + 1 }

/-- `MemWrite(BASE + offset, 4, v)` (00_scope.md R22). -/
def memWrite (c : Cfg) (r : HostReg) (v : Word) : HostEvent :=
  .access { addr := c.BASE + r.offset, bytes := 4, kind := .write v }

/-- `MemRead(BASE + offset, 4)` (R22). -/
def memRead (c : Cfg) (r : HostReg) : HostEvent :=
  .access { addr := c.BASE + r.offset, bytes := 4, kind := .read }

end Sys2Proof.Machine
end

