-- ==== Sys2Proof/Machine/Delay.lean ====
section
/-! DEFINITION. The Delay's operations (41_delay.md). -/

namespace Sys2Proof.Machine

/-- The clamp of a written feedback (41_delay.md R188). -/
def clampFeedback (v : F32) : F32 := F32.clamp v F32.c0 F32.c0p99

/-- The clamp of a written mix (R189; 42_distortion.md R221). -/
def clampMix (v : F32) : F32 := F32.clamp v F32.c0 F32.c1

/-- Construction (R180). -/
def Delay.construct (c : Cfg) : Delay where
  buf := Memory.cleared
  len := c.DSAMP c.DELAY_INIT.time + 1
  wp := 0
  d := c.DSAMP c.DELAY_INIT.time
  time := c.DELAY_INIT.time
  feedback := clampFeedback c.DELAY_INIT.feedback
  mix := clampMix c.DELAY_INIT.mix

/-- The read position `rp(D)` (R182). -/
def Delay.rp (d : Delay) : Nat := (d.wp + d.len - d.d) % d.len

/-- The delayed sample this tick reads (R191). -/
def Delay.delayed (d : Delay) : F32 := d.buf.read d.rp

/-- What this tick writes back for input `x` (R191). -/
def Delay.writeBack (d : Delay) (x : F32) : F32 := F32.add x (F32.mul d.delayed d.feedback)

/-- The dry/wet cross-fade (R191). -/
def Delay.output (d : Delay) (x : F32) : F32 :=
  F32.add (F32.mul x (F32.sub F32.c1 d.mix)) (F32.mul d.delayed d.mix)

/-- `DELAY_STEP` (R191): the read comes before the write (20_memory.md R96). -/
def Delay.step (d : Delay) (x : F32) : Delay × F32 :=
  ({ d with buf := d.buf.write d.wp (d.writeBack x), wp := (d.wp + 1) % d.len }, d.output x)

/-- `DELAY_RESET` (R192). -/
def Delay.reset (d : Delay) : Delay := { d with buf := Memory.cleared, wp := 0 }

/-- `GROW(D, L2)` (R186). -/
def Delay.grow (d : Delay) (len2 : Nat) : Delay :=
  { d with buf := d.buf.unroll d.len d.wp, len := len2, wp := 0 }

/-- The buffer growth a new delay of `n` samples needs, if any (R184, R185). -/
def Delay.growFor (d : Delay) (n : Nat) : Delay := if d.len ≤ n then d.grow (n + 1) else d

/-- Set "time" (R184). -/
def Delay.setTime (c : Cfg) (d : Delay) (v : F32) : Delay :=
  { d.growFor (c.DCAP (c.DSAMP v)) with time := v, d := c.DCAP (c.DSAMP v) }

/-- Whether set "time" meets the capacity limit (R187). -/
def timeExceeds (c : Cfg) (v : F32) : Bool := decide (c.DELAY_CAP - 1 < c.DSAMP v)

/-- Set "feedback" (R188). -/
def Delay.setFeedback (d : Delay) (v : F32) : Delay := { d with feedback := clampFeedback v }

/-- Set "mix" (R189). -/
def Delay.setMix (d : Delay) (v : F32) : Delay := { d with mix := clampMix v }

/-- `EFX.SETP` on a Delay (R184, R188 to R190), with the capacity signal; `none` for a name it does not recognize. -/
def Delay.setp (c : Cfg) (d : Delay) (name : ParamName) (v : F32) : Option (Delay × Bool) :=
  match name with
  | .time => some (d.setTime c v, timeExceeds c v)
  | .feedback => some (d.setFeedback v, false)
  | .mix => some (d.setMix v, false)
  | .cutoff | .resonance | .type | .drive | .outputGain | .bitDepth | .other _ => none

end Sys2Proof.Machine
end

