-- ==== Sys2Proof/Machine/Distortion.lean ====
section
/-! DEFINITION. The Distortion's operations (42_distortion.md). -/

namespace Sys2Proof.F32

/-- The exact fold of a value of `u` units onto `[-1, 1]`, in units (42_distortion.md R215). -/
def foldUnits (u : Int) : Int :=
  let t := (u + oneUnits) % (4 * oneUnits)
  if t ≤ 2 * oneUnits then t - oneUnits else 3 * oneUnits - t

/-- `FOLD` (R215): closed form, total; a zero result is `+0.0`. -/
def fold (v : F32) : F32 :=
  if isNaN v then v
  else if isInf v then qNaN
  else if le cNeg1 v && le v c1 then v
  else roundInt false (foldUnits (val v))

/-- `BITS` (R222). -/
def bits (v : F32) : Nat :=
  let b := clamp v c1 c16
  if isNaN b then 1 else (truncInt b).toNat

/-- Quantization to steps of `1 / 2^(depth - 1)` (R217). -/
def crush (depth : Nat) (v : F32) : F32 := div (roundHafz (mul v (pow2 (depth - 1)))) (pow2 (depth - 1))

end Sys2Proof.F32

namespace Sys2Proof.Machine

/-- `DTYPE` (42_distortion.md R211). -/
def dtype (v : F32) : DistType :=
  if F32.truncInt v = 0 then .soft
  else if F32.truncInt v = 1 then .hard
  else if F32.truncInt v = 2 then .foldback
  else if F32.truncInt v = 3 then .sine
  else if F32.truncInt v = 4 then .bitcrush
  else .soft

/-- The clamp of a written drive (R220). -/
def clampDrive (v : F32) : F32 := F32.clamp v F32.c1 F32.c100

/-- The clamp of a written output gain (R223). -/
def clampGain (v : F32) : F32 := F32.clamp v F32.c0 F32.c1

/-- Construction (R210). -/
def Distortion.construct (c : Cfg) : Distortion where
  type := dtype c.DIST_INIT.type
  drive := clampDrive c.DIST_INIT.drive
  mix := clampMix c.DIST_INIT.mix
  outputGain := clampGain c.DIST_INIT.outputGain
  bitDepth := F32.bits c.DIST_INIT.bitDepth

/-- The transfer function at the driven value `v` (R213 to R217). -/
def Distortion.shape (c : Cfg) (z : Distortion) (v : F32) : F32 :=
  match z.type with
  | .soft => c.TANH32 v
  | .hard => F32.clamp v F32.cNeg1 F32.c1
  | .foldback => F32.fold v
  | .sine => c.SIN32 (F32.mul v F32.pi32)
  | .bitcrush => F32.crush z.bitDepth v

/-- The output stage `OUT(x, s)` (R218). -/
def Distortion.out (z : Distortion) (x shaped : F32) : F32 :=
  F32.mul (F32.add (F32.mul x (F32.sub F32.c1 z.mix)) (F32.mul shaped z.mix)) z.outputGain

/-- The output of `DIST_STEP` (R219). -/
def Distortion.output (c : Cfg) (z : Distortion) (x : F32) : F32 := z.out x (z.shape c (F32.mul x z.drive))

/-- `DIST_STEP` (R219): no field is written. -/
def Distortion.step (c : Cfg) (z : Distortion) (x : F32) : Distortion × F32 := (z, z.output c x)

/-- `EFX.SETP` on a Distortion (R220 to R225); `none` for a name it does not recognize. -/
def Distortion.setp (z : Distortion) (name : ParamName) (v : F32) : Option Distortion :=
  match name with
  | .type => some { z with type := dtype v }
  | .mix => some { z with mix := clampMix v }
  | .drive => some { z with drive := clampDrive v }
  | .outputGain => some { z with outputGain := clampGain v }
  | .bitDepth => some { z with bitDepth := F32.bits v }
  | .cutoff | .resonance | .time | .feedback | .other _ => none

end Sys2Proof.Machine
end

