-- ==== Sys2Proof/Machine/Filter.lean ====
section
/-! DEFINITION. The Filter's operations (40_filter.md). -/

namespace Sys2Proof.Machine

/-- `FTYPE` (40_filter.md R141). -/
def ftype (v : F32) : FilterType :=
  if F32.truncInt v = 0 then .lowPass
  else if F32.truncInt v = 1 then .highPass
  else if F32.truncInt v = 2 then .bandPass
  else if F32.truncInt v = 3 then .notch
  else .lowPass

/-- `w = ((2.0 * PI32) * cutoff) / Cfg.SR` (R142). -/
def omega (c : Cfg) (cutoff : F32) : F32 := F32.div (F32.mul (F32.mul F32.c2 F32.pi32) cutoff) c.SR

/-- `alpha = sw / (2.0 * resonance)` (R142). -/
def alphaOf (sw resonance : F32) : F32 := F32.div sw (F32.mul F32.c2 resonance)

/-- The raw feed-forward coefficients `(b0, b1, b2)` of the cookbook (R143). -/
def rawForward (bp : BpVariant) (t : FilterType) (sw cw alpha : F32) : F32 × F32 × F32 :=
  match t with
  | .lowPass =>
    (F32.div (F32.sub F32.c1 cw) F32.c2, F32.sub F32.c1 cw, F32.div (F32.sub F32.c1 cw) F32.c2)
  | .highPass =>
    (F32.div (F32.add F32.c1 cw) F32.c2, F32.neg (F32.add F32.c1 cw), F32.div (F32.add F32.c1 cw) F32.c2)
  | .bandPass =>
    match bp with
    | .peak0dB => (alpha, F32.c0, F32.neg alpha)
    | .skirt => (F32.div sw F32.c2, F32.c0, F32.neg (F32.div sw F32.c2))
  | .notch => (F32.c1, F32.mul F32.cNeg2 cw, F32.c1)

/-- `COEFFS` from the sine and cosine of `w` (R143): each stored value is one division by the raw `a0`. -/
def coeffsOf (bp : BpVariant) (t : FilterType) (resonance sw cw : F32) : Coeffs :=
  let alpha := alphaOf sw resonance
  let b := rawForward bp t sw cw alpha
  let a0 := F32.add F32.c1 alpha
  let a1 := F32.mul F32.cNeg2 cw
  let a2 := F32.sub F32.c1 alpha
  { A0 := F32.div b.1 a0, A1 := F32.div b.2.1 a0, A2 := F32.div b.2.2 a0, B1 := F32.div a1 a0, B2 := F32.div a2 a0 }

/-- `COEFFS(type, cutoff, resonance)` (R143). With a NaN cutoff the sine and cosine are the instance's at NaN (log 2, DESIGN
CHOICE: the corner case of R146). -/
def coeffsFor (c : Cfg) (t : FilterType) (cutoff resonance : F32) : Coeffs :=
  coeffsOf c.BP_VARIANT t resonance (c.SIN32 (omega c cutoff)) (c.COS32 (omega c cutoff))

/-- The coefficients are recomputed from the current parameters, as every setter does (R146 to R148). -/
def Filter.recompute (c : Cfg) (f : Filter) : Filter := { f with coeffs := coeffsFor c f.type f.cutoff f.resonance }

/-- The clamp of a written cutoff (R145). -/
def clampCutoff (c : Cfg) (v : F32) : F32 := F32.clamp v F32.c20 c.cutoffMax

/-- The clamp of a written resonance (R145). -/
def clampResonance (v : F32) : F32 := F32.clamp v F32.c0p1 F32.c20

/-- Construction (R140). -/
def Filter.construct (c : Cfg) : Filter :=
  let t := ftype c.FILTER_INIT.type
  let cut := clampCutoff c c.FILTER_INIT.cutoff
  let res := clampResonance c.FILTER_INIT.resonance
  { type := t, cutoff := cut, resonance := res, coeffs := coeffsFor c t cut res,
    x1 := F32.c0, x2 := F32.c0, y1 := F32.c0, y2 := F32.c0 }

/-- The output sum, left to right (R150). -/
def Filter.output (f : Filter) (x : F32) : F32 :=
  F32.sub
    (F32.sub
      (F32.add (F32.add (F32.mul f.coeffs.A0 x) (F32.mul f.coeffs.A1 f.x1)) (F32.mul f.coeffs.A2 f.x2))
      (F32.mul f.coeffs.B1 f.y1))
    (F32.mul f.coeffs.B2 f.y2)

/-- `FILTER_STEP` (R150), direct form I (90 C1). -/
def Filter.step (f : Filter) (x : F32) : Filter × F32 :=
  ({ f with x2 := f.x1, x1 := x, y2 := f.y1, y1 := f.output x }, f.output x)

/-- `FILTER_RESET` (R151). -/
def Filter.reset (f : Filter) : Filter := { f with x1 := F32.c0, x2 := F32.c0, y1 := F32.c0, y2 := F32.c0 }

/-- Set "cutoff" (R146). -/
def Filter.setCutoff (c : Cfg) (f : Filter) (v : F32) : Filter :=
  Filter.recompute c { f with cutoff := clampCutoff c v }

/-- Set "resonance" (R147). -/
def Filter.setResonance (c : Cfg) (f : Filter) (v : F32) : Filter :=
  Filter.recompute c { f with resonance := clampResonance v }

/-- Set "type" (R148). -/
def Filter.setType (c : Cfg) (f : Filter) (v : F32) : Filter := Filter.recompute c { f with type := ftype v }

/-- `EFX.SETP` on a Filter (R146 to R149); `none` for a name it does not recognize. -/
def Filter.setp (c : Cfg) (f : Filter) (name : ParamName) (v : F32) : Option Filter :=
  match name with
  | .cutoff => some (f.setCutoff c v)
  | .resonance => some (f.setResonance c v)
  | .type => some (f.setType c v)
  | .time | .feedback | .mix | .drive | .outputGain | .bitDepth | .other _ => none

end Sys2Proof.Machine
end

