-- ==== Sys2Proof/Machine/Effect.lean ====
section
/-! DEFINITION. The Effect capability and its dispatch (43_chain.md R240, R241), and the per-effect commands `EFX.*`. -/

namespace Sys2Proof.Machine

/-- `STEP(e, x)` (R241). -/
def Effect.step (c : Cfg) (e : Effect) (x : F32) : Effect × F32 :=
  match e with
  | .filter f => (.filter (f.step x).1, (f.step x).2)
  | .delay d => (.delay (d.step x).1, (d.step x).2)
  | .distortion z => (.distortion (z.step c x).1, (z.step c x).2)

/-- `RESET(e)` (R241); a Distortion's is a no-op (42_distortion.md R226). -/
def Effect.reset : Effect → Effect
  | .filter f => .filter f.reset
  | .delay d => .delay d.reset
  | .distortion z => .distortion z

/-- `SETP(e, sel, V)` (R241): the effect after it and whether it met the capacity limit; `none` when the kind does not
recognize the name. -/
def Effect.setp (c : Cfg) (e : Effect) (name : ParamName) (v : F32) : Option (Effect × Bool) :=
  match e with
  | .filter f => (f.setp c name v).map fun f' => (.filter f', false)
  | .delay d => (d.setp c name v).map fun p => (.delay p.1, p.2)
  | .distortion z => (z.setp name v).map fun z' => (.distortion z', false)

/-- `NAME(e)` (R241; 30_encoding.md R106). -/
def Effect.name : Effect → Nat
  | .filter _ => 1
  | .delay _ => 2
  | .distortion _ => 3

/-- `CONSTRUCT(kind)` (R241); `none` for a code that names no kind. -/
def construct (c : Cfg) : KindCode → Option Effect
  | .filter => some (.filter (Filter.construct c))
  | .delay => some (.delay (Delay.construct c))
  | .distortion => some (.distortion (Distortion.construct c))
  | .bad _ => none

/-- `EFX.PROC` (R249). -/
def execEfxProc (idx : Nat) (s : State) : Result := onSlot idx s fun e => e.step s.cfg s.operand

/-- `EFX.RST` (R250). -/
def execEfxRst (idx : Nat) (s : State) : Result := onSlot idx s fun e => (e.reset, 0x00000000#32)

/-- `EFX.SETP` (R248): an index out of range and a name the effect does not recognize return false. -/
def execEfxSetp (idx : Nat) (name : ParamName) (s : State) : Result :=
  match s.slot idx with
  | none => .next (s.complete (boolWord false))
  | some e =>
    match e.setp s.cfg name s.operand with
    | none => .next (s.complete (boolWord false))
    | some (e', cap) => .next ((s.setSlot idx e').completeCap (boolWord true) cap)

/-- `EFX.NAME` (R251). -/
def execEfxName (idx : Nat) (s : State) : Result := onSlot idx s fun e => (e, natWord e.name)

end Sys2Proof.Machine
end

