-- ==== Sys2Proof/Machine/Chain.lean ====
section
/-! DEFINITION. The chain commands `CH.*` and `NOP` (43_chain.md). -/

namespace Sys2Proof.Machine

/-- `NOP` (R252): it touches no unit and clears `STATUS`. -/
def execNop (s : State) : Result := .next (s.complete 0x00000000#32)

/-- `CH.ADD` (R243): illegal for a bad kind code (60_exceptions.md R332), without effect on a full chain. -/
def execChAdd (kind : KindCode) (s : State) : Result :=
  match construct s.cfg kind with
  | none => .next s.raiseIllegal
  | some e =>
    if s.count = s.cfg.CHAIN_CAP then .next (s.completeCap 0x00000000#32 true)
    else .next ({ s with chain := s.chain ++ [e] }.complete 0x00000000#32)

/-- `CH.REM` (R244). -/
def execChRem (idx : Nat) (s : State) : Result :=
  if idx < s.count then .next ({ s with chain := s.chain.eraseIdx idx }.complete (boolWord true))
  else .next (s.complete (boolWord false))

/-- The fold of `CH.PROC` (R245): each output feeds the next effect, in insertion order. -/
def chainStep (c : Cfg) : List Effect → F32 → List Effect × F32
  | [], v => ([], v)
  | e :: es, v =>
    ((e.step c v).1 :: (chainStep c es (e.step c v).2).1, (chainStep c es (e.step c v).2).2)

/-- `CH.PROC` (R245). -/
def execChProc (s : State) : Result :=
  .next ({ s with chain := (chainStep s.cfg s.chain s.operand).1 }.complete (chainStep s.cfg s.chain s.operand).2)

/-- `CH.RSTALL` (R246). -/
def execChRstall (s : State) : Result :=
  .next ({ s with chain := s.chain.map Effect.reset }.complete 0x00000000#32)

/-- `CH.COUNT` (R247). -/
def execChCount (s : State) : Result := .next (s.complete (natWord s.count))

end Sys2Proof.Machine
end

