-- ==== Sys2Proof/Machine/Envelope.lean ====
section
/-! DEFINITION. The Envelope's operations and the commands `ENV.*` (44_envelope.md). -/

namespace Sys2Proof.Machine

/-- The Idle arm (R277). -/
def Envelope.idleArm (e : Envelope) : Envelope := { e with level := F32.c0 }

/-- The linear ramp (R278). -/
def Envelope.attackLevel (e : Envelope) : F32 :=
  F32.add e.startLevel (F32.mul (F32.sub F32.c1 e.startLevel) (F32.div e.stageTime e.attack))

/-- The Attack arm (R278). -/
def Envelope.attackArm (e : Envelope) : Envelope :=
  if F32.ge e.stageTime e.attack then { e with level := F32.c1, stage := .decay, stageTime := F32.c0 }
  else { e with level := e.attackLevel }

/-- The exponential factor of Decay and Release: `EXP32((-5.0 * stage_time) / t)` (R279, R282). With a NaN `t` it is the
instance's `EXP32` of NaN, of which R20 lets nothing be assumed; so the NaN level of the corner case of R271 and of R290 item
4 is that of an instance whose `EXP32` of NaN is NaN (log 2, DESIGN CHOICE). -/
def Envelope.expFactor (c : Cfg) (e : Envelope) (t : F32) : F32 :=
  c.EXP32 (F32.div (F32.mul F32.cNeg5 e.stageTime) t)

/-- The decay curve (R279). -/
def Envelope.decayLevel (c : Cfg) (e : Envelope) : F32 :=
  F32.add e.sustain (F32.mul (F32.sub F32.c1 e.sustain) (e.expFactor c e.decay))

/-- The Decay arm (R279). -/
def Envelope.decayArm (c : Cfg) (e : Envelope) : Envelope :=
  if F32.ge e.stageTime e.decay then { e with level := e.sustain, stage := .hold, stageTime := F32.c0 }
  else { e with level := e.decayLevel c }

/-- The Hold arm (R280). -/
def Envelope.holdArm (e : Envelope) : Envelope :=
  if F32.ge e.stageTime e.hold then { e with level := e.sustain, stage := .sustain, stageTime := F32.c0 }
  else { e with level := e.sustain }

/-- The Sustain arm (R281). -/
def Envelope.sustainArm (e : Envelope) : Envelope := { e with level := e.sustain }

/-- The release curve (R282). -/
def Envelope.releaseLevel (c : Cfg) (e : Envelope) : F32 := F32.mul e.startLevel (e.expFactor c e.release)

/-- The Release arm (R282). -/
def Envelope.releaseArm (c : Cfg) (e : Envelope) : Envelope :=
  if F32.ge e.stageTime e.release then { e with level := F32.c0, stage := .idle, stageTime := F32.c0 }
  else { e with level := e.releaseLevel c }

/-- The advance of `stage_time` that comes first in every stage (R276). -/
def Envelope.tick (c : Cfg) (e : Envelope) : Envelope := { e with stageTime := F32.add e.stageTime c.DT }

/-- The one arm a call evaluates, that of the stage it starts in (R276). -/
def Envelope.arm (c : Cfg) (e : Envelope) : Envelope :=
  match e.stage with
  | .idle => e.idleArm
  | .attack => e.attackArm
  | .decay => e.decayArm c
  | .hold => e.holdArm
  | .sustain => e.sustainArm
  | .release => e.releaseArm c

/-- `ENV_STEP` (R276); the level of the result is what the call returns. -/
def Envelope.step (c : Cfg) (e : Envelope) : Envelope := (e.tick c).arm c

/-- `trigger()` (R283): the level is kept. -/
def Envelope.trigger (e : Envelope) : Envelope :=
  { e with startLevel := e.level, stage := .attack, stageTime := F32.c0 }

/-- `release()` (R284): a no-op in Idle. -/
def Envelope.releaseNow (e : Envelope) : Envelope :=
  if e.stage = .idle then e else { e with startLevel := e.level, stage := .release, stageTime := F32.c0 }

/-- The floor of a written attack, decay or release time (R270, R271, R274). -/
def floorTime (v : F32) : F32 := F32.floorAt v F32.c0p001

/-- The floor of a written hold time (R272). -/
def floorHold (v : F32) : F32 := F32.floorAt v F32.c0

/-- The clamp of a written sustain level (R273). -/
def clampSustain (v : F32) : F32 := F32.clamp v F32.c0 F32.c1

/-- `ENV.SETA` (R270). -/
def execEnvSeta (idx : Nat) (s : State) : Result :=
  onEnv idx s fun e => ({ e with attack := floorTime s.operand }, 0x00000000#32)

/-- `ENV.SETD` (R271). -/
def execEnvSetd (idx : Nat) (s : State) : Result :=
  onEnv idx s fun e => ({ e with decay := floorTime s.operand }, 0x00000000#32)

/-- `ENV.SETH` (R272). -/
def execEnvSeth (idx : Nat) (s : State) : Result :=
  onEnv idx s fun e => ({ e with hold := floorHold s.operand }, 0x00000000#32)

/-- `ENV.SETS` (R273). -/
def execEnvSets (idx : Nat) (s : State) : Result :=
  onEnv idx s fun e => ({ e with sustain := clampSustain s.operand }, 0x00000000#32)

/-- `ENV.SETR` (R274). -/
def execEnvSetr (idx : Nat) (s : State) : Result :=
  onEnv idx s fun e => ({ e with release := floorTime s.operand }, 0x00000000#32)

/-- `ENV.TRIG` (R283). -/
def execEnvTrig (idx : Nat) (s : State) : Result := onEnv idx s fun e => (e.trigger, 0x00000000#32)

/-- `ENV.REL` (R284). -/
def execEnvRel (idx : Nat) (s : State) : Result := onEnv idx s fun e => (e.releaseNow, 0x00000000#32)

/-- `ENV.PROC` (R287). -/
def execEnvProc (idx : Nat) (s : State) : Result := onEnv idx s fun e => (e.step s.cfg, (e.step s.cfg).level)

/-- `ENV.ACTIVE` (R286). -/
def execEnvActive (idx : Nat) (s : State) : Result := onEnv idx s fun e => (e, boolWord (decide (e.stage ≠ .idle)))

end Sys2Proof.Machine
end

