-- ==== Sys2Proof/Machine/Smoother.lean ====
section
/-! DEFINITION. The ParameterSmoother's operations and the commands `SM.*` (45_smoother.md). -/

namespace Sys2Proof.Machine

/-- `process()` (R312). -/
def Smoother.step (x : Smoother) : Smoother :=
  { x with current := F32.add x.current (F32.mul x.factor (F32.sub x.target x.current)) }

/-- The clamp of a written factor (R311). -/
def clampFactor (v : F32) : F32 := F32.clamp v F32.c0 F32.c1

/-- `|current - target| < threshold` (R314). -/
def Smoother.isClose (x : Smoother) (threshold : F32) : Bool :=
  F32.lt (F32.abs (F32.sub x.current x.target)) threshold

/-- `SM.TGT` (R310). -/
def execSmTgt (idx : Nat) (s : State) : Result :=
  onSm idx s fun x => ({ x with target := s.operand }, 0x00000000#32)

/-- `SM.FACT` (R311). -/
def execSmFact (idx : Nat) (s : State) : Result :=
  onSm idx s fun x => ({ x with factor := clampFactor s.operand }, 0x00000000#32)

/-- `SM.PROC` (R312). -/
def execSmProc (idx : Nat) (s : State) : Result := onSm idx s fun x => (x.step, x.step.current)

/-- `SM.RST` (R313). -/
def execSmRst (idx : Nat) (s : State) : Result :=
  onSm idx s fun x => ({ x with current := s.operand, target := s.operand }, 0x00000000#32)

/-- `SM.CLOSE` (R314). -/
def execSmClose (idx : Nat) (s : State) : Result := onSm idx s fun x => (x, boolWord (x.isClose s.operand))

end Sys2Proof.Machine
end

