-- ==== Sys2Proof/Machine/Dispatch.lean ====
section
/-! DEFINITION. The meaning of every command: one arm per row of the opcode map (30_encoding.md R103). -/

namespace Sys2Proof.Machine

def exec (i : Instr) (s : State) : Host.Outcome State Fault Refusal :=
  match i with
  | .nop => Sys2Proof.Machine.execNop s
  | .efxProc idx => Sys2Proof.Machine.execEfxProc idx s
  | .efxRst idx => Sys2Proof.Machine.execEfxRst idx s
  | .efxSetp idx name => Sys2Proof.Machine.execEfxSetp idx name s
  | .efxName idx => Sys2Proof.Machine.execEfxName idx s
  | .chAdd kind => Sys2Proof.Machine.execChAdd kind s
  | .chRem idx => Sys2Proof.Machine.execChRem idx s
  | .chProc => Sys2Proof.Machine.execChProc s
  | .chRstall => Sys2Proof.Machine.execChRstall s
  | .chCount => Sys2Proof.Machine.execChCount s
  | .envSeta idx => Sys2Proof.Machine.execEnvSeta idx s
  | .envSetd idx => Sys2Proof.Machine.execEnvSetd idx s
  | .envSeth idx => Sys2Proof.Machine.execEnvSeth idx s
  | .envSets idx => Sys2Proof.Machine.execEnvSets idx s
  | .envSetr idx => Sys2Proof.Machine.execEnvSetr idx s
  | .envTrig idx => Sys2Proof.Machine.execEnvTrig idx s
  | .envRel idx => Sys2Proof.Machine.execEnvRel idx s
  | .envProc idx => Sys2Proof.Machine.execEnvProc idx s
  | .envActive idx => Sys2Proof.Machine.execEnvActive idx s
  | .smTgt idx => Sys2Proof.Machine.execSmTgt idx s
  | .smFact idx => Sys2Proof.Machine.execSmFact idx s
  | .smProc idx => Sys2Proof.Machine.execSmProc idx s
  | .smRst idx => Sys2Proof.Machine.execSmRst idx s
  | .smClose idx => Sys2Proof.Machine.execSmClose idx s

end Sys2Proof.Machine
end

