-- ==== Sys2Proof/Machine/Step.lean ====
section
/-! DEFINITION. One step of the machine: the next host access takes effect (20_memory.md R85, R89). -/

namespace Sys2Proof.Machine

/-- A `CMD` write of word `w`: the host's position advances by one, and the command is executed; a word that is no command
is illegal (10_state.md R31, R33; 60_exceptions.md R331). -/
def command (w : Word) (s : State) : Host.Outcome State Fault Refusal :=
  match decode w with
  | .ok i => exec i s.advance
  | .error _ => .next s.advance.raiseIllegal

/-- One access to a defined register (20_memory.md R86). -/
def accessStep (r : HostReg) (k : AccessKind) (s : State) : Host.Outcome State Fault Refusal :=
  match k, r with
  | .write w, .cmd => command w s
  | .write w, r => .next (s.hostWrites r w)
  | .read, r => .next (s.hostReads r)

/-- One event from outside the block (log 3, log 5). -/
def eventStep (ev : HostEvent) (s : State) : Host.Outcome State Fault Refusal :=
  match ev with
  | .powerOn => .next s.powerCycle
  | .concurrent _ _ => .refused .concurrentAccess
  | .access a =>
    match accessReg s.cfg a with
    | some r => accessStep r a.kind s
    | none => .refused .undefinedAccess

/-- One step: the oldest waiting event. With none waiting the block holds its state (60_exceptions.md R350). A configuration
that violates R13 is not a block (R341). -/
def step (s : State) : Host.Outcome State Fault Refusal :=
  if s.cfg.valid then
    match s.pending with
    | [] => .next s
    | ev :: rest => eventStep ev { s with pending := rest }
  else .refused .invalidConfiguration

/-- `s` with the host about to write the command word of an opcode-table row's bits to `CMD` (log 3). -/
def State.withFetchWord (s : State) (nbits w : Nat) : State :=
  { s with pending := memWrite s.cfg .cmd (tableWord nbits w) :: s.pending }

end Sys2Proof.Machine
end

