-- ==== Sys2Proof/Machine/Assembler.lean ====
section
/-! DEFINITION. The assembler of the command set: the host accesses of a command (30_encoding.md R114), the
pseudo-instructions (R115), the text syntax (R113) and the listing form (R114). Nothing of it is hardware: it gives the
accesses a host makes, which `step` takes. -/

namespace Sys2Proof.Machine

/-- Whether the `V` column of R103 is `V`. -/
def usesValue : Instr → Bool
  | .efxProc _ | .efxSetp _ _ | .chProc => true
  | .envSeta _ | .envSetd _ | .envSeth _ | .envSets _ | .envSetr _ => true
  | .smTgt _ | .smFact _ | .smRst _ | .smClose _ => true
  | .nop | .efxRst _ | .efxName _ | .chAdd _ | .chRem _ | .chRstall | .chCount => false
  | .envTrig _ | .envRel _ | .envProc _ | .envActive _ | .smProc _ => false

/-- A command with the value it is given; the value counts only where `usesValue` says so. -/
abbrev AsmLine := Instr × F32

/-- The host accesses of a line (R114): the `DATA` write, where the command uses a value, then the `CMD` write. -/
def lineEvents (c : Cfg) (l : AsmLine) : List HostEvent :=
  if usesValue l.1 then [memWrite c .data l.2, memWrite c .cmd (encode l.1)] else [memWrite c .cmd (encode l.1)]

/-- The host accesses of a list of lines, in order. -/
def programEvents (c : Cfg) (ls : List AsmLine) : List HostEvent := ls.flatMap (lineEvents c)

/-- The pseudo-instructions (R115). -/
inductive Pseudo where
  | envSet (idx : Nat) (a d h s r : F32)
  | chSetp (idx : Nat) (name : ParamName) (v : F32)
  | fltCfg (idx : Nat) (t c q : F32)
  | dlyCfg (idx : Nat) (t fb m : F32)
  | dstCfg (idx : Nat) (t dr m g b : F32)
  | smInit (idx : Nat) (v f : F32)
deriving DecidableEq, Repr

/-- The expansion of a pseudo-instruction (R115). -/
def Pseudo.expand : Pseudo → List AsmLine
  | .envSet i a d h s r => [(.envSeta i, a), (.envSetd i, d), (.envSeth i, h), (.envSets i, s), (.envSetr i, r)]
  | .chSetp i name v => [(.efxSetp i name, v)]
  | .fltCfg i t c q => [(.efxSetp i .type, t), (.efxSetp i .cutoff, c), (.efxSetp i .resonance, q)]
  | .dlyCfg i t fb m => [(.efxSetp i .time, t), (.efxSetp i .feedback, fb), (.efxSetp i .mix, m)]
  | .dstCfg i t dr m g b =>
    [(.efxSetp i .type, t), (.efxSetp i .drive, dr), (.efxSetp i .mix, m), (.efxSetp i .outputGain, g),
     (.efxSetp i .bitDepth, b)]
  | .smInit i v f => [(.smRst i, v), (.smFact i, f)]

/-! ## Text (R113; log 16) -/

/-- A digit's value in bases up to 16. -/
def digitVal (ch : Char) : Option Nat :=
  if '0' ≤ ch ∧ ch ≤ '9' then some (ch.toNat - 48)
  else if 'a' ≤ ch ∧ ch ≤ 'f' then some (ch.toNat - 87)
  else if 'A' ≤ ch ∧ ch ≤ 'F' then some (ch.toNat - 55)
  else none

/-- The number the digits of a base denote after `acc`; `none` at a character that is no digit of the base. -/
def digitsFrom (base acc : Nat) : List Char → Option Nat
  | [] => some acc
  | ch :: cs =>
    match digitVal ch with
    | some d => if d < base then digitsFrom base (acc * base + d) cs else none
    | none => none

/-- A non-empty run of digits of a base. -/
def parseDigits (base : Nat) (cs : List Char) : Option Nat := if cs = [] then none else digitsFrom base 0 cs

/-- A decimal integer, or a hexadecimal one after `0x`. -/
def parseInteger : List Char → Option Nat
  | '0' :: 'x' :: cs => parseDigits 16 cs
  | cs => parseDigits 10 cs

/-- `idx`: an integer 0 to 255 (R113). -/
def parseIdx (cs : List Char) : Option Nat :=
  match parseInteger cs with
  | some n => if n < 256 then some n else none
  | none => none

/-- The selector of `EFX.SETP`: a name of R104, or `#n` for the raw id `n` (R113). -/
def parseSelector (cs : List Char) : Option ParamName :=
  match cs with
  | '#' :: n => (parseIdx n).map ParamName.ofId
  | _ =>
    if cs = "cutoff".toList then some .cutoff
    else if cs = "resonance".toList then some .resonance
    else if cs = "type".toList then some .type
    else if cs = "time".toList then some .time
    else if cs = "feedback".toList then some .feedback
    else if cs = "mix".toList then some .mix
    else if cs = "drive".toList then some .drive
    else if cs = "output_gain".toList then some .outputGain
    else if cs = "bit_depth".toList then some .bitDepth
    else none

/-- The kind of `CH.ADD` (R113). -/
def parseKind (cs : List Char) : Option KindCode :=
  if cs = "filter".toList then some .filter
  else if cs = "delay".toList then some .delay
  else if cs = "distortion".toList then some .distortion
  else none

/-- The part of a list before the first `sep`, and the part after it if there is one. -/
def splitFirst (sep : Char) : List Char → List Char × Option (List Char)
  | [] => ([], none)
  | ch :: cs => if ch = sep then ([], some cs) else (ch :: (splitFirst sep cs).1, (splitFirst sep cs).2)

/-- The parts of a list between the separators. -/
def splitAll (sep : Char) : List Char → List (List Char)
  | [] => [[]]
  | ch :: cs =>
    match splitAll sep cs with
    | [] => [[ch]]
    | p :: ps => if ch = sep then [] :: p :: ps else (ch :: p) :: ps

/-- A signed decimal exponent. -/
def parseExponent : List Char → Option Int
  | '-' :: cs => (parseDigits 10 cs).map fun n => -(n : Int)
  | '+' :: cs => (parseDigits 10 cs).map fun n => (n : Int)
  | cs => (parseDigits 10 cs).map fun n => (n : Int)

/-- The binary32 nearest `n * 10^e`, ties to even (R113, 00_scope.md R18). -/
def decimalValue (neg : Bool) (n : Nat) (e : Int) : F32 :=
  if 0 ≤ e then F32.roundQ neg (F32.oneUnits * (n * 10 ^ e.toNat)) 1
  else F32.roundQ neg (F32.oneUnits * n) (10 ^ (-e).toNat)

/-- An unsigned decimal literal: digits, then a fraction and an exponent where given. -/
def parseDecimal (neg : Bool) (cs : List Char) : Option F32 :=
  let m := splitFirst 'e' cs
  let p := splitFirst '.' m.1
  let e : Option Int := match m.2 with
    | some x => parseExponent x
    | none => some 0
  let whole := parseDigits 10 p.1
  let scaled : Option (Nat × Nat) := match p.2 with
    | some f =>
      match whole, parseDigits 10 f with
      | some w, some x => some (w * 10 ^ f.length + x, f.length)
      | _, _ => none
    | none => whole.map fun w => (w, 0)
  match scaled, e with
  | some (n, k), some e => some (decimalValue neg n (e - k))
  | _, _ => none

/-- `value`: a decimal literal, `w:0xHHHHHHHH`, `nan`, `inf` or `-inf` (R113). -/
def parseValue (cs : List Char) : Option F32 :=
  if cs = "nan".toList then some F32.qNaN
  else if cs = "inf".toList then some (F32.inf false)
  else if cs = "-inf".toList then some (F32.inf true)
  else
    match cs with
    | 'w' :: ':' :: '0' :: 'x' :: h =>
      if h.length = 8 then (parseDigits 16 h).map fun n => BitVec.ofNat 32 n else none
    | '-' :: cs => parseDecimal true cs
    | cs => parseDecimal false cs

/-- The operands a mnemonic takes, in the order of R113. -/
inductive AsmForm where
  | none (i : Instr)
  | idx (mk : Nat → Instr)
  | idxValue (mk : Nat → Instr)
  | value (i : Instr)
  | kind
  | setp

/-- The mnemonics of R103 with their operands. -/
def mnemonicForms : List (String × AsmForm) :=
  [("NOP", .none .nop), ("EFX.PROC", .idxValue .efxProc), ("EFX.RST", .idx .efxRst), ("EFX.SETP", .setp),
   ("EFX.NAME", .idx .efxName), ("CH.ADD", .kind), ("CH.REM", .idx .chRem), ("CH.PROC", .value .chProc),
   ("CH.RSTALL", .none .chRstall), ("CH.COUNT", .none .chCount), ("ENV.SETA", .idxValue .envSeta),
   ("ENV.SETD", .idxValue .envSetd), ("ENV.SETH", .idxValue .envSeth), ("ENV.SETS", .idxValue .envSets),
   ("ENV.SETR", .idxValue .envSetr), ("ENV.TRIG", .idx .envTrig), ("ENV.REL", .idx .envRel),
   ("ENV.PROC", .idx .envProc), ("ENV.ACTIVE", .idx .envActive), ("SM.TGT", .idxValue .smTgt),
   ("SM.FACT", .idxValue .smFact), ("SM.PROC", .idx .smProc), ("SM.RST", .idxValue .smRst),
   ("SM.CLOSE", .idxValue .smClose)]

/-- A command from its operands; a command without a value gets `0.0`, which `lineEvents` does not use. -/
def AsmForm.read (ops : List (List Char)) : AsmForm → Option AsmLine
  | .none i => if ops = [] then some (i, F32.c0) else Option.none
  | .idx mk => match ops with
    | [a] => (parseIdx a).map fun i => (mk i, F32.c0)
    | _ => Option.none
  | .idxValue mk => match ops with
    | [a, v] => (parseIdx a).bind fun i => (parseValue v).map fun v => (mk i, v)
    | _ => Option.none
  | .value i => match ops with
    | [v] => (parseValue v).map fun v => (i, v)
    | _ => Option.none
  | .kind => match ops with
    | [k] => (parseKind k).map fun k => (.chAdd k, F32.c0)
    | _ => Option.none
  | .setp => match ops with
    | [a, n, v] =>
      (parseIdx a).bind fun i => (parseSelector n).bind fun n => (parseValue v).map fun v => (.efxSetp i n, v)
    | _ => Option.none

/-- Every value of a list, or none. -/
def parseValues : List (List Char) → Option (List F32)
  | [] => some []
  | v :: vs => (parseValue v).bind fun x => (parseValues vs).map fun xs => x :: xs

/-- A pseudo-instruction from its mnemonic and operands (R115). -/
def parsePseudo (m : List Char) (ops : List (List Char)) : Option Pseudo :=
  match ops with
  | [] => none
  | a :: rest =>
    match parseIdx a with
    | none => none
    | some i =>
      if m = "CH.SETP".toList then
        match rest with
        | [n, v] => (parseSelector n).bind fun n => (parseValue v).map fun v => .chSetp i n v
        | _ => none
      else
        match parseValues rest with
        | some [a, d, h, s, r] =>
          if m = "ENV.SET".toList then some (.envSet i a d h s r)
          else if m = "DST.CFG".toList then some (.dstCfg i a d h s r)
          else none
        | some [t, c, q] =>
          if m = "FLT.CFG".toList then some (.fltCfg i t c q)
          else if m = "DLY.CFG".toList then some (.dlyCfg i t c q)
          else none
        | some [v, f] => if m = "SM.INIT".toList then some (.smInit i v f) else none
        | _ => none

/-- A list without its leading and trailing spaces. -/
def trimSpaces (cs : List Char) : List Char :=
  ((cs.dropWhile (· == ' ')).reverse.dropWhile (· == ' ')).reverse

/-- One assembly line `MNEMONIC [idx] [, selector] [, value]` or pseudo-instruction, as the commands it stands for;
`none` where it is neither (R113, R115). -/
def assembleText (line : String) : Option (List AsmLine) :=
  let p := splitFirst ' ' (trimSpaces line.toList)
  let ops := match p.2 with
    | some rest => (splitAll ',' rest).map trimSpaces
    | none => []
  match mnemonicForms.find? (fun f => f.1.toList == p.1) with
  | some f => (f.2.read ops).map fun l => [l]
  | none => (parsePseudo p.1 ops).map Pseudo.expand

/-- One hexadecimal digit, in capitals. -/
def hexDigit (n : Nat) : Char := if n < 10 then Char.ofNat (48 + n) else Char.ofNat (55 + n)

/-- A word as `0xHHHHHHHH`. -/
def hexWord (w : Word) : List Char :=
  "0x".toList ++ ([28, 24, 20, 16, 12, 8, 4, 0].map fun lo => hexDigit (w.toNat / 2 ^ lo % 16))

/-- The listing form of a line (R114). -/
def listing (l : AsmLine) : List Char :=
  (if usesValue l.1 then "DATA=".toList ++ hexWord l.2 ++ [' '] else []) ++ "CMD=".toList ++ hexWord (encode l.1)

end Sys2Proof.Machine
end

