-- ==== Sys2Proof/Safety.lean ====
section
/-! DEFINITION. What a good state is: the ranges and relations the spec says the fields keep (10_state.md), as an invariant
for the claims to use. -/

namespace Sys2Proof.F32

/-- NaN, or between the bounds: what `CLAMP` leaves (00_scope.md R19). -/
def inRange (v lo hi : F32) : Bool := isNaN v || (le lo v && le v hi)

/-- NaN, or at least the floor: what `FLOOR_AT` leaves (R19). -/
def atLeast (v lo : F32) : Bool := isNaN v || le lo v

/-- A bound the time in a stage keeps: at `2^20` seconds a tick, which is less than half the spacing of binary32 there,
rounds away (log 17, DEDUCED from 44_envelope.md R275, R276 and the bound of 00_scope.md R13 on `SR`). -/
def stageTimeMax : F32 := pow2 20

/-- A number of `[0, 1]`. -/
def inUnit (v : F32) : Bool := le c0 v && le v c1

end Sys2Proof.F32

namespace Sys2Proof.Machine

/-- Filter invariant (10_state.md R40): the coefficients are those of the current parameters; the parameters are in range
(40_filter.md R145). -/
structure Filter.Inv (c : Cfg) (f : Filter) : Prop where
  coeffs : f.coeffs = coeffsFor c f.type f.cutoff f.resonance
  cutoff : F32.inRange f.cutoff F32.c20 c.cutoffMax = true
  resonance : F32.inRange f.resonance F32.c0p1 F32.c20 = true

/-- Delay invariant (R41, R42): `d < len`, `wp < len`, `len <= DELAY_CAP`; the buffer is in canonical form (log 7) and
inside `[0, len)`; the parameters are in range. -/
structure Delay.Inv (c : Cfg) (d : Delay) : Prop where
  d_lt : d.d < d.len
  wp_lt : d.wp < d.len
  len_le : d.len ≤ c.DELAY_CAP
  wf : d.buf.wf = true
  within : d.buf.within d.len = true
  feedback : F32.inRange d.feedback F32.c0 F32.c0p99 = true
  mix : F32.inRange d.mix F32.c0 F32.c1 = true

/-- Distortion ranges (R43). -/
structure Distortion.Inv (z : Distortion) : Prop where
  drive : F32.inRange z.drive F32.c1 F32.c100 = true
  mix : F32.inRange z.mix F32.c0 F32.c1 = true
  outputGain : F32.inRange z.outputGain F32.c0 F32.c1 = true
  bitDepth : 1 ≤ z.bitDepth ∧ z.bitDepth ≤ 16

/-- The invariant of the effect in a slot, by its kind (R38). -/
def Effect.Inv (c : Cfg) : Effect → Prop
  | .filter f => f.Inv c
  | .delay d => d.Inv c
  | .distortion z => z.Inv

/-- Envelope ranges (R44); the time in a stage is a number from 0 to `F32.stageTimeMax`, the model's own clause (log 17). -/
structure Envelope.Inv (e : Envelope) : Prop where
  attack : F32.atLeast e.attack F32.c0p001 = true
  decay : F32.atLeast e.decay F32.c0p001 = true
  hold : F32.atLeast e.hold F32.c0 = true
  sustain : F32.inRange e.sustain F32.c0 F32.c1 = true
  release : F32.atLeast e.release F32.c0p001 = true
  stageTime : F32.le F32.c0 e.stageTime = true
  stageTimeMax : F32.le e.stageTime F32.stageTimeMax = true

/-- Smoother range (R46). -/
def Smoother.Inv (x : Smoother) : Prop := F32.inRange x.factor F32.c0 F32.c1 = true

/-- The invariant of the block: a valid configuration (00_scope.md R13), one of the three `STATUS` words (60_exceptions.md
R335), at most `CHAIN_CAP` effects (10_state.md R37), as many envelopes and smoothers as configured (R44, R46), and every
unit in its own invariant. -/
structure State.Inv (s : State) : Prop where
  cfg : s.cfg.valid = true
  status : s.status = statusOk ∨ s.status = statusIll ∨ s.status = statusCap
  count : s.count ≤ s.cfg.CHAIN_CAP
  chain : ∀ e ∈ s.chain, e.Inv s.cfg
  envCount : s.envs.length = s.cfg.N_ENV
  envs : ∀ e ∈ s.envs, e.Inv
  smCount : s.sms.length = s.cfg.N_SM
  sms : ∀ x ∈ s.sms, x.Inv

/-- Bound hypothesis `EXP_UNIT` (44_envelope.md R285): `EXP32` of a number at most zero is in `[0, 1]`. -/
def ExpUnit (c : Cfg) : Prop := ∀ z : F32, F32.le z F32.c0 = true → F32.inUnit (c.EXP32 z) = true

/-- What R285 needs of an envelope and keeps: no parameter is NaN, and the two levels are in `[0, 1]`. -/
structure Envelope.Bounded (e : Envelope) : Prop where
  attack : F32.isNaN e.attack = false
  decay : F32.isNaN e.decay = false
  hold : F32.isNaN e.hold = false
  sustain : F32.isNaN e.sustain = false
  release : F32.isNaN e.release = false
  level : F32.inUnit e.level = true
  startLevel : F32.inUnit e.startLevel = true

/-- The unit a command acts on alone: a slot, an envelope or a smoother (43_chain.md R255, 44_envelope.md R288,
45_smoother.md R316); `none` for the chain's own commands and `NOP`. -/
inductive UnitRef where
  | slot (idx : Nat)
  | env (idx : Nat)
  | sm (idx : Nat)
deriving DecidableEq, Repr

/-- The unit of a command. -/
def unitOf : Instr → Option UnitRef
  | .efxProc idx | .efxRst idx | .efxSetp idx _ | .efxName idx => some (.slot idx)
  | .envSeta idx | .envSetd idx | .envSeth idx | .envSets idx | .envSetr idx => some (.env idx)
  | .envTrig idx | .envRel idx | .envProc idx | .envActive idx => some (.env idx)
  | .smTgt idx | .smFact idx | .smProc idx | .smRst idx | .smClose idx => some (.sm idx)
  | .nop | .chAdd _ | .chRem _ | .chProc | .chRstall | .chCount => none

end Sys2Proof.Machine
end

