-- ==== Sys2Proof/Certificates/Slice0/Obligations.lean ====
section
/-! DEFINITION. The statements about the machine, from the numbered rules of spec/. `s.data` is the operand `V`
(30_encoding.md R101). An equation `exec i s = .next { s with … }` says the whole frame: every field it does not name is
unchanged. -/

open Sys2Proof Sys2Proof.Machine

/-! ## Auxiliary notions of the statements -/

/-- The decode procedure of 30_encoding.md R111, on the bits of the word. -/
def Sys2Proof.Claim.legalWord (w : Word) (count : Nat) (c : Cfg) : Prop :=
  let op := (w.extractLsb' 24 8).toNat
  let idx := (w.extractLsb' 16 8).toNat
  let sel := (w.extractLsb' 8 8).toNat
  (w.extractLsb' 0 8).toNat = 0 ∧
    ((op = 0x00 ∧ idx = 0 ∧ sel = 0) ∨
     ((op = 0x10 ∨ op = 0x11 ∨ op = 0x13) ∧ sel = 0 ∧ idx < count) ∨
     op = 0x12 ∨
     (op = 0x20 ∧ idx = 0 ∧ (sel = 1 ∨ sel = 2 ∨ sel = 3)) ∨
     (op = 0x21 ∧ sel = 0) ∨
     ((op = 0x22 ∨ op = 0x23 ∨ op = 0x24) ∧ idx = 0 ∧ sel = 0) ∨
     (0x30 ≤ op ∧ op ≤ 0x38 ∧ sel = 0 ∧ idx < c.N_ENV) ∨
     (0x40 ≤ op ∧ op ≤ 0x44 ∧ sel = 0 ∧ idx < c.N_SM))

/-- `r` is, of all finite binary32 values, one nearest to `n / d` units, and has an even significand where another value is
as near (00_scope.md R18: round to nearest, ties to even). -/
def Sys2Proof.Claim.nearestEven (r : F32) (n d : Int) : Prop :=
  ∀ v : F32, F32.isFinite v = true →
    |F32.val r * d - n| ≤ |F32.val v * d - n| ∧
    (|F32.val r * d - n| = |F32.val v * d - n| → F32.val v = F32.val r ∨ F32.mag r % 2 = 0)

/-- `r` is `n / d` units rounded: below the overflow bound a nearest value, from it on an infinity (R18; the bound is the
midpoint of the largest finite value and the next power of two). -/
def Sys2Proof.Claim.roundsTo (r : F32) (n d : Int) : Prop :=
  (|n| < (2 ^ 277 - 2 ^ 252) * |d| → F32.isFinite r = true ∧ Sys2Proof.Claim.nearestEven r n d) ∧
  ((2 ^ 277 - 2 ^ 252) * |d| ≤ |n| → F32.isInf r = true)

/-- The outputs of a Filter fed a list of samples. -/
def Sys2Proof.Claim.filterOutputs : Filter → List F32 → List F32
  | _, [] => []
  | f, x :: xs => (f.step x).2 :: Sys2Proof.Claim.filterOutputs (f.step x).1 xs

/-- A Delay after a list of samples. -/
def Sys2Proof.Claim.delayAfter (d : Delay) (xs : List F32) : Delay := xs.foldl (fun e x => (e.step x).1) d

/-! ## Encoding -/

/-- Decoding the word of a command gives the command back: no bit of an encoding is dropped (R101 to R105). -/
def Obligations.DecodeOfEncode : Prop := ∀ i : Instr, i.wf = true → decode (encode i) = .ok i

/-- A word that decodes is the word of the command it decodes to: each word has at most one meaning (R101 to R105). -/
def Obligations.EncodeOfDecode : Prop := ∀ (w : Word) (i : Instr), decode w = .ok i → i.wf = true ∧ encode i = w

/-- A few words of the spec's own listings decode to the commands they stand for (95_test_vectors.md sections 2.4 to 3). -/
def Obligations.SpecWordsDecode : Prop :=
  decode 0x00000000#32 = .ok .nop ∧ decode 0x12000100#32 = .ok (.efxSetp 0 .cutoff) ∧
  decode 0x20000300#32 = .ok (.chAdd .distortion) ∧ decode 0x21010000#32 = .ok (.chRem 1) ∧
  decode 0x37020000#32 = .ok (.envProc 2) ∧ decode 0x43010000#32 = .ok (.smRst 1) ∧
  decode 0x12FFFF00#32 = .ok (.efxSetp 255 (.other 255)) ∧ decode 0x45000000#32 = .error (.reservedOpcode 0x45)

/-- A command word arrives as four bytes, byte `+0` carrying bits 7:0 and byte `+3` bits 31:24 (R83). -/
def Obligations.CommandBytesAreLittleEndian : Prop :=
  ∀ (w : Word) (rest : List Byte),
    decodeBytes (w.extractLsb' 0 8 :: w.extractLsb' 8 8 :: w.extractLsb' 16 8 :: w.extractLsb' 24 8 :: rest) =
      (decode w).map fun i => (i, rest)

/-- A `CMD` write is illegal exactly where R111 says so, and an illegal one does nothing but `STATUS <- 1`, `RESULT <- 0`
(R108, R111, R331). `pc` is the host's position (R31). -/
def Obligations.IllegalExactlyByDecodeProcedure : Prop :=
  ∀ (s : State) (w : Word), s.envs.length = s.cfg.N_ENV → s.sms.length = s.cfg.N_SM →
    ∃ t, command w s = .next t ∧
      (t.status = 0x00000001#32 ↔ ¬ Claim.legalWord w s.count s.cfg) ∧
      (¬ Claim.legalWord w s.count s.cfg →
        t = { s with pc := s.pc + 1, result := 0x00000000#32, status := 0x00000001#32 })

/-! ## Reset and invariants -/

/-- The values after power-on reset, for every configuration (R50 to R53, R361). -/
def Obligations.PowerOnValues : Prop :=
  ∀ c : Cfg, (State.powerOn c).cfg = c ∧
    (State.powerOn c).data = 0x00000000#32 ∧ (State.powerOn c).result = 0x00000000#32 ∧
    (State.powerOn c).status = 0x00000000#32 ∧ (State.powerOn c).readReg .cmd = 0x00000000#32 ∧
    (State.powerOn c).count = 0 ∧
    (State.powerOn c).envs.length = c.N_ENV ∧ (State.powerOn c).sms.length = c.N_SM ∧
    (∀ e ∈ (State.powerOn c).envs,
      e = { stage := .idle, level := F32.c0, stageTime := F32.c0, startLevel := F32.c0,
            attack := floorTime c.ENV_INIT.attack, decay := floorTime c.ENV_INIT.decay,
            hold := floorHold c.ENV_INIT.hold, sustain := clampSustain c.ENV_INIT.sustain,
            release := floorTime c.ENV_INIT.release }) ∧
    (∀ x ∈ (State.powerOn c).sms,
      x = { current := c.SM_INIT.current, target := c.SM_INIT.target,
            factor := F32.clamp c.SM_INIT.factor F32.c0 F32.c1 })

/-- The machine after reset meets the invariant, and so does power-on reset of every valid configuration. `State.reset` has
the reference configuration (log 1). Two clauses of the invariant are the model's own: the bound on `stage_time` (log 17) and
the canonical form of a Delay's buffer (log 7). -/
def Obligations.ResetMeetsInvariant : Prop :=
  State.reset.Inv ∧ ∀ c : Cfg, c.valid = true → (State.powerOn c).Inv

/-- Every step from a state in the invariant ends in one (R35, R37, R40 to R46, R335), and no step changes the
configuration (R13). Two clauses of the invariant are the model's own and no rule's: `stage_time` is a number from 0 to `2^20`
seconds, which follows from R275, R276 and the bound of R13 on `SR` (log 17, DEDUCED); a Delay's buffer is in canonical form
(log 7, DEDUCED). -/
def Obligations.StepKeepsInvariant : Prop :=
  (∀ s t : State, s.Inv → step s = .next t → t.Inv) ∧ (∀ s t : State, step s = .next t → t.cfg = s.cfg)

/-! ## The step -/

/-- A step whose next host access writes a decodable word to `CMD` runs that command, the host's position advanced
(R31, R33); a word that is no command is the illegal outcome (R331). `pending` is the model's field (log 3). With a `BASE`
that is not word aligned no access is aligned, and `OnlyFourWordsAreAccessible` says that it is refused (R84). -/
def Obligations.StepRunsDecodedCommand : Prop :=
  ∀ (s : State) (w : Word) (rest : List HostEvent),
    s.cfg.valid = true → s.cfg.BASE % 4 = 0 → s.pending = memWrite s.cfg .cmd w :: rest →
      (∀ i, decode w = .ok i → step s = exec i { s with pending := rest, pc := s.pc + 1 }) ∧
      (∀ e, decode w = .error e →
        step s = .next { s with pending := rest, pc := s.pc + 1, result := 0x00000000#32, status := 0x00000001#32 })

/-- Host accesses to registers other than a `CMD` write: `DATA` stores the word, writes of `RESULT` and `STATUS` are
ignored, reads return the register, `CMD` as 0, and change nothing of the block (R86). `hostRead` is the model's field for
the word the host received (log 4). -/
def Obligations.HostRegisterAccesses : Prop :=
  ∀ (s : State) (v : Word) (rest : List HostEvent), s.cfg.valid = true → s.cfg.BASE % 4 = 0 →
    (s.pending = memWrite s.cfg .data v :: rest → step s = .next { s with pending := rest, data := v }) ∧
    (s.pending = memWrite s.cfg .result v :: rest → step s = .next { s with pending := rest }) ∧
    (s.pending = memWrite s.cfg .status v :: rest → step s = .next { s with pending := rest }) ∧
    (s.pending = memRead s.cfg .cmd :: rest → step s = .next { s with pending := rest, hostRead := 0x00000000#32 }) ∧
    (s.pending = memRead s.cfg .data :: rest → step s = .next { s with pending := rest, hostRead := s.data }) ∧
    (s.pending = memRead s.cfg .result :: rest → step s = .next { s with pending := rest, hostRead := s.result }) ∧
    (s.pending = memRead s.cfg .status :: rest → step s = .next { s with pending := rest, hostRead := s.status })

/-- The model takes a step on a naturally aligned 32-bit access to one of the four offsets and no step on any other access
(R80, R84). The alignment is that of the byte address, so with a `BASE` that is not word aligned every access is refused
(log 10). -/
def Obligations.OnlyFourWordsAreAccessible : Prop :=
  ∀ (s : State) (a : HostAccess) (rest : List HostEvent),
    s.cfg.valid = true → s.pending = .access a :: rest →
      if a.bytes = 4 ∧ a.addr % 4 = 0 ∧ (a.addr = s.cfg.BASE + 0x0 ∨ a.addr = s.cfg.BASE + 0x4 ∨ a.addr = s.cfg.BASE + 0x8 ∨
          a.addr = s.cfg.BASE + 0xC)
      then ∃ t, step s = .next t ∧ t.pending = rest
      else step s = .refused .undefinedAccess

/-- Between host accesses the block holds its state (R350); a configuration that is no block and two agents at once are
refused (R341). -/
def Obligations.IdleAndRefusedInputs : Prop :=
  (∀ s : State, s.cfg.valid = true → s.pending = [] → step s = .next s) ∧
  (∀ s : State, s.cfg.valid = false → step s = .refused .invalidConfiguration) ∧
  (∀ (s : State) (a b : HostAccess) (rest : List HostEvent), s.cfg.valid = true →
    s.pending = .concurrent a b :: rest → step s = .refused .concurrentAccess)

/-- Power-on reset as an event puts the block's own state to its reset values and leaves the host's side (R360). That
it is an event of the stream is the model's choice (log 5). -/
def Obligations.PowerOnEventResets : Prop :=
  ∀ (s : State) (rest : List HostEvent), s.cfg.valid = true → s.pending = .powerOn :: rest →
    step s = .next { State.powerOn s.cfg with pending := rest, pc := s.pc, hostRead := s.hostRead }

/-! ## Whole-machine rules over all commands -/

/-- Every command completes, in every state, with one of the three `STATUS` words and `DATA`, the configuration and the
host's side kept (R330, R32, R335). -/
def Obligations.EveryCommandCompletes : Prop :=
  ∀ (i : Instr) (s : State), ∃ t, exec i s = .next t ∧
    (t.status = 0x00000000#32 ∨ t.status = 0x00000001#32 ∨ t.status = 0x00000002#32) ∧
    t.data = s.data ∧ t.cfg = s.cfg ∧ t.pending = s.pending ∧ t.pc = s.pc ∧ t.hostRead = s.hostRead

/-- `STATUS <- 2` is written in exactly two cases; the first has no other effect and returns 0, the second clamps the delay
to the storage and returns 1 (R333). -/
def Obligations.CapacityStatusExactlyTwoCases : Prop :=
  ∀ (i : Instr) (s t : State), exec i s = .next t →
    (t.status = 0x00000002#32 ↔
      ((i = .chAdd .filter ∨ i = .chAdd .delay ∨ i = .chAdd .distortion) ∧ s.count = s.cfg.CHAIN_CAP) ∨
      (∃ idx d, i = .efxSetp idx .time ∧ s.slot idx = some (.delay d) ∧
        s.cfg.DELAY_CAP - 1 < F32.truncSat (F32.mul s.data s.cfg.SR))) ∧
    (∀ k, i = .chAdd k → t.status = 0x00000002#32 →
      t = { s with result := 0x00000000#32, status := 0x00000002#32 }) ∧
    (∀ idx, i = .efxSetp idx .time → t.status = 0x00000002#32 →
      t.result = 0x00000001#32 ∧ ∃ d', t.slot idx = some (.delay d') ∧ d'.d = s.cfg.DELAY_CAP - 1)

/-- A command on one unit changes no other unit: not another slot, envelope or smoother, and not their number
(R255, R288, R316). -/
def Obligations.UnitCommandsChangeOneUnit : Prop :=
  ∀ (i : Instr) (u : UnitRef) (s t : State), unitOf i = some u → exec i s = .next t →
    t.count = s.count ∧ t.envs.length = s.envs.length ∧ t.sms.length = s.sms.length ∧
    (∀ j, u ≠ .slot j → t.chain[j]? = s.chain[j]?) ∧
    (∀ j, u ≠ .env j → t.envs[j]? = s.envs[j]?) ∧
    (∀ j, u ≠ .sm j → t.sms[j]? = s.sms[j]?)

/-- Commands to different units, each with its own `DATA` word, may be issued in either order: every unit ends the same and
each command returns the same `RESULT` and `STATUS` (R370). -/
def Obligations.CommandsOnDifferentUnitsCommute : Prop :=
  ∀ (a b : Instr) (u v : UnitRef) (va vb : Word) (s sa sab sb sba : State),
    unitOf a = some u → unitOf b = some v → u ≠ v →
    exec a { s with data := va } = .next sa → exec b { sa with data := vb } = .next sab →
    exec b { s with data := vb } = .next sb → exec a { sb with data := va } = .next sba →
      sab.chain = sba.chain ∧ sab.envs = sba.envs ∧ sab.sms = sba.sms ∧
      sab.result = sb.result ∧ sab.status = sb.status ∧ sba.result = sa.result ∧ sba.status = sa.status

/-! ## Arithmetic -/

/-- `+`, `-`, `*`, `/` on finite operands return the exact result rounded once, to nearest, ties to even, with the sign
IEEE 754 gives it (R18). The exact results are in units of `2^-149`; only division by zero is left to
`NaNAndInfinityResults`. -/
def Obligations.ArithmeticRoundsToNearestEven : Prop :=
  ∀ a b : F32, F32.isFinite a = true → F32.isFinite b = true →
    (Claim.roundsTo (F32.add a b) (F32.val a + F32.val b) 1 ∧
      F32.sign (F32.add a b) = if F32.val a + F32.val b = 0 then F32.sign a && F32.sign b
        else decide (F32.val a + F32.val b < 0)) ∧
    (Claim.roundsTo (F32.sub a b) (F32.val a - F32.val b) 1 ∧
      F32.sign (F32.sub a b) = if F32.val a - F32.val b = 0 then F32.sign a && !F32.sign b
        else decide (F32.val a - F32.val b < 0)) ∧
    (Claim.roundsTo (F32.mul a b) (F32.val a * F32.val b) (2 ^ 149) ∧
      F32.sign (F32.mul a b) = (F32.sign a != F32.sign b)) ∧
    (F32.isZero b = false →
      Claim.roundsTo (F32.div a b) (F32.val a * 2 ^ 149) (F32.val b) ∧
      F32.sign (F32.div a b) = (F32.sign a != F32.sign b))

/-- The operations where an operand is NaN, an infinity or a zero divisor, and the comparisons: an arithmetic NaN is
`0x7FC00000`, comparisons with NaN are false, finite values compare as their values do (so `-0.0` equals `+0.0`), an infinity
lies beyond every other number; negation and `|a|` only change the sign bit, of a NaN too (R18). -/
def Obligations.NaNAndInfinityResults : Prop :=
  ∀ a b : F32,
    (F32.isNaN a = true ∨ F32.isNaN b = true →
      F32.add a b = 0x7FC00000#32 ∧ F32.sub a b = 0x7FC00000#32 ∧ F32.mul a b = 0x7FC00000#32 ∧
      F32.div a b = 0x7FC00000#32 ∧ F32.lt a b = false ∧ F32.le a b = false) ∧
    (F32.isInf a = true → F32.isNaN b = false →
      F32.add a b = (if F32.isInf b = true ∧ F32.sign a ≠ F32.sign b then 0x7FC00000#32 else a) ∧
      F32.sub a b = (if F32.isInf b = true ∧ F32.sign a = F32.sign b then 0x7FC00000#32 else a) ∧
      F32.mul a b = (if F32.isZero b = true then 0x7FC00000#32
        else if F32.sign a = F32.sign b then 0x7F800000#32 else 0xFF800000#32) ∧
      F32.div a b = (if F32.isInf b = true then 0x7FC00000#32
        else if F32.sign a = F32.sign b then 0x7F800000#32 else 0xFF800000#32)) ∧
    (F32.isFinite a = true → F32.isInf b = true →
      F32.add a b = b ∧ F32.sub a b = F32.neg b ∧
      F32.mul a b = (if F32.isZero a = true then 0x7FC00000#32
        else if F32.sign a = F32.sign b then 0x7F800000#32 else 0xFF800000#32) ∧
      F32.div a b = (if F32.sign a = F32.sign b then 0x00000000#32 else 0x80000000#32)) ∧
    (F32.isFinite a = true → F32.isZero b = true →
      F32.div a b = (if F32.isZero a = true then 0x7FC00000#32
        else if F32.sign a = F32.sign b then 0x7F800000#32 else 0xFF800000#32)) ∧
    (F32.isFinite a = true → F32.isFinite b = true →
      (F32.lt a b = true ↔ F32.val a < F32.val b) ∧ (F32.le a b = true ↔ F32.val a ≤ F32.val b)) ∧
    (F32.isInf a = true → F32.isNaN b = false →
      (F32.lt a b = true ↔ F32.sign a = true ∧ b ≠ a) ∧ (F32.le a b = true ↔ F32.sign a = true ∨ b = a) ∧
      (F32.lt b a = true ↔ F32.sign a = false ∧ b ≠ a) ∧ (F32.le b a = true ↔ F32.sign a = false ∨ b = a)) ∧
    (F32.isZero a = true → F32.isZero b = true →
      F32.lt a b = false ∧ F32.le a b = true ∧ F32.eq a b = true) ∧
    F32.gt a b = F32.lt b a ∧ F32.ge a b = F32.le b a ∧ F32.eq a b = (F32.le a b && F32.le b a) ∧
    F32.neg a = a ^^^ 0x80000000#32 ∧ F32.abs a = a &&& 0x7FFFFFFF#32

/-- `TRUNC_SAT` is 0 on NaN and on values at most 0, `2^32 - 1` from `2^32` on, and the integer part between; `TRUNC_INT` is
0 on NaN and infinities and truncates toward zero otherwise, unbounded. `CLAMP` gives the low bound below it, else the high
bound above it, else the operand's own bits, a NaN's too; `FLOOR_AT` likewise with its one bound (R19). `pow2 n`, the bound
`2^32` of `TRUNC_SAT` and the scale of R217, is exactly `2^n` (`2^(149 + n)` units). -/
def Obligations.TruncatingConversions : Prop :=
  ∀ v : F32,
    (F32.isNaN v = true ∨ F32.le v F32.c0 = true → F32.truncSat v = 0) ∧
    (F32.le (F32.pow2 32) v = true → F32.truncSat v = 2 ^ 32 - 1) ∧
    (F32.lt F32.c0 v = true → F32.lt v (F32.pow2 32) = true →
      (F32.truncSat v : Int) * 2 ^ 149 ≤ F32.val v ∧ F32.val v < ((F32.truncSat v : Int) + 1) * 2 ^ 149) ∧
    F32.truncSat v ≤ 2 ^ 32 - 1 ∧
    (F32.isNaN v = true ∨ F32.isInf v = true → F32.truncInt v = 0) ∧
    (F32.isFinite v = true → |F32.truncInt v * 2 ^ 149| ≤ |F32.val v| ∧ |F32.val v| < (|F32.truncInt v| + 1) * 2 ^ 149 ∧
      (0 ≤ F32.val v → 0 ≤ F32.truncInt v) ∧ (F32.val v ≤ 0 → F32.truncInt v ≤ 0)) ∧
    (∀ lo hi : F32,
      (F32.lt v lo = true → F32.clamp v lo hi = lo ∧ F32.floorAt v lo = lo) ∧
      (F32.lt v lo = false → F32.floorAt v lo = v) ∧
      (F32.lt v lo = false → F32.lt hi v = true → F32.clamp v lo hi = hi) ∧
      (F32.lt v lo = false → F32.lt hi v = false → F32.clamp v lo hi = v) ∧
      (F32.isNaN v = true → F32.clamp v lo hi = v ∧ F32.floorAt v lo = v)) ∧
    (∀ n, n ≤ 127 → F32.isFinite (F32.pow2 n) = true ∧ F32.val (F32.pow2 n) = 2 ^ (149 + n))

/-- `ROUND_HAFZ` of a finite value is an integer at most a half away, and at exactly a half it is the one away from zero;
NaN, infinities and zeros are returned unchanged, the sign kept (R19). -/
def Obligations.RoundHafzIsNearestInteger : Prop :=
  ∀ v : F32,
    (F32.isFinite v = true →
      F32.isFinite (F32.roundHafz v) = true ∧ (2 ^ 149 : Int) ∣ F32.val (F32.roundHafz v) ∧
      2 * |F32.val (F32.roundHafz v) - F32.val v| ≤ 2 ^ 149 ∧
      (2 * |F32.val (F32.roundHafz v) - F32.val v| = 2 ^ 149 → |F32.val v| < |F32.val (F32.roundHafz v)|)) ∧
    (F32.isNaN v = true ∨ F32.isInf v = true ∨ F32.isZero v = true → F32.roundHafz v = v)

/-- The type codes: truncation toward zero, then 0 to 3 for a Filter and 0 to 4 for a Distortion, any other code the
default (R141, R211). -/
def Obligations.TypeCodeConversions : Prop :=
  ∀ v : F32,
    (F32.truncInt v = 0 → ftype v = .lowPass ∧ dtype v = .soft) ∧
    (F32.truncInt v = 1 → ftype v = .highPass ∧ dtype v = .hard) ∧
    (F32.truncInt v = 2 → ftype v = .bandPass ∧ dtype v = .foldback) ∧
    (F32.truncInt v = 3 → ftype v = .notch ∧ dtype v = .sine) ∧
    (F32.truncInt v = 4 → ftype v = .lowPass ∧ dtype v = .bitcrush) ∧
    (F32.truncInt v < 0 ∨ 4 < F32.truncInt v → ftype v = .lowPass ∧ dtype v = .soft) ∧
    (F32.isNaN v = true ∨ F32.isInf v = true → ftype v = .lowPass ∧ dtype v = .soft)

/-! ## Filter -/

/-- `EFX.PROC` on a Filter: direct form I, each operation rounded, left to right, and the history shifts (R150). -/
def Obligations.FilterProcess : Prop :=
  ∀ (s : State) (idx : Nat) (f : Filter), s.slot idx = some (.filter f) →
    ∀ y, y = F32.sub (F32.sub (F32.add (F32.add (F32.mul f.coeffs.A0 s.data) (F32.mul f.coeffs.A1 f.x1))
        (F32.mul f.coeffs.A2 f.x2)) (F32.mul f.coeffs.B1 f.y1)) (F32.mul f.coeffs.B2 f.y2) →
      exec (.efxProc idx) s =
        .next { s with
          chain := s.chain.set idx (.filter { f with x1 := s.data, x2 := f.x1, y1 := y, y2 := f.y1 }),
          result := y, status := 0x00000000#32 }

/-- `EFX.SETP` on a Filter: the clamped parameter and recomputed coefficients, the history kept; any other name returns
false and writes nothing (R146 to R149). -/
def Obligations.FilterSetters : Prop :=
  ∀ (s : State) (idx : Nat) (f : Filter), s.slot idx = some (.filter f) →
    (∀ v, v = F32.clamp s.data F32.c20 (F32.mul F32.c0p49 s.cfg.SR) →
      exec (.efxSetp idx .cutoff) s =
        .next { s with
          chain := s.chain.set idx (.filter { f with cutoff := v, coeffs := coeffsFor s.cfg f.type v f.resonance }),
          result := 0x00000001#32, status := 0x00000000#32 }) ∧
    (∀ v, v = F32.clamp s.data F32.c0p1 F32.c20 →
      exec (.efxSetp idx .resonance) s =
        .next { s with
          chain := s.chain.set idx (.filter { f with resonance := v, coeffs := coeffsFor s.cfg f.type f.cutoff v }),
          result := 0x00000001#32, status := 0x00000000#32 }) ∧
    exec (.efxSetp idx .type) s =
        .next { s with
          chain := s.chain.set idx
            (.filter { f with type := ftype s.data, coeffs := coeffsFor s.cfg (ftype s.data) f.cutoff f.resonance }),
          result := 0x00000001#32, status := 0x00000000#32 } ∧
    (∀ name, name ≠ .cutoff → name ≠ .resonance → name ≠ .type →
      exec (.efxSetp idx name) s = .next { s with result := 0x00000000#32, status := 0x00000000#32 })

/-- The coefficients of every type, cutoff and resonance in every configuration: `w`, its sine and cosine, `alpha`, and the
five divisions by `1.0 + alpha` (R142, R143); and the coefficient table of 95_test_vectors.md section 2.1, from the sine and
cosine it gives. -/
def Obligations.FilterCoefficientVectors : Prop :=
  (∀ (c : Cfg) (t : FilterType) (cutoff resonance w sw cw alpha a0 b0 b1 b2 : F32),
    w = F32.div (F32.mul (F32.mul 0x40000000#32 0x40490FDB#32) cutoff) c.SR →
    sw = c.SIN32 w → cw = c.COS32 w → alpha = F32.div sw (F32.mul 0x40000000#32 resonance) →
    a0 = F32.add 0x3F800000#32 alpha →
    (b0, b1, b2) = (match t, c.BP_VARIANT with
      | .lowPass, _ =>
        (F32.div (F32.sub 0x3F800000#32 cw) 0x40000000#32, F32.sub 0x3F800000#32 cw,
         F32.div (F32.sub 0x3F800000#32 cw) 0x40000000#32)
      | .highPass, _ =>
        (F32.div (F32.add 0x3F800000#32 cw) 0x40000000#32, F32.neg (F32.add 0x3F800000#32 cw),
         F32.div (F32.add 0x3F800000#32 cw) 0x40000000#32)
      | .bandPass, .peak0dB => (alpha, 0x00000000#32, F32.neg alpha)
      | .bandPass, .skirt => (F32.div sw 0x40000000#32, 0x00000000#32, F32.neg (F32.div sw 0x40000000#32))
      | .notch, _ => (0x3F800000#32, F32.mul 0xC0000000#32 cw, 0x3F800000#32)) →
      coeffsFor c t cutoff resonance =
        { A0 := F32.div b0 a0, A1 := F32.div b1 a0, A2 := F32.div b2 a0,
          B1 := F32.div (F32.mul 0xC0000000#32 cw) a0, B2 := F32.div (F32.sub 0x3F800000#32 alpha) a0 }) ∧
  omega Config.reference 0x447A0000#32 = 0x3E060A92#32 ∧
  alphaOf 0x3E05A8A9#32 0x3F3504F3#32 = 0x3DBD05AA#32 ∧
  coeffsOf .peak0dB .lowPass 0x3F3504F3#32 0x3E05A8A9#32 0x3F7DCF55#32 =
    ⟨0x3B8052C2#32, 0x3C0052C2#32, 0x3B8052C2#32, 0xBFE85D18#32, 0x3F54BCC8#32⟩ ∧
  coeffsOf .peak0dB .highPass 0x3F3504F3#32 0x3E05A8A9#32 0x3F7DCF55#32 =
    ⟨0x3F695DBD#32, 0xBFE95DBD#32, 0x3F695DBD#32, 0xBFE85D18#32, 0x3F54BCC8#32⟩ ∧
  coeffsOf .peak0dB .bandPass 0x3F3504F3#32 0x3E05A8A9#32 0x3F7DCF55#32 =
    ⟨0x3DAD0CDF#32, 0x00000000#32, 0xBDAD0CDF#32, 0xBFE85D18#32, 0x3F54BCC8#32⟩ ∧
  coeffsOf .skirt .bandPass 0x3F3504F3#32 0x3E05A8A9#32 0x3F7DCF55#32 =
    ⟨0x3D74BAE5#32, 0x00000000#32, 0xBD74BAE5#32, 0xBFE85D18#32, 0x3F54BCC8#32⟩ ∧
  coeffsOf .peak0dB .notch 0x3F3504F3#32 0x3E05A8A9#32 0x3F7DCF55#32 =
    ⟨0x3F6A5E63#32, 0xBFE85D18#32, 0x3F6A5E63#32, 0xBFE85D18#32, 0x3F54BCC8#32⟩

/-- Every type stores the same feedback coefficients, `A0 = A2` for all but the band-pass, where `A2` is `-A0` unless it is
NaN, and the notch has `A1 = B1` (R143). -/
def Obligations.FilterCoefficientSymmetry : Prop :=
  ∀ (c : Cfg) (cut res : F32) (t t' : FilterType),
    (coeffsFor c t cut res).B1 = (coeffsFor c t' cut res).B1 ∧
    (coeffsFor c t cut res).B2 = (coeffsFor c t' cut res).B2 ∧
    (t ≠ .bandPass → (coeffsFor c t cut res).A0 = (coeffsFor c t cut res).A2) ∧
    (coeffsFor c .notch cut res).A1 = (coeffsFor c .notch cut res).B1 ∧
    (F32.isNaN (coeffsFor c .bandPass cut res).A0 = false →
      (coeffsFor c .bandPass cut res).A2 = F32.neg (coeffsFor c .bandPass cut res).A0)

/-- After a reset a Filter with finite coefficients answers silence with silence, for ever (R154). -/
def Obligations.FilterSilentAfterReset : Prop :=
  ∀ (f : Filter) (n : Nat),
    F32.isFinite f.coeffs.A0 = true → F32.isFinite f.coeffs.A1 = true → F32.isFinite f.coeffs.A2 = true →
    F32.isFinite f.coeffs.B1 = true → F32.isFinite f.coeffs.B2 = true →
      ∀ y ∈ Claim.filterOutputs f.reset (List.replicate n F32.c0), F32.isZero y = true

/-! ## Every kind of effect -/

/-- `EFX.RST`: a Filter's history and a Delay's buffer and cursor are zeroed, a Distortion is left as it is; parameters are
kept (R151, R192, R226, R250). -/
def Obligations.EffectReset : Prop :=
  ∀ (s : State) (idx : Nat),
    (∀ f, s.slot idx = some (.filter f) →
      exec (.efxRst idx) s =
        .next { s with
          chain := s.chain.set idx (.filter { f with x1 := F32.c0, x2 := F32.c0, y1 := F32.c0, y2 := F32.c0 }),
          result := 0x00000000#32, status := 0x00000000#32 }) ∧
    (∀ d, s.slot idx = some (.delay d) → ∃ buf, (∀ k, buf.read k = F32.c0) ∧
      exec (.efxRst idx) s =
        .next { s with
          chain := s.chain.set idx (.delay { d with buf := buf, wp := 0 }),
          result := 0x00000000#32, status := 0x00000000#32 }) ∧
    (∀ z, s.slot idx = some (.distortion z) →
      exec (.efxRst idx) s = .next { s with result := 0x00000000#32, status := 0x00000000#32 })

/-- `EFX.NAME`: 1, 2 or 3 by kind, nothing changed (R251). -/
def Obligations.EffectNames : Prop :=
  ∀ (s : State) (idx : Nat),
    (∀ f, s.slot idx = some (.filter f) →
      exec (.efxName idx) s = .next { s with result := 0x00000001#32, status := 0x00000000#32 }) ∧
    (∀ d, s.slot idx = some (.delay d) →
      exec (.efxName idx) s = .next { s with result := 0x00000002#32, status := 0x00000000#32 }) ∧
    (∀ z, s.slot idx = some (.distortion z) →
      exec (.efxName idx) s = .next { s with result := 0x00000003#32, status := 0x00000000#32 })

/-- Where there is no effect, `EFX.PROC`, `EFX.RST` and `EFX.NAME` are illegal and `EFX.SETP` and `CH.REM` return false
(R109, R332). -/
def Obligations.NoSuchEffect : Prop :=
  ∀ (s : State) (idx : Nat), s.count ≤ idx →
    exec (.efxProc idx) s = .next { s with result := 0x00000000#32, status := 0x00000001#32 } ∧
    exec (.efxRst idx) s = .next { s with result := 0x00000000#32, status := 0x00000001#32 } ∧
    exec (.efxName idx) s = .next { s with result := 0x00000000#32, status := 0x00000001#32 } ∧
    (∀ name, exec (.efxSetp idx name) s = .next { s with result := 0x00000000#32, status := 0x00000000#32 }) ∧
    exec (.chRem idx) s = .next { s with result := 0x00000000#32, status := 0x00000000#32 }

/-! ## Delay -/

/-- `EFX.PROC` on a Delay: the element at the read position is read, the write-back goes to the write cursor and to no other
element, the cursor advances (R182, R191, R96). The hypothesis `d.buf.wf` and the conclusion `buf.wf` are the canonical form of
the model's memory, no rule's (log 7, DEDUCED); every state in the invariant meets the hypothesis (`StepKeepsInvariant`). -/
def Obligations.DelayProcess : Prop :=
  ∀ (s : State) (idx : Nat) (d : Delay), s.slot idx = some (.delay d) → d.buf.wf = true →
    ∀ del, del = d.buf.read ((d.wp + d.len - d.d) % d.len) →
      ∃ buf,
        exec (.efxProc idx) s =
          .next { s with
            chain := s.chain.set idx (.delay { d with buf := buf, wp := (d.wp + 1) % d.len }),
            result := F32.add (F32.mul s.data (F32.sub F32.c1 d.mix)) (F32.mul del d.mix),
            status := 0x00000000#32 } ∧
        buf.wf = true ∧
        ∀ k, buf.read k = if k = d.wp then F32.add s.data (F32.mul del d.feedback) else d.buf.read k

/-- `EFX.SETP` "time": the delay is clamped to the storage with `STATUS.CAP`, a shorter one touches only `d` and `time`, and a
longer one grows the buffer, oldest element first, zeros after (R184 to R187). The hypotheses hold in every state in the
invariant (`StepKeepsInvariant`); `d.buf.within` is about the model's memory: nothing is listed from `len` on (log 7). -/
def Obligations.DelaySetTime : Prop :=
  ∀ (s : State) (idx : Nat) (d : Delay), s.slot idx = some (.delay d) →
    d.wp < d.len → d.buf.within d.len = true →
    ∀ nraw n, nraw = F32.truncSat (F32.mul s.data s.cfg.SR) → n = min nraw (s.cfg.DELAY_CAP - 1) →
      ∃ d', exec (.efxSetp idx .time) s =
          .next { s with
            chain := s.chain.set idx (.delay d'), result := 0x00000001#32,
            status := if s.cfg.DELAY_CAP - 1 < nraw then 0x00000002#32 else 0x00000000#32 } ∧
        d'.time = s.data ∧ d'.d = n ∧ d'.feedback = d.feedback ∧ d'.mix = d.mix ∧
        (n < d.len → d'.len = d.len ∧ d'.wp = d.wp ∧ d'.buf = d.buf) ∧
        (d.len ≤ n → d'.len = n + 1 ∧ d'.wp = 0 ∧
          (∀ i, i < d.len → d'.buf.read i = d.buf.read ((d.wp + i) % d.len)) ∧
          (∀ i, d.len ≤ i → d'.buf.read i = F32.c0))

/-- `EFX.SETP` "feedback", "mix" and any other name on a Delay (R188 to R190). -/
def Obligations.DelayOtherSetters : Prop :=
  ∀ (s : State) (idx : Nat) (d : Delay), s.slot idx = some (.delay d) →
    exec (.efxSetp idx .feedback) s =
      .next { s with
        chain := s.chain.set idx (.delay { d with feedback := F32.clamp s.data F32.c0 F32.c0p99 }),
        result := 0x00000001#32, status := 0x00000000#32 } ∧
    exec (.efxSetp idx .mix) s =
      .next { s with
        chain := s.chain.set idx (.delay { d with mix := F32.clamp s.data F32.c0 F32.c1 }),
        result := 0x00000001#32, status := 0x00000000#32 } ∧
    (∀ name, name ≠ .time → name ≠ .feedback → name ≠ .mix →
      exec (.efxSetp idx name) s = .next { s with result := 0x00000000#32, status := 0x00000000#32 })

/-- While a Delay stays in its slot its buffer never gets shorter, and only "time" makes it longer (R42, R186). -/
def Obligations.DelayBufferOnlyGrows : Prop :=
  ∀ (i : Instr) (s t : State) (idx : Nat) (d : Delay),
    (∀ j, i ≠ .chRem j) → exec i s = .next t → s.slot idx = some (.delay d) →
      ∃ d', t.slot idx = some (.delay d') ∧ d.len ≤ d'.len ∧ (i ≠ .efxSetp idx .time → d'.len = d.len)

/-- What a tick writes is what the tick `d` later reads; a zero delay acts as one of `len` ticks (R194). The hypotheses hold in
every state in the invariant; `d.buf.wf` is the canonical form of the model's memory (log 7). -/
def Obligations.DelayReadsWhatWasWritten : Prop :=
  ∀ (d : Delay) (x : F32) (xs : List F32),
    d.buf.wf = true → d.wp < d.len → d.d < d.len →
    xs.length + 1 = (if d.d = 0 then d.len else d.d) →
      (Claim.delayAfter (d.step x).1 xs).delayed =
        F32.add x (F32.mul (d.buf.read ((d.wp + d.len - d.d) % d.len)) d.feedback)

/-- After a growth the process commands read the old history from the second oldest element on, then the zeros, before they
read anything written since (R186, R195). The hypotheses on `d` hold in every state in the invariant; `d.buf.wf` and
`d.buf.within` are about the model's memory (log 7). -/
def Obligations.DelayAfterGrowth : Prop :=
  ∀ (c : Cfg) (d : Delay) (v : F32) (xs : List F32) (n : Nat),
    d.buf.wf = true → d.buf.within d.len = true → d.wp < d.len →
    n = min (F32.truncSat (F32.mul v c.SR)) (c.DELAY_CAP - 1) → d.len ≤ n →
      (xs.length + 1 < d.len →
        (Claim.delayAfter (d.setTime c v) xs).delayed = d.buf.read ((d.wp + xs.length + 1) % d.len)) ∧
      (d.len ≤ xs.length + 1 → xs.length < n → (Claim.delayAfter (d.setTime c v) xs).delayed = F32.c0)

/-! ## Distortion -/

/-- `EFX.PROC` on a Distortion: drive, transfer function, output stage; no field is written (R212 to R219). -/
def Obligations.DistortionProcess : Prop :=
  ∀ (s : State) (idx : Nat) (z : Distortion), s.slot idx = some (.distortion z) →
    ∀ v shaped, v = F32.mul s.data z.drive →
      shaped = (match z.type with
        | .soft => s.cfg.TANH32 v
        | .hard => F32.clamp v F32.cNeg1 F32.c1
        | .foldback => F32.fold v
        | .sine => s.cfg.SIN32 (F32.mul v 0x40490FDB#32)
        | .bitcrush =>
          F32.div (F32.roundHafz (F32.mul v (F32.pow2 (z.bitDepth - 1)))) (F32.pow2 (z.bitDepth - 1))) →
      exec (.efxProc idx) s =
        .next { s with
          result :=
            F32.mul (F32.add (F32.mul s.data (F32.sub F32.c1 z.mix)) (F32.mul shaped z.mix)) z.outputGain,
          status := 0x00000000#32 }

/-- `EFX.SETP` on a Distortion (R220 to R225). -/
def Obligations.DistortionSetters : Prop :=
  ∀ (s : State) (idx : Nat) (z : Distortion), s.slot idx = some (.distortion z) →
    exec (.efxSetp idx .drive) s =
      .next { s with
        chain := s.chain.set idx (.distortion { z with drive := F32.clamp s.data F32.c1 F32.c100 }),
        result := 0x00000001#32, status := 0x00000000#32 } ∧
    exec (.efxSetp idx .mix) s =
      .next { s with
        chain := s.chain.set idx (.distortion { z with mix := F32.clamp s.data F32.c0 F32.c1 }),
        result := 0x00000001#32, status := 0x00000000#32 } ∧
    exec (.efxSetp idx .outputGain) s =
      .next { s with
        chain := s.chain.set idx (.distortion { z with outputGain := F32.clamp s.data F32.c0 F32.c1 }),
        result := 0x00000001#32, status := 0x00000000#32 } ∧
    exec (.efxSetp idx .bitDepth) s =
      .next { s with
        chain := s.chain.set idx (.distortion { z with bitDepth := F32.bits s.data }),
        result := 0x00000001#32, status := 0x00000000#32 } ∧
    exec (.efxSetp idx .type) s =
      .next { s with
        chain := s.chain.set idx (.distortion { z with type := dtype s.data }),
        result := 0x00000001#32, status := 0x00000000#32 } ∧
    (∀ name, name ≠ .drive → name ≠ .mix → name ≠ .outputGain → name ≠ .bitDepth → name ≠ .type →
      exec (.efxSetp idx name) s = .next { s with result := 0x00000000#32, status := 0x00000000#32 })

/-- `FOLD` of a finite value is the exact real fold, lies in `[-1, 1]`, and a zero made by folding is `+0.0`; NaN is returned
and an infinity gives `0x7FC00000` (R215, R228). -/
def Obligations.FoldIsExactAndBounded : Prop :=
  ∀ v : F32,
    (F32.isNaN v = true → F32.fold v = v) ∧ (F32.isInf v = true → F32.fold v = 0x7FC00000#32) ∧
    (F32.isFinite v = true →
      F32.le F32.cNeg1 (F32.fold v) = true ∧ F32.le (F32.fold v) F32.c1 = true ∧
      (F32.le F32.cNeg1 v = true → F32.le v F32.c1 = true → F32.fold v = v) ∧
      (F32.lt v F32.cNeg1 = true ∨ F32.lt F32.c1 v = true → F32.isZero (F32.fold v) = true → F32.fold v = F32.c0) ∧
      ∀ t : Int, t = (F32.val v + 2 ^ 149) % (4 * 2 ^ 149) →
        F32.val (F32.fold v) = if t ≤ 2 * 2 ^ 149 then t - 2 ^ 149 else 3 * 2 ^ 149 - t)

/-- `BITS` is always 1 to 16: 1 on NaN and up to 1, 16 from 16 on, and the integer part between (R222). -/
def Obligations.BitDepthConversion : Prop :=
  ∀ v : F32, 1 ≤ F32.bits v ∧ F32.bits v ≤ 16 ∧
    (F32.isNaN v = true → F32.bits v = 1) ∧
    (F32.le v F32.c1 = true → F32.bits v = 1) ∧
    (F32.le F32.c16 v = true → F32.bits v = 16) ∧
    (F32.le F32.c1 v = true → F32.le v F32.c16 = true →
      (F32.bits v : Int) * 2 ^ 149 ≤ F32.val v ∧ F32.val v < ((F32.bits v : Int) + 1) * 2 ^ 149)

/-- Two process commands on a Distortion with the same operand, and any command on another unit with any operand between
them, return the same word (R229, R255). -/
def Obligations.DistortionIsMemoryless : Prop :=
  ∀ (s s1 s2 s3 : State) (idx : Nat) (z : Distortion) (i : Instr) (u : UnitRef) (w : Word),
    s.slot idx = some (.distortion z) → unitOf i = some u → u ≠ .slot idx →
    exec (.efxProc idx) s = .next s1 → exec i { s1 with data := w } = .next s2 →
    exec (.efxProc idx) { s2 with data := s.data } = .next s3 →
      s3.result = s1.result

/-! ## Chain -/

/-- `CH.ADD`: a new effect with its construction values at the end, no effect on a full chain, illegal for a bad kind code
(R243, R140, R180, R210). -/
def Obligations.ChainAdd : Prop :=
  ∀ s : State,
    (∀ k, k = .filter ∨ k = .delay ∨ k = .distortion → s.count = s.cfg.CHAIN_CAP →
      exec (.chAdd k) s = .next { s with result := 0x00000000#32, status := 0x00000002#32 }) ∧
    (∀ n, exec (.chAdd (.bad n)) s = .next { s with result := 0x00000000#32, status := 0x00000001#32 }) ∧
    (s.count ≠ s.cfg.CHAIN_CAP →
      (∀ t cut res, t = ftype s.cfg.FILTER_INIT.type →
        cut = F32.clamp s.cfg.FILTER_INIT.cutoff F32.c20 (F32.mul F32.c0p49 s.cfg.SR) →
        res = F32.clamp s.cfg.FILTER_INIT.resonance F32.c0p1 F32.c20 →
        exec (.chAdd .filter) s =
          .next { s with
            chain := s.chain ++ [.filter {
              type := t, cutoff := cut, resonance := res, coeffs := coeffsFor s.cfg t cut res,
              x1 := F32.c0, x2 := F32.c0, y1 := F32.c0, y2 := F32.c0 }],
            result := 0x00000000#32, status := 0x00000000#32 }) ∧
      (∀ n, n = F32.truncSat (F32.mul s.cfg.DELAY_INIT.time s.cfg.SR) →
        ∃ buf, (∀ k, buf.read k = F32.c0) ∧
          exec (.chAdd .delay) s =
            .next { s with
              chain := s.chain ++ [.delay {
                buf := buf, len := n + 1, wp := 0, d := n, time := s.cfg.DELAY_INIT.time,
                feedback := F32.clamp s.cfg.DELAY_INIT.feedback F32.c0 F32.c0p99,
                mix := F32.clamp s.cfg.DELAY_INIT.mix F32.c0 F32.c1 }],
              result := 0x00000000#32, status := 0x00000000#32 }) ∧
      exec (.chAdd .distortion) s =
        .next { s with
          chain := s.chain ++ [.distortion {
            type := dtype s.cfg.DIST_INIT.type,
            drive := F32.clamp s.cfg.DIST_INIT.drive F32.c1 F32.c100,
            mix := F32.clamp s.cfg.DIST_INIT.mix F32.c0 F32.c1,
            outputGain := F32.clamp s.cfg.DIST_INIT.outputGain F32.c0 F32.c1,
            bitDepth := F32.bits s.cfg.DIST_INIT.bitDepth }],
          result := 0x00000000#32, status := 0x00000000#32 })

/-- `CH.REM`: in range, later slots move down by one with their state, earlier ones stay, true is returned; out of range,
false is returned and nothing else changes (R244). -/
def Obligations.ChainRemove : Prop :=
  ∀ (s : State) (idx : Nat),
    (idx < s.count →
      ∃ t, exec (.chRem idx) s = .next t ∧
        t = { s with chain := t.chain, result := 0x00000001#32, status := 0x00000000#32 } ∧
        t.count + 1 = s.count ∧ (∀ k, k < idx → t.slot k = s.slot k) ∧ (∀ k, idx ≤ k → t.slot k = s.slot (k + 1))) ∧
    (s.count ≤ idx → exec (.chRem idx) s = .next { s with result := 0x00000000#32, status := 0x00000000#32 })

/-- `CH.PROC` is the composition of the effects in insertion order, each left as its own process leaves it; an empty chain
returns the operand bit for bit (R245, R253). -/
def Obligations.ChainProcessComposes : Prop :=
  ∀ s : State, ∃ (t : State) (v : Nat → F32),
    exec .chProc s = .next t ∧
    t = { s with chain := t.chain, result := v s.count, status := 0x00000000#32 } ∧
    v 0 = s.data ∧ t.count = s.count ∧
    ∀ k e, s.slot k = some e → t.slot k = some (e.step s.cfg (v k)).1 ∧ v (k + 1) = (e.step s.cfg (v k)).2

/-- `CH.RSTALL` resets every effect as `EFX.RST` would; `CH.COUNT` returns the number of effects and `NOP` returns 0, both
changing nothing else (R246, R247, R252). -/
def Obligations.ChainResetCountAndNop : Prop :=
  ∀ s : State,
    (∃ t, exec .chRstall s = .next t ∧
      t = { s with chain := t.chain, result := 0x00000000#32, status := 0x00000000#32 } ∧ t.count = s.count ∧
      ∀ k e, s.slot k = some e → t.slot k = some e.reset) ∧
    exec .chCount s = .next { s with result := BitVec.ofNat 32 s.count, status := 0x00000000#32 } ∧
    exec .nop s = .next { s with result := 0x00000000#32, status := 0x00000000#32 }

/-- The count law, a command at a time: `count` rises by one exactly with a `CH.ADD` that is legal and not at capacity, and
falls by one exactly with a `CH.REM` that returns true (R254). -/
def Obligations.CountLaw : Prop :=
  ∀ (i : Instr) (s t : State), exec i s = .next t →
    (∀ k, i = .chAdd k → t.status = 0x00000000#32 → t.count = s.count + 1) ∧
    (∀ j, i = .chRem j → t.result = 0x00000001#32 → t.count + 1 = s.count) ∧
    (¬ (∃ k, i = .chAdd k ∧ t.status = 0x00000000#32) → ¬ (∃ j, i = .chRem j ∧ t.result = 0x00000001#32) →
      t.count = s.count)

/-! ## Envelope -/

/-- The five parameter setters: one field each, floored or clamped (R270 to R274). -/
def Obligations.EnvelopeSetters : Prop :=
  ∀ (s : State) (idx : Nat) (e : Envelope), s.env idx = some e →
    exec (.envSeta idx) s =
      .next { s with envs := s.envs.set idx { e with attack := F32.floorAt s.data 0x3A83126F#32 },
                     result := 0x00000000#32, status := 0x00000000#32 } ∧
    exec (.envSetd idx) s =
      .next { s with envs := s.envs.set idx { e with decay := F32.floorAt s.data 0x3A83126F#32 },
                     result := 0x00000000#32, status := 0x00000000#32 } ∧
    exec (.envSeth idx) s =
      .next { s with envs := s.envs.set idx { e with hold := F32.floorAt s.data 0x00000000#32 },
                     result := 0x00000000#32, status := 0x00000000#32 } ∧
    exec (.envSets idx) s =
      .next { s with envs := s.envs.set idx { e with sustain := F32.clamp s.data 0x00000000#32 0x3F800000#32 },
                     result := 0x00000000#32, status := 0x00000000#32 } ∧
    exec (.envSetr idx) s =
      .next { s with envs := s.envs.set idx { e with release := F32.floorAt s.data 0x3A83126F#32 },
                     result := 0x00000000#32, status := 0x00000000#32 }

/-- `ENV.TRIG` and `ENV.REL`: the level is captured and kept, the stage starts anew; a release in Idle changes nothing of the
envelope (R283, R284). -/
def Obligations.EnvelopeTriggerAndRelease : Prop :=
  ∀ (s : State) (idx : Nat) (e : Envelope), s.env idx = some e →
    exec (.envTrig idx) s =
      .next { s with
        envs := s.envs.set idx { e with startLevel := e.level, stage := .attack, stageTime := F32.c0 },
        result := 0x00000000#32, status := 0x00000000#32 } ∧
    (e.stage ≠ .idle → exec (.envRel idx) s =
      .next { s with
        envs := s.envs.set idx { e with startLevel := e.level, stage := .release, stageTime := F32.c0 },
        result := 0x00000000#32, status := 0x00000000#32 }) ∧
    (e.stage = .idle → exec (.envRel idx) s = .next { s with result := 0x00000000#32, status := 0x00000000#32 })

/-- `ENV.PROC`: `stage_time` advances by `1.0 / SR` first, then the one arm of the stage the call starts in (R275 to R282,
R287). -/
def Obligations.EnvelopeProcess : Prop :=
  ∀ (s : State) (idx : Nat) (e : Envelope), s.env idx = some e →
    ∀ (st : F32) (e' : Envelope), st = F32.add e.stageTime (F32.div F32.c1 s.cfg.SR) →
      e' = (match e.stage with
        | .idle => { e with stageTime := st, level := F32.c0 }
        | .attack =>
          if F32.ge st e.attack then { e with level := F32.c1, stage := .decay, stageTime := F32.c0 }
          else { e with
            stageTime := st,
            level := F32.add e.startLevel (F32.mul (F32.sub F32.c1 e.startLevel) (F32.div st e.attack)) }
        | .decay =>
          if F32.ge st e.decay then { e with level := e.sustain, stage := .hold, stageTime := F32.c0 }
          else { e with
            stageTime := st,
            level := F32.add e.sustain (F32.mul (F32.sub F32.c1 e.sustain)
              (s.cfg.EXP32 (F32.div (F32.mul F32.cNeg5 st) e.decay))) }
        | .hold =>
          if F32.ge st e.hold then { e with level := e.sustain, stage := .sustain, stageTime := F32.c0 }
          else { e with level := e.sustain, stageTime := st }
        | .sustain => { e with level := e.sustain, stageTime := st }
        | .release =>
          if F32.ge st e.release then { e with level := F32.c0, stage := .idle, stageTime := F32.c0 }
          else { e with
            stageTime := st,
            level := F32.mul e.startLevel (s.cfg.EXP32 (F32.div (F32.mul F32.cNeg5 st) e.release)) }) →
      exec (.envProc idx) s =
        .next { s with envs := s.envs.set idx e', result := e'.level, status := 0x00000000#32 }

/-- `ENV.ACTIVE`: 1 in every stage but Idle, nothing changed (R286). -/
def Obligations.EnvelopeActive : Prop :=
  ∀ (s : State) (idx : Nat) (e : Envelope), s.env idx = some e →
    exec (.envActive idx) s =
      .next { s with
        result := if e.stage = .idle then 0x00000000#32 else 0x00000001#32, status := 0x00000000#32 }

/-- The stage graph over all commands: a stage changes only by its own envelope's trigger, release (not from Idle), or a
process that completes Attack, Decay, Hold or Release (R290 item 5). -/
def Obligations.EnvelopeStageGraph : Prop :=
  ∀ (i : Instr) (s t : State) (idx : Nat) (e e' : Envelope),
    exec i s = .next t → s.env idx = some e → t.env idx = some e' →
      e'.stage = e.stage ∨ (i = .envTrig idx ∧ e'.stage = .attack) ∨
      (i = .envRel idx ∧ e.stage ≠ .idle ∧ e'.stage = .release) ∨
      (i = .envProc idx ∧
        ((e.stage = .attack ∧ e'.stage = .decay) ∨ (e.stage = .decay ∧ e'.stage = .hold) ∨
         (e.stage = .hold ∧ e'.stage = .sustain) ∨ (e.stage = .release ∧ e'.stage = .idle)))

/-- The five setters in a row, each with its own `DATA`, are the one `set_parameters` call: the five parameters change and
nothing else of the envelope (R289). -/
def Obligations.EnvelopeSetParameters : Prop :=
  ∀ (s : State) (idx : Nat) (e : Envelope) (a d h u r : F32), s.env idx = some e →
    ∃ s1 s2 s3 s4,
      exec (.envSeta idx) { s with data := a } = .next s1 ∧ exec (.envSetd idx) { s1 with data := d } = .next s2 ∧
      exec (.envSeth idx) { s2 with data := h } = .next s3 ∧ exec (.envSets idx) { s3 with data := u } = .next s4 ∧
      exec (.envSetr idx) { s4 with data := r } =
        .next { s with
          data := r, result := 0x00000000#32, status := 0x00000000#32,
          envs := s.envs.set idx { e with
            attack := F32.floorAt a F32.c0p001, decay := F32.floorAt d F32.c0p001, hold := F32.floorAt h F32.c0,
            sustain := F32.clamp u F32.c0 F32.c1, release := F32.floorAt r F32.c0p001 } }

/-- Under `EXP_UNIT` and with no NaN written, every command keeps every envelope's level in `[0, 1]` (R285). `Envelope.Inv`
holds in every state that `StepKeepsInvariant` covers; its bound on `stage_time` is the model's (log 17). -/
def Obligations.EnvelopeLevelBounded : Prop :=
  ∀ (i : Instr) (s t : State), ExpUnit s.cfg → s.Inv → F32.isNaN s.data = false →
    (∀ e ∈ s.envs, e.Bounded) → exec i s = .next t → ∀ e ∈ t.envs, e.Bounded

/-! ## ParameterSmoother -/

/-- `SM.TGT`, `SM.FACT`, `SM.RST` (R310, R311, R313). -/
def Obligations.SmootherSetters : Prop :=
  ∀ (s : State) (idx : Nat) (x : Smoother), s.sm idx = some x →
    exec (.smTgt idx) s =
      .next { s with sms := s.sms.set idx { x with target := s.data },
                     result := 0x00000000#32, status := 0x00000000#32 } ∧
    exec (.smFact idx) s =
      .next { s with sms := s.sms.set idx { x with factor := F32.clamp s.data 0x00000000#32 0x3F800000#32 },
                     result := 0x00000000#32, status := 0x00000000#32 } ∧
    exec (.smRst idx) s =
      .next { s with sms := s.sms.set idx { x with current := s.data, target := s.data },
                     result := 0x00000000#32, status := 0x00000000#32 }

/-- `SM.PROC`: `current + factor * (target - current)`, each operation rounded (R312). -/
def Obligations.SmootherProcess : Prop :=
  ∀ (s : State) (idx : Nat) (x : Smoother), s.sm idx = some x →
    ∀ v, v = F32.add x.current (F32.mul x.factor (F32.sub x.target x.current)) →
      exec (.smProc idx) s =
        .next { s with sms := s.sms.set idx { x with current := v }, result := v, status := 0x00000000#32 }

/-- `SM.CLOSE`: the IEEE comparison of `|current - target|` with the threshold, nothing changed; a NaN threshold and one of at
most 0 give false (R314). -/
def Obligations.SmootherIsClose : Prop :=
  ∀ (s : State) (idx : Nat) (x : Smoother), s.sm idx = some x →
    exec (.smClose idx) s =
      .next { s with
        result := if F32.lt (F32.sub x.current x.target &&& 0x7FFFFFFF#32) s.data = true then 0x00000001#32
                  else 0x00000000#32,
        status := 0x00000000#32 } ∧
    (F32.isNaN s.data = true ∨ F32.le s.data F32.c0 = true →
      exec (.smClose idx) s = .next { s with result := 0x00000000#32, status := 0x00000000#32 })

/-- After `SM.RST v` with `v` finite and a finite factor, `SM.PROC` returns a value equal to `v`, and `v` bit for bit but in
one case: `-0.0` comes back as `+0.0` where the factor's sign bit is clear (R312, R313; log 18). -/
def Obligations.SmootherHoldsAfterReset : Prop :=
  ∀ (s : State) (idx : Nat) (x : Smoother), s.sm idx = some x →
    F32.isFinite s.data = true → F32.isFinite x.factor = true →
      ∃ s1 t, exec (.smRst idx) s = .next s1 ∧ exec (.smProc idx) s1 = .next t ∧
        F32.eq t.result s.data = true ∧
        t.result = if s.data = 0x80000000#32 ∧ F32.sign x.factor = false then 0x00000000#32 else s.data

/-- Where there is no such envelope or smoother the command is illegal (R288, R316, R332). -/
def Obligations.NoSuchEnvelopeOrSmoother : Prop :=
  ∀ (s : State) (idx : Nat) (i : Instr),
    (unitOf i = some (.env idx) ∧ s.cfg.N_ENV ≤ idx) ∨ (unitOf i = some (.sm idx) ∧ s.cfg.N_SM ≤ idx) →
      exec i s = .next { s with result := 0x00000000#32, status := 0x00000001#32 }

/-! ## Assembler -/

/-- The commands that use a value are those with `V` in the `V` column of R103; the two host accesses of such a command run it
with the value in `DATA`, and the one access of any other command runs it with `DATA` as it was (R114). -/
def Obligations.AssembledLineRuns : Prop :=
  (∀ i : Instr, usesValue i = true ↔
    (∃ idx, i = .efxProc idx ∨ (∃ name, i = .efxSetp idx name) ∨ i = .envSeta idx ∨ i = .envSetd idx ∨
      i = .envSeth idx ∨ i = .envSets idx ∨ i = .envSetr idx ∨ i = .smTgt idx ∨ i = .smFact idx ∨ i = .smRst idx ∨
      i = .smClose idx) ∨ i = .chProc) ∧
  ∀ (s : State) (i : Instr) (v : F32) (rest : List HostEvent),
    s.cfg.valid = true → s.cfg.BASE % 4 = 0 → i.wf = true → s.pending = lineEvents s.cfg (i, v) ++ rest →
      (usesValue i = true → ∃ s1, step s = .next s1 ∧
        step s1 = exec i { s with pending := rest, data := v, pc := s.pc + 1 }) ∧
      (usesValue i = false → step s = exec i { s with pending := rest, pc := s.pc + 1 })

/-- The pseudo-instructions stand for the commands of R115, in order. -/
def Obligations.PseudoExpansions : Prop :=
  ∀ (i : Nat) (name : ParamName) (a b c d e : F32),
    (Pseudo.envSet i a b c d e).expand =
      [(.envSeta i, a), (.envSetd i, b), (.envSeth i, c), (.envSets i, d), (.envSetr i, e)] ∧
    (Pseudo.chSetp i name a).expand = [(.efxSetp i name, a)] ∧
    (Pseudo.fltCfg i a b c).expand = [(.efxSetp i .type, a), (.efxSetp i .cutoff, b), (.efxSetp i .resonance, c)] ∧
    (Pseudo.dlyCfg i a b c).expand = [(.efxSetp i .time, a), (.efxSetp i .feedback, b), (.efxSetp i .mix, c)] ∧
    (Pseudo.dstCfg i a b c d e).expand =
      [(.efxSetp i .type, a), (.efxSetp i .drive, b), (.efxSetp i .mix, c), (.efxSetp i .outputGain, d),
       (.efxSetp i .bitDepth, e)] ∧
    (Pseudo.smInit i a b).expand = [(.smRst i, a), (.smFact i, b)]
end

