-- ==== Sys2Proof/Laws/Float.lean ====
section
/-! SUPPORT. Lemmas about binary32 arithmetic: what a pattern's sign and magnitude are, what the one rounding returns, and
the ranges of the clamps (00_scope.md R17 to R19). -/

namespace Sys2Proof.F32

/-! ## Patterns -/

@[simp] theorem mag_ofSignMag (b : Bool) {m : Nat} (h : m < 2 ^ 31) : mag (ofSignMag b m) = m := by
  cases b <;> simp only [mag, ofSignMag, BitVec.toNat_ofNat, cond_true, cond_false] <;> omega

@[simp] theorem sign_ofSignMag (b : Bool) {m : Nat} (h : m < 2 ^ 31) : sign (ofSignMag b m) = b := by
  cases b <;> simp only [sign, ofSignMag, BitVec.toNat_ofNat, cond_true, cond_false, decide_eq_true_eq,
    decide_eq_false_iff_not] <;> omega

theorem mag_lt (a : F32) : mag a < 2 ^ 31 := Nat.mod_lt _ (by decide)

/-- A datum is its sign and its magnitude. -/
theorem ofSignMag_sign_mag (a : F32) : ofSignMag (sign a) (mag a) = a := by
  apply BitVec.eq_of_toNat_eq
  have := a.isLt
  by_cases h : 2 ^ 31 ≤ a.toNat <;>
    simp only [ofSignMag, sign, mag, h, BitVec.toNat_ofNat, decide_true, decide_false, cond_true, cond_false] <;> omega

theorem ext_sign_mag {a b : F32} (hs : sign a = sign b) (hm : mag a = mag b) : a = b := by
  rw [← ofSignMag_sign_mag a, ← ofSignMag_sign_mag b, hs, hm]

@[simp] theorem sign_neg (a : F32) : sign (neg a) = !sign a := sign_ofSignMag _ (mag_lt a)
@[simp] theorem mag_neg (a : F32) : mag (neg a) = mag a := mag_ofSignMag _ (mag_lt a)
@[simp] theorem sign_abs (a : F32) : sign (abs a) = false := sign_ofSignMag _ (mag_lt a)
@[simp] theorem mag_abs (a : F32) : mag (abs a) = mag a := mag_ofSignMag _ (mag_lt a)

@[simp] theorem isNaN_neg (a : F32) : isNaN (neg a) = isNaN a := by simp [isNaN]
@[simp] theorem isInf_neg (a : F32) : isInf (neg a) = isInf a := by simp [isInf]
@[simp] theorem isZero_neg (a : F32) : isZero (neg a) = isZero a := by simp [isZero]
@[simp] theorem units_neg (a : F32) : units (neg a) = units a := by simp [units, mant, expo, frac]

theorem val_neg (a : F32) : val (neg a) = -val a := by
  cases h : sign a <;> simp [val, h]

theorem isNaN_false_iff (a : F32) : isNaN a = false ↔ mag a ≤ infMag := by simp [isNaN]
theorem isFinite_iff (a : F32) : isFinite a = true ↔ mag a < infMag := by simp [isFinite]

theorem finite_not_nan {a : F32} (h : isFinite a = true) : isNaN a = false := by
  simp only [isFinite, isNaN, decide_eq_true_eq, decide_eq_false_iff_not] at *; omega

theorem finite_not_inf {a : F32} (h : isFinite a = true) : isInf a = false := by
  simp only [isFinite, isInf, decide_eq_true_eq, decide_eq_false_iff_not] at *; omega

/-! ## Magnitudes in units -/

/-- The magnitude of a magnitude pattern in units of `2^-149`; past the largest finite pattern it goes on as if there were
a further binade. -/
def magUnits (m : Nat) : Nat :=
  (if m / 2 ^ 23 = 0 then m % 2 ^ 23 else 2 ^ 23 + m % 2 ^ 23) * 2 ^ (m / 2 ^ 23 - 1)

theorem units_eq_magUnits (a : F32) : units a = magUnits (mag a) := rfl

/-- A pattern made of a shift and a significand of at most `2^24` has the value of that significand shifted. -/
theorem magUnits_pattern (sh q : Nat) (hq : q ≤ 2 ^ 24) (h : sh = 0 ∨ 2 ^ 23 ≤ q) :
    magUnits (sh * 2 ^ 23 + q) = q * 2 ^ sh := by
  unfold magUnits
  by_cases h1 : q < 2 ^ 23
  · obtain rfl : sh = 0 := by omega
    have hd : (0 * 2 ^ 23 + q) / 2 ^ 23 = 0 := by omega
    have hm : (0 * 2 ^ 23 + q) % 2 ^ 23 = q := by omega
    rw [hd, hm]; simp
  · by_cases h2 : q < 2 ^ 24
    · have hd : (sh * 2 ^ 23 + q) / 2 ^ 23 = sh + 1 := by omega
      have hm : (sh * 2 ^ 23 + q) % 2 ^ 23 = q - 2 ^ 23 := by omega
      rw [hd, hm, if_neg (by omega), show 2 ^ 23 + (q - 2 ^ 23) = q by omega, show sh + 1 - 1 = sh by omega]
    · obtain rfl : q = 2 ^ 24 := by omega
      have hd : (sh * 2 ^ 23 + 2 ^ 24) / 2 ^ 23 = sh + 2 := by omega
      have hm : (sh * 2 ^ 23 + 2 ^ 24) % 2 ^ 23 = 0 := by omega
      rw [hd, hm, if_neg (by omega), show sh + 2 - 1 = sh + 1 by omega, Nat.pow_succ]; ring

/-- Every pattern is one of those of `magUnits_pattern`, with a significand below `2^24`. -/
theorem exists_pattern (m : Nat) :
    ∃ sh q, m = sh * 2 ^ 23 + q ∧ q < 2 ^ 24 ∧ (sh = 0 ∨ 2 ^ 23 ≤ q) := by
  by_cases h : m / 2 ^ 23 = 0
  · exact ⟨0, m, by omega, by omega, .inl rfl⟩
  · exact ⟨m / 2 ^ 23 - 1, 2 ^ 23 + m % 2 ^ 23, by omega, by omega, .inr (by omega)⟩

theorem magUnits_strictMono : StrictMono magUnits := by
  refine strictMono_nat_of_lt_succ fun m => ?_
  obtain ⟨sh, q, rfl, hq, h⟩ := exists_pattern m
  rw [magUnits_pattern sh q (by omega) h, Nat.add_assoc, magUnits_pattern sh (q + 1) (by omega) (by omega)]
  exact Nat.mul_lt_mul_of_pos_right (by omega) (by positivity)

theorem magUnits_lt_iff {a b : Nat} : magUnits a < magUnits b ↔ a < b := magUnits_strictMono.lt_iff_lt
theorem magUnits_le_iff {a b : Nat} : magUnits a ≤ magUnits b ↔ a ≤ b := magUnits_strictMono.le_iff_le
theorem magUnits_inj {a b : Nat} : magUnits a = magUnits b ↔ a = b := magUnits_strictMono.injective.eq_iff
@[simp] theorem magUnits_zero : magUnits 0 = 0 := rfl

/-! ## The one rounding -/

theorem roundShift_bounds (n d : Nat) :
    n / (d * 2 ^ roundShift n d) < 2 ^ 24 ∧ (roundShift n d = 0 ∨ 2 ^ 23 ≤ n / (d * 2 ^ roundShift n d)) := by
  rw [← Nat.div_div_eq_div_mul]
  unfold roundShift
  generalize n / d = x
  have hlt : x < 2 ^ (Nat.log2 x + 1) := Nat.lt_log2_self
  by_cases hx : Nat.log2 x ≤ 23
  · rw [Nat.sub_eq_zero_of_le hx]
    have : (2 : Nat) ^ (Nat.log2 x + 1) ≤ 2 ^ 24 := Nat.pow_le_pow_right (by decide) (by omega)
    constructor
    · simpa using by omega
    · left; rfl
  · have hx0 : x ≠ 0 := by rintro rfl; exact hx (by simp)
    have hle : 2 ^ Nat.log2 x ≤ x := Nat.log2_self_le hx0
    obtain ⟨k, hk⟩ : ∃ k, Nat.log2 x = k + 23 := ⟨Nat.log2 x - 23, by omega⟩
    rw [hk] at hlt hle ⊢
    rw [Nat.add_sub_cancel]
    constructor
    · rw [Nat.div_lt_iff_lt_mul (by positivity), ← Nat.pow_add]
      exact lt_of_lt_of_le hlt (Nat.pow_le_pow_right (by decide) (by omega))
    · right
      rw [Nat.le_div_iff_mul_le (by positivity), ← Nat.pow_add]
      exact le_trans (Nat.pow_le_pow_right (by decide) (by omega)) hle

/-- What the rounding returns, said by its thresholds: it is above a finite pattern `m` exactly when the value is above the
midpoint of `m` and the next pattern, or at that midpoint with `m` odd (R18). -/
theorem lt_roundMag_iff (n : Nat) {d m : Nat} (hd : 0 < d) (hm : m < infMag) :
    m < roundMag n d ↔
      (magUnits m + magUnits (m + 1)) * d < 2 * n ∨
        ((magUnits m + magUnits (m + 1)) * d = 2 * n ∧ m % 2 = 1) := by
  obtain ⟨hq, hs⟩ := roundShift_bounds n d
  unfold roundMag
  simp only [roundStep]
  generalize hsh : roundShift n d = sh at *
  have hden : 0 < d * 2 ^ sh := by positivity
  generalize hqq : n / (d * 2 ^ sh) = q at *
  have hn : n = d * 2 ^ sh * q + n % (d * 2 ^ sh) := by rw [← hqq]; exact (Nat.div_add_mod _ _).symm
  have hr : n % (d * 2 ^ sh) < d * 2 ^ sh := Nat.mod_lt _ hden
  generalize n % (d * 2 ^ sh) = r at *
  have hU : magUnits (sh * 2 ^ 23 + q) = q * 2 ^ sh := magUnits_pattern sh q (by omega) hs
  have hU1 : magUnits (sh * 2 ^ 23 + q + 1) = (q + 1) * 2 ^ sh := by
    rw [Nat.add_assoc]; exact magUnits_pattern sh (q + 1) (by omega) (by omega)
  rw [Nat.lt_min, and_iff_left hm]
  have e1 : d * 2 ^ sh * q = q * 2 ^ sh * d := by ring
  have e2 : (q + 1) * 2 ^ sh * d = q * 2 ^ sh * d + d * 2 ^ sh := by ring
  rcases Nat.lt_trichotomy m (sh * 2 ^ 23 + q) with h | h | h
  · refine iff_of_true ?_ (.inl ?_)
    · split <;> omega
    · have h1 : magUnits m < q * 2 ^ sh := hU ▸ magUnits_lt_iff.2 h
      have h2 : magUnits (m + 1) ≤ q * 2 ^ sh := hU ▸ magUnits_le_iff.2 h
      have : (magUnits m + magUnits (m + 1)) * d < (q * 2 ^ sh + q * 2 ^ sh) * d :=
        Nat.mul_lt_mul_of_pos_right (by omega) hd
      rw [Nat.add_mul (q * 2 ^ sh)] at this
      omega
  · subst h
    rw [hU, hU1, Nat.add_mul, e2]
    have hpar : (sh * 2 ^ 23 + q) % 2 = q % 2 := by omega
    rw [hpar]
    split
    · refine iff_of_true (by omega) ?_
      omega
    · refine iff_of_false (by omega) ?_
      omega
  · refine iff_of_false ?_ ?_
    · split <;> omega
    · have h1 : (q + 1) * 2 ^ sh ≤ magUnits m := hU1 ▸ magUnits_le_iff.2 h
      have h2 : magUnits m < magUnits (m + 1) := magUnits_lt_iff.2 (by omega)
      have h3 : ((q + 1) * 2 ^ sh + (q + 1) * 2 ^ sh) * d < (magUnits m + magUnits (m + 1)) * d :=
        Nat.mul_lt_mul_of_pos_right (by omega) hd
      rw [Nat.add_mul ((q + 1) * 2 ^ sh)] at h3
      omega

theorem roundMag_le_infMag (n d : Nat) : roundMag n d ≤ infMag := Nat.min_le_right _ _

theorem roundMag_lt (n d : Nat) : roundMag n d < 2 ^ 31 := lt_of_le_of_lt (roundMag_le_infMag n d) (by decide)

@[simp] theorem mag_roundQ (b : Bool) (n d : Nat) : mag (roundQ b n d) = roundMag n d :=
  mag_ofSignMag _ (roundMag_lt n d)

@[simp] theorem sign_roundQ (b : Bool) (n d : Nat) : sign (roundQ b n d) = b := sign_ofSignMag _ (roundMag_lt n d)

@[simp] theorem isNaN_roundQ (b : Bool) (n d : Nat) : isNaN (roundQ b n d) = false := by
  rw [isNaN_false_iff, mag_roundQ]; exact roundMag_le_infMag n d

/-- The rounding is monotone in the value. -/
theorem roundMag_mono {n d n' d' : Nat} (hd : 0 < d) (hd' : 0 < d') (h : n * d' ≤ n' * d) :
    roundMag n d ≤ roundMag n' d' := by
  by_contra hc
  have hc : roundMag n' d' < roundMag n d := not_le.1 hc
  have hm : roundMag n' d' < infMag := lt_of_lt_of_le hc (roundMag_le_infMag n d)
  have h1 := (lt_roundMag_iff n hd hm).1 hc
  have h2 := mt (lt_roundMag_iff n' hd' hm).2 (lt_irrefl _)
  generalize magUnits (roundMag n' d') + magUnits (roundMag n' d' + 1) = u at *
  have h1' : u * d * d' ≤ 2 * n * d' := Nat.mul_le_mul_right _ (by omega)
  have h2' : 2 * n' * d ≤ u * d' * d := Nat.mul_le_mul_right _ (by omega)
  have e : u * d * d' = u * d' * d := by ring
  have e3 : 2 * n * d' = 2 * (n * d') := by ring
  have e4 : 2 * n' * d = 2 * (n' * d) := by ring
  have heq : u * d * d' = 2 * n * d' := by omega
  have heq' : 2 * n' * d = u * d' * d := by omega
  have k1 : u * d = 2 * n := Nat.eq_of_mul_eq_mul_right hd' heq
  have k2 : 2 * n' = u * d' := Nat.eq_of_mul_eq_mul_right hd heq'
  omega

/-- A value that a finite pattern has is returned exactly. -/
theorem roundMag_exact {m d : Nat} (hd : 0 < d) (hm : m < infMag) : roundMag (magUnits m * d) d = m := by
  have hlo : ¬ m < roundMag (magUnits m * d) d := by
    rw [lt_roundMag_iff _ hd hm]
    have h2 : magUnits m < magUnits (m + 1) := magUnits_lt_iff.2 (by omega)
    have h3 : (magUnits m + magUnits m) * d < (magUnits m + magUnits (m + 1)) * d :=
      Nat.mul_lt_mul_of_pos_right (by omega) hd
    rw [Nat.add_mul (magUnits m)] at h3
    omega
  refine le_antisymm (not_lt.1 hlo) ?_
  rcases Nat.eq_zero_or_pos m with rfl | hpos
  · exact Nat.zero_le _
  · have : m - 1 < roundMag (magUnits m * d) d := by
      rw [lt_roundMag_iff _ hd (by omega)]
      left
      have h2 : magUnits (m - 1) < magUnits m := magUnits_lt_iff.2 (by omega)
      rw [show m - 1 + 1 = m by omega]
      have h3 : (magUnits (m - 1) + magUnits m) * d < (magUnits m + magUnits m) * d :=
        Nat.mul_lt_mul_of_pos_right (by omega) hd
      rw [Nat.add_mul (magUnits m)] at h3
      omega
    omega

@[simp] theorem roundMag_zero (d : Nat) : roundMag 0 d = 0 := by simp [roundMag, roundShift, roundStep]

/-- A value of at most a finite pattern's rounds to at most that pattern. -/
theorem roundMag_le_of_le {n d m : Nat} (hd : 0 < d) (hm : m < infMag) (h : n ≤ magUnits m * d) :
    roundMag n d ≤ m := by
  have h1 := roundMag_mono hd hd (Nat.mul_le_mul_right d h)
  rwa [roundMag_exact hd hm] at h1

/-- A value of at least a finite pattern's rounds to at least that pattern. -/
theorem le_roundMag_of_le {n d m : Nat} (hd : 0 < d) (hm : m < infMag) (h : magUnits m * d ≤ n) :
    m ≤ roundMag n d := by
  have h1 := roundMag_mono hd hd (Nat.mul_le_mul_right d h)
  rwa [roundMag_exact hd hm] at h1

/-- The rounding returns a nearest magnitude pattern, with an even last bit where another pattern is as near (R18). -/
theorem roundMag_nearest {n d m m' : Nat} (hd : 0 < d) (hm : roundMag n d = m) (hf : m < infMag) :
    |(magUnits m : Int) * d - n| ≤ |(magUnits m' : Int) * d - n| ∧
      (|(magUnits m : Int) * d - n| = |(magUnits m' : Int) * d - n| → m' = m ∨ m % 2 = 0) := by
  have hup := mt (lt_roundMag_iff n hd hf).2 (by rw [hm]; exact lt_irrefl _)
  rcases Nat.lt_trichotomy m' m with h | h | h
  · have hlt : m - 1 < roundMag n d := by rw [hm]; omega
    have h1 := (lt_roundMag_iff n hd (by omega)).1 hlt
    rw [show m - 1 + 1 = m by omega] at h1
    have h2 : magUnits m' * d ≤ magUnits (m - 1) * d := Nat.mul_le_mul_right _ (magUnits_le_iff.2 (by omega))
    have h3 : magUnits m' * d < magUnits m * d := Nat.mul_lt_mul_of_pos_right (magUnits_lt_iff.2 h) hd
    rw [Nat.add_mul] at h1
    have e : (magUnits m : Int) * d = ((magUnits m * d : Nat) : Int) := by push_cast; rfl
    have e' : (magUnits m' : Int) * d = ((magUnits m' * d : Nat) : Int) := by push_cast; rfl
    rw [e, e']
    generalize magUnits m * d = A at *
    generalize magUnits m' * d = B at *
    generalize magUnits (m - 1) * d = C at *
    rw [abs_of_nonpos (show (B : Int) - n ≤ 0 by omega)]
    refine ⟨abs_le.2 ⟨by omega, by omega⟩, fun he => .inr ?_⟩
    rcases abs_cases ((A : Int) - n) with ⟨ha, _⟩ | ⟨ha, _⟩ <;> rw [ha] at he <;> omega
  · subst h; exact ⟨le_rfl, fun _ => .inl rfl⟩
  · have h2 : magUnits (m + 1) * d ≤ magUnits m' * d := Nat.mul_le_mul_right _ (magUnits_le_iff.2 (by omega))
    have h3 : magUnits m * d < magUnits m' * d := Nat.mul_lt_mul_of_pos_right (magUnits_lt_iff.2 h) hd
    rw [Nat.add_mul] at hup
    have e : (magUnits m : Int) * d = ((magUnits m * d : Nat) : Int) := by push_cast; rfl
    have e' : (magUnits m' : Int) * d = ((magUnits m' * d : Nat) : Int) := by push_cast; rfl
    rw [e, e']
    generalize magUnits m * d = A at *
    generalize magUnits m' * d = B at *
    generalize magUnits (m + 1) * d = C at *
    rw [abs_of_nonneg (show (0 : Int) ≤ (B : Int) - n by omega)]
    refine ⟨abs_le.2 ⟨by omega, by omega⟩, fun he => .inr ?_⟩
    rcases abs_cases ((A : Int) - n) with ⟨ha, _⟩ | ⟨ha, _⟩ <;> rw [ha] at he <;> omega

/-! ## Comparison and clamps -/

theorem le_iff {a b : F32} : le a b = true ↔ isNaN a = false ∧ isNaN b = false ∧ key a ≤ key b := by
  simp [le, and_assoc]

theorem lt_iff {a b : F32} : lt a b = true ↔ isNaN a = false ∧ isNaN b = false ∧ key a < key b := by
  simp [lt, and_assoc]

/-- On finite data the order of the keys is the order of the values. -/
theorem key_lt_iff {a b : F32} : key a < key b ↔ val a < val b := by
  have h1 := magUnits_lt_iff (a := mag a) (b := mag b)
  have h2 := magUnits_lt_iff (a := mag b) (b := mag a)
  have h3 := magUnits_lt_iff (a := 0) (b := mag a)
  have h4 := magUnits_lt_iff (a := 0) (b := mag b)
  simp only [key, val, units_eq_magUnits, magUnits_zero] at *
  cases sign a <;> cases sign b <;> simp only [cond_true, cond_false] <;> omega

theorem key_le_iff {a b : F32} : key a ≤ key b ↔ val a ≤ val b := by
  rw [← not_lt, ← not_lt, key_lt_iff]

theorem le_refl_of_not_nan {a : F32} (h : isNaN a = false) : le a a = true := le_iff.2 ⟨h, h, le_rfl⟩

theorem le_trans' {a b c : F32} (h : le a b = true) (h' : le b c = true) : le a c = true := by
  rw [le_iff] at *; exact ⟨h.1, h'.2.1, h.2.2.trans h'.2.2⟩

/-- `CLAMP` returns a NaN or a value in its range (R19). -/
theorem clamp_range {v lo hi : F32} (h : le lo hi = true) :
    isNaN (clamp v lo hi) = true ∨ (le lo (clamp v lo hi) = true ∧ le (clamp v lo hi) hi = true) := by
  rw [le_iff] at h
  obtain ⟨hl, hh, hk⟩ := h
  unfold clamp
  by_cases hv : isNaN v = true
  · left; simp [lt, gt, hv]
  · have hv : isNaN v = false := by simpa using hv
    right
    split_ifs with h1 h2
    · exact ⟨le_iff.2 ⟨hl, hl, le_rfl⟩, le_iff.2 ⟨hl, hh, hk⟩⟩
    · exact ⟨le_iff.2 ⟨hl, hh, hk⟩, le_iff.2 ⟨hh, hh, le_rfl⟩⟩
    · simp only [lt, gt, hl, hh, hv, Bool.not_false, Bool.true_and, decide_eq_true_eq, not_lt] at h1 h2
      exact ⟨le_iff.2 ⟨hl, hv, h1⟩, le_iff.2 ⟨hv, hh, h2⟩⟩

/-- `FLOOR_AT` returns a NaN or a value of at least its floor (R19). -/
theorem floorAt_range {v lo : F32} (h : isNaN lo = false) :
    isNaN (floorAt v lo) = true ∨ le lo (floorAt v lo) = true := by
  unfold floorAt
  by_cases hv : isNaN v = true
  · left; simp [lt, hv]
  · have hv : isNaN v = false := by simpa using hv
    right
    split_ifs with h1
    · exact le_iff.2 ⟨h, h, le_rfl⟩
    · simp only [lt, h, hv, Bool.not_false, Bool.true_and, decide_eq_true_eq, not_lt] at h1
      exact le_iff.2 ⟨h, hv, h1⟩

theorem clamp_below {v lo hi : F32} (h : lt v lo = true) : clamp v lo hi = lo := by simp [clamp, h]

theorem clamp_above {v lo hi : F32} (h : lt v lo = false) (h' : lt hi v = true) : clamp v lo hi = hi := by
  simp [clamp, gt, h, h']

theorem clamp_between {v lo hi : F32} (h : lt v lo = false) (h' : lt hi v = false) : clamp v lo hi = v := by
  simp [clamp, gt, h, h']

theorem clamp_nan {v lo hi : F32} (h : isNaN v = true) : clamp v lo hi = v := by simp [clamp, lt, gt, h]

/-- A value at least `+0.0` has a clear sign bit or is a zero. -/
theorem le_zero_iff {a : F32} : le c0 a = true ↔ isNaN a = false ∧ (sign a = false ∨ mag a = 0) := by
  rw [le_iff]
  have h0 : key c0 = 0 := by decide
  have hn : isNaN c0 = false := by decide
  rw [h0]
  cases hs : sign a <;> simp [key, hs, hn]

end Sys2Proof.F32
end

