-- ==== Sys2Proof/Laws/Memory.lean ====
section
/-! SUPPORT. The laws of a Delay's sample memory: reads after writes, the element move of a growth, and that every
operation keeps the canonical form (20_memory.md R81; 41_delay.md R186). -/

namespace Sys2Proof.Machine

theorem Memory.wfFrom_cons {lo k : Nat} {v : F32} {m : Memory} :
    wfFrom lo ((k, v) :: m) = true ↔ lo ≤ k ∧ v ≠ unlisted ∧ wfFrom (k + 1) m = true := by
  simp [wfFrom, and_assoc]

theorem Memory.wfFrom_mono {m : Memory} {lo lo' : Nat} (h : lo' ≤ lo) (hm : wfFrom lo m = true) : wfFrom lo' m = true := by
  cases m with
  | nil => rfl
  | cons c m => rw [wfFrom_cons] at *; exact ⟨h.trans hm.1, hm.2⟩

/-- Below its lowest listed index a memory reads as unlisted. -/
theorem Memory.read_below {m : Memory} {lo k : Nat} (hm : wfFrom lo m = true) (hk : k < lo) : read m k = unlisted := by
  induction m generalizing lo with
  | nil => rfl
  | cons c m ih =>
    rw [wfFrom_cons] at hm
    rw [read, if_neg (by omega)]
    exact ih hm.2.2 (by omega)

/-- A write keeps the canonical form. -/
theorem Memory.wfFrom_write {m : Memory} {lo k : Nat} {v : F32} (hm : wfFrom lo m = true) (hk : lo ≤ k) :
    wfFrom lo (write m k v) = true := by
  induction m generalizing lo with
  | nil =>
    by_cases hv : v = unlisted <;> simp [write, hv, wfFrom, hk]
  | cons c m ih =>
    obtain ⟨a, x⟩ := c
    have h := wfFrom_cons.1 hm
    simp only [write]
    split_ifs with h1 h2 h3 h4
    · exact hm
    · exact wfFrom_cons.2 ⟨hk, h2, wfFrom_cons.2 ⟨by omega, h.2⟩⟩
    · exact wfFrom_mono (by omega) h.2.2
    · exact wfFrom_cons.2 ⟨h.1, h4, h.2.2⟩
    · exact wfFrom_cons.2 ⟨h.1, h.2.1, ih h.2.2 (by omega)⟩

theorem Memory.wf_write {m : Memory} (k : Nat) (v : F32) (hm : wf m = true) : wf (write m k v) = true :=
  wfFrom_write hm (Nat.zero_le k)

theorem Memory.wf_cleared : wf cleared = true := rfl

theorem Memory.read_cleared (k : Nat) : read cleared k = unlisted := rfl

/-- A read of the written element gives the value written. -/
theorem Memory.read_write_same {m : Memory} {lo : Nat} (k : Nat) (v : F32) (hm : wfFrom lo m = true) :
    read (write m k v) k = v := by
  induction m generalizing lo with
  | nil => by_cases hv : v = unlisted <;> simp [write, hv, read]
  | cons c m ih =>
    obtain ⟨a, x⟩ := c
    have h := wfFrom_cons.1 hm
    simp only [write]
    split_ifs with h1 h2 h3 h4
    · rw [read, if_neg (by omega), read_below h.2.2 (by omega), h2]
    · simp [read]
    · rw [read_below h.2.2 (by omega), h4]
    · simp [read, h3]
    · rw [read, if_neg (by omega), ih h.2.2]

/-- A write leaves every other element alone. -/
theorem Memory.read_write_other {m : Memory} {lo k j : Nat} (v : F32) (hm : wfFrom lo m = true) (hj : j ≠ k) :
    read (write m k v) j = read m j := by
  induction m generalizing lo with
  | nil =>
    by_cases hv : v = unlisted
    · simp [write, hv]
    · simp [write, hv, read, Ne.symm hj]
  | cons c m ih =>
    obtain ⟨a, x⟩ := c
    have h := wfFrom_cons.1 hm
    simp only [write]
    split_ifs with h1 h2 h3 h4
    · rfl
    · rw [read, if_neg (Ne.symm hj)]
    · rw [read, if_neg (by omega)]
    · rw [read, read, if_neg (by omega), if_neg (by omega)]
    · simp only [read, ih h.2.2]

theorem Memory.within_iff {m : Memory} {len : Nat} : within len m = true ↔ ∀ c ∈ m, c.1 < len := by
  simp [within]

theorem Memory.within_mono {m : Memory} {len len' : Nat} (h : len ≤ len') (hm : within len m = true) :
    within len' m = true := by
  rw [within_iff] at *; exact fun c hc => lt_of_lt_of_le (hm c hc) h

/-- A write below `len` stays below `len`. -/
theorem Memory.within_write {m : Memory} {len k : Nat} (v : F32) (hm : within len m = true) (hk : k < len) :
    within len (write m k v) = true := by
  induction m with
  | nil => by_cases hv : v = unlisted <;> simp [write, hv, within, hk]
  | cons c m ih =>
    obtain ⟨a, x⟩ := c
    rw [within_iff] at *
    have ha : a < len := hm (a, x) (by simp)
    have hm' : ∀ c ∈ m, c.1 < len := fun c hc => hm c (by simp [hc])
    have ih := ih hm'
    simp only [write]
    split_ifs <;> intro c hc <;> (try simp only [List.mem_cons] at hc)
    · exact hm c (by simpa using hc)
    · rcases hc with rfl | hc
      · exact hk
      · exact hm c (by simpa using hc)
    · exact hm' c hc
    · rcases hc with rfl | hc
      · exact ha
      · exact hm' c hc
    · rcases hc with rfl | hc
      · exact ha
      · exact within_iff.1 ih c hc

/-! ## The element move of a growth -/

theorem Memory.read_append {m m' : Memory} (k : Nat) (h : ∀ c ∈ m, c.1 ≠ k) : read (m ++ m') k = read m' k := by
  induction m with
  | nil => rfl
  | cons c m ih =>
    obtain ⟨a, x⟩ := c
    have ha : a ≠ k := h (a, x) (by simp)
    rw [List.cons_append, read, if_neg ha]
    exact ih fun c hc => h c (by simp [hc])

theorem Memory.read_of_not_listed {m : Memory} {k : Nat} (h : ∀ c ∈ m, c.1 ≠ k) : read m k = unlisted := by
  have e := read_append (m' := []) k h
  rwa [List.append_nil] at e

theorem Memory.read_append_left {m m' : Memory} {k : Nat} (h : ∀ c ∈ m', c.1 ≠ k) : read (m ++ m') k = read m k := by
  induction m with
  | nil => exact read_of_not_listed h
  | cons c m ih => simp only [List.cons_append, read, ih]

/-- Reading a part of the entries, moved by an injection on their indices, is reading the entry it came from. -/
theorem Memory.read_filter_map {m : Memory} (p : Nat → Bool) (g : Nat → Nat) {k : Nat} (hk : p k = true)
    (hg : ∀ c ∈ m, p c.1 = true → g c.1 = g k → c.1 = k) :
    read ((m.filter fun c => p c.1).map fun c => (g c.1, c.2)) (g k) = read m k := by
  induction m with
  | nil => rfl
  | cons c m ih =>
    obtain ⟨a, x⟩ := c
    have ih := ih fun c hc => hg c (by simp [hc])
    have ha := hg (a, x) (by simp)
    by_cases hp : p a = true
    · rw [List.filter_cons_of_pos (by simpa using hp), List.map_cons, read, read, ih]
      by_cases e : a = k
      · simp [e]
      · rw [if_neg fun h => e (ha hp h), if_neg e]
    · rw [List.filter_cons_of_neg (by simpa using hp), ih, read, if_neg]
      rintro rfl; exact hp hk

/-- After a growth position `i` of the old length holds the element `i` steps after the write cursor (41_delay.md R186). -/
theorem Memory.read_unroll {m : Memory} {len w i : Nat} (hm : within len m = true) (hw : w < len) (hi : i < len) :
    read (unroll len w m) i = read m ((w + i) % len) := by
  rw [within_iff] at hm
  unfold unroll
  by_cases h : w + i < len
  · rw [Nat.mod_eq_of_lt h, read_append_left]
    · have := read_filter_map (m := m) (fun a => decide (w ≤ a)) (fun a => a - w) (k := w + i) (by simp)
        (by intro c _ h1 h2; simp at h1; simp at h2; omega)
      simpa using this
    · intro c hc
      simp only [List.mem_map, List.mem_filter, decide_eq_true_eq] at hc
      obtain ⟨c', ⟨_, h1⟩, rfl⟩ := hc
      (try simp only); omega
  · have e : (w + i) % len = w + i - len := by
      rw [Nat.mod_eq_sub_mod (by omega), Nat.mod_eq_of_lt (by omega)]
    rw [e, read_append]
    · have := read_filter_map (m := m) (fun a => decide (a < w)) (fun a => a + len - w) (k := w + i - len)
        (by simp; omega)
        (by
          intro c hc h1 h2
          have := hm c hc
          simp only [decide_eq_true_eq] at h1
          omega)
      rwa [show w + i - len + len - w = i by omega] at this
    · intro c hc
      simp only [List.mem_map, List.mem_filter, decide_eq_true_eq] at hc
      obtain ⟨c', ⟨hc', h1⟩, rfl⟩ := hc
      have := hm c' hc'
      (try simp only); omega

/-- After a growth every position from the old length on is unlisted (41_delay.md R186). -/
theorem Memory.read_unroll_above {m : Memory} {len w i : Nat} (hm : within len m = true) (hw : w < len) (hi : len ≤ i) :
    read (unroll len w m) i = unlisted := by
  rw [within_iff] at hm
  apply read_of_not_listed
  intro c hc
  unfold unroll at hc
  simp only [List.mem_append, List.mem_map, List.mem_filter, decide_eq_true_eq] at hc
  rcases hc with ⟨c', ⟨hc', h1⟩, rfl⟩ | ⟨c', ⟨hc', h1⟩, rfl⟩ <;> have := hm c' hc' <;> simp only <;> omega

theorem Memory.within_unroll {m : Memory} {len w : Nat} (hm : within len m = true) (hw : w < len) :
    within len (unroll len w m) = true := by
  rw [within_iff] at *
  intro c hc
  unfold unroll at hc
  simp only [List.mem_append, List.mem_map, List.mem_filter, decide_eq_true_eq] at hc
  rcases hc with ⟨c', ⟨hc', h1⟩, rfl⟩ | ⟨c', ⟨hc', h1⟩, rfl⟩ <;> have := hm c' hc' <;> simp only <;> omega

/-- The entries from `w` on, moved down by `w`, in canonical form from any floor below them. -/
theorem Memory.wfFrom_upper {m : Memory} {lo w : Nat} (hm : wfFrom lo m = true) :
    wfFrom (lo - w) ((m.filter fun c => decide (w ≤ c.1)).map fun c => (c.1 - w, c.2)) = true := by
  induction m generalizing lo with
  | nil => rfl
  | cons c m ih =>
    obtain ⟨a, x⟩ := c
    obtain ⟨h1, h2, h3⟩ := wfFrom_cons.1 hm
    by_cases hw : w ≤ a
    · rw [List.filter_cons_of_pos (by simpa using hw), List.map_cons]
      refine wfFrom_cons.2 ⟨by (try simp only); omega, h2, ?_⟩
      have := ih h3
      rwa [show a + 1 - w = a - w + 1 by omega] at this
    · rw [List.filter_cons_of_neg (by simpa using hw)]
      exact wfFrom_mono (by omega) (ih h3)

theorem Memory.wfFrom_lower {m : Memory} {lo len w : Nat} (hm : wfFrom lo m = true) (hw : w ≤ len) :
    wfFrom (lo + len - w) ((m.filter fun c => decide (c.1 < w)).map fun c => (c.1 + len - w, c.2)) = true := by
  induction m generalizing lo with
  | nil => rfl
  | cons c m ih =>
    obtain ⟨a, x⟩ := c
    obtain ⟨h1, h2, h3⟩ := wfFrom_cons.1 hm
    by_cases hc : a < w
    · rw [List.filter_cons_of_pos (by simpa using hc), List.map_cons]
      refine wfFrom_cons.2 ⟨by (try simp only); omega, h2, ?_⟩
      have := ih h3
      rwa [show a + 1 + len - w = a + len - w + 1 by omega] at this
    · rw [List.filter_cons_of_neg (by simpa using hc)]
      exact wfFrom_mono (by omega) (ih h3)

theorem Memory.wfFrom_append {m m' : Memory} {lo mid : Nat} (hm : wfFrom lo m = true) (hm' : wfFrom mid m' = true)
    (h : ∀ c ∈ m, c.1 < mid) (hlo : lo ≤ mid) : wfFrom lo (m ++ m') = true := by
  induction m generalizing lo with
  | nil => exact wfFrom_mono hlo hm'
  | cons c m ih =>
    obtain ⟨a, x⟩ := c
    obtain ⟨h1, h2, h3⟩ := wfFrom_cons.1 hm
    have ha : a < mid := h (a, x) (by simp)
    exact wfFrom_cons.2 ⟨h1, h2, ih h3 (fun c hc => h c (by simp [hc])) ha⟩

/-- The element move of a growth keeps the canonical form. -/
theorem Memory.wf_unroll {m : Memory} {len w : Nat} (hm : wf m = true) (hin : within len m = true) (hw : w < len) :
    wf (unroll len w m) = true := by
  have h1 := wfFrom_upper (w := w) hm
  have h2 := wfFrom_lower (len := len) (w := w) hm (by omega)
  rw [Nat.zero_sub] at h1
  rw [Nat.zero_add] at h2
  refine wfFrom_append h1 h2 ?_ (Nat.zero_le _)
  intro c hc
  rw [within_iff] at hin
  simp only [List.mem_map, List.mem_filter, decide_eq_true_eq] at hc
  obtain ⟨c', ⟨hc', _⟩, rfl⟩ := hc
  have := hin c' hc'
  (try simp only); omega

end Sys2Proof.Machine
end

