-- ==== Sys2Proof/Laws/Range.lean ====
section
/-! SUPPORT. What the arithmetic operations return on finite data, and where results of nonnegative data lie
(00_scope.md R18; used for 44_envelope.md R285). -/

namespace Sys2Proof.F32

/-! ## The operations on finite data -/

theorem add_finite {a b : F32} (ha : isFinite a = true) (hb : isFinite b = true) :
    add a b = roundInt (sign a && sign b) (val a + val b) := by
  simp [add, finite_not_nan ha, finite_not_nan hb, finite_not_inf ha, finite_not_inf hb]

theorem sub_finite {a b : F32} (ha : isFinite a = true) (hb : isFinite b = true) :
    sub a b = roundInt (sign a && !sign b) (val a - val b) := by
  have hb' : isFinite (neg b) = true := by rw [isFinite_iff] at *; simpa using hb
  rw [sub, add_finite ha hb', sign_neg, val_neg, sub_eq_add_neg]

theorem mul_finite {a b : F32} (ha : isFinite a = true) (hb : isFinite b = true) :
    mul a b = roundQ (sign a != sign b) (units a * units b) oneUnits := by
  simp [mul, finite_not_nan ha, finite_not_nan hb, finite_not_inf ha, finite_not_inf hb]

theorem div_finite {a b : F32} (ha : isFinite a = true) (hb : isFinite b = true) (h0 : isZero b = false) :
    div a b = roundQ (sign a != sign b) (oneUnits * units a) (units b) := by
  simp [div, finite_not_nan ha, finite_not_nan hb, finite_not_inf ha, finite_not_inf hb, h0]

@[simp] theorem mag_zero (b : Bool) : mag (zero b) = 0 := mag_ofSignMag b (by decide)
@[simp] theorem sign_zero (b : Bool) : sign (zero b) = b := sign_ofSignMag b (by decide)
@[simp] theorem mag_inf (b : Bool) : mag (inf b) = infMag := mag_ofSignMag b (by decide)
@[simp] theorem sign_inf (b : Bool) : sign (inf b) = b := sign_ofSignMag b (by decide)

/-- The magnitude of a rounded integer. -/
theorem mag_roundInt (zn : Bool) (z : Int) : mag (roundInt zn z) = roundMag z.natAbs 1 := by
  unfold roundInt
  split
  · subst z; simp
  · simp

/-- The sign of a rounded integer. -/
theorem sign_roundInt (zn : Bool) (z : Int) : sign (roundInt zn z) = if z = 0 then zn else decide (z < 0) := by
  unfold roundInt
  split <;> simp

theorem isNaN_roundInt (zn : Bool) (z : Int) : isNaN (roundInt zn z) = false := by
  rw [isNaN_false_iff, mag_roundInt]; exact roundMag_le_infMag _ _

theorem units_pos {a : F32} (h : isZero a = false) : 0 < units a := by
  rw [units_eq_magUnits, ← magUnits_zero, magUnits_lt_iff]
  simp only [isZero, decide_eq_false_iff_not] at h; omega

/-! ## Nonnegative data -/

/-- A datum at least `+0.0` and at most the positive pattern `m`. -/
def Upto (m : Nat) (a : F32) : Prop := le c0 a = true ∧ mag a ≤ m

theorem key_of_le_zero {a : F32} (h : le c0 a = true) : key a = (mag a : Int) := by
  obtain ⟨_, h | h⟩ := le_zero_iff.1 h
  · simp [key, h]
  · cases hs : sign a <;> simp [key, h, hs]

theorem val_of_le_zero {a : F32} (h : le c0 a = true) : val a = (units a : Int) := by
  obtain ⟨_, h | h⟩ := le_zero_iff.1 h
  · simp [val, h]
  · have hu : units a = 0 := by rw [units_eq_magUnits, h, magUnits_zero]
    cases hs : sign a <;> simp [val, hu, hs]

/-- `0 <= a <= b` for a positive `b`, as magnitudes. -/
theorem upto_iff {a b : F32} (hb : le c0 b = true) : (le c0 a && le a b) = true ↔ Upto (mag b) a := by
  have hkb := key_of_le_zero hb
  obtain ⟨hnb, _⟩ := le_iff.1 hb |>.2
  constructor
  · intro h
    rw [Bool.and_eq_true] at h
    obtain ⟨h0, h1⟩ := h
    refine ⟨h0, ?_⟩
    have := (le_iff.1 h1).2.2
    rw [key_of_le_zero h0, hkb] at this
    omega
  · rintro ⟨h0, h1⟩
    rw [Bool.and_eq_true]
    refine ⟨h0, le_iff.2 ⟨(le_iff.1 h0).2.1, hnb, ?_⟩⟩
    rw [key_of_le_zero h0, hkb]; omega

theorem Upto.finite {m : Nat} {a : F32} (h : Upto m a) (hm : m < infMag) : isFinite a = true := by
  rw [isFinite_iff]; exact lt_of_le_of_lt h.2 hm

theorem Upto.units_le {m : Nat} {a : F32} (h : Upto m a) : units a ≤ magUnits m := by
  rw [units_eq_magUnits]; exact magUnits_le_iff.2 h.2

theorem le_zero_of_sign {a : F32} (hn : isNaN a = false) (hs : sign a = false ∨ mag a = 0) : le c0 a = true :=
  le_zero_iff.2 ⟨hn, hs⟩

/-- The sum of two nonnegative finite data. -/
theorem add_nonneg {a b : F32} (ha : le c0 a = true) (hb : le c0 b = true) (fa : isFinite a = true)
    (fb : isFinite b = true) : le c0 (add a b) = true ∧ mag (add a b) = roundMag (units a + units b) 1 := by
  rw [add_finite fa fb, val_of_le_zero ha, val_of_le_zero hb]
  have hm := mag_roundInt (sign a && sign b) ((units a : Int) + units b)
  rw [show ((units a : Int) + units b).natAbs = units a + units b by omega] at hm
  refine ⟨le_zero_of_sign (isNaN_roundInt _ _) ?_, hm⟩
  rw [sign_roundInt, hm]
  split
  · right
    rw [show units a + units b = 0 by omega, roundMag_zero]
  · left
    simp only [decide_eq_false_iff_not]; omega

/-- The difference `1.0 - s` of a datum of `[0, 1]`. -/
theorem one_sub {s : F32} (hs : Upto (mag c1) s) :
    le c0 (sub c1 s) = true ∧ mag (sub c1 s) = roundMag (oneUnits - units s) 1 := by
  have hu : units s ≤ oneUnits := by
    have := hs.units_le
    have e : magUnits (mag c1) = oneUnits := by decide +kernel
    omega
  have v1 : val c1 = (oneUnits : Int) := by decide +kernel
  rw [sub_finite (by decide) (hs.finite (by decide)), val_of_le_zero hs.1, v1]
  have hm := mag_roundInt (sign c1 && !sign s) ((oneUnits : Int) - units s)
  rw [show ((oneUnits : Int) - units s).natAbs = oneUnits - units s by omega] at hm
  refine ⟨le_zero_of_sign (isNaN_roundInt _ _) (.inl ?_), hm⟩
  rw [sign_roundInt]
  have s1 : sign c1 = false := by decide
  split
  · simp [s1]
  · simp only [decide_eq_false_iff_not]; omega

/-- The product of two nonnegative finite data. -/
theorem mul_nonneg {a b : F32} (ha : le c0 a = true) (hb : le c0 b = true) (fa : isFinite a = true)
    (fb : isFinite b = true) :
    le c0 (mul a b) = true ∧ mag (mul a b) = roundMag (units a * units b) oneUnits := by
  rw [mul_finite fa fb]
  refine ⟨le_zero_of_sign (isNaN_roundQ _ _ _) ?_, mag_roundQ _ _ _⟩
  rw [sign_roundQ, mag_roundQ]
  obtain ⟨_, ha | ha⟩ := le_zero_iff.1 ha
  · obtain ⟨_, hb | hb⟩ := le_zero_iff.1 hb
    · left; rw [ha, hb]; rfl
    · right; rw [units_eq_magUnits b, hb, magUnits_zero, Nat.mul_zero, roundMag_zero]
  · right; rw [units_eq_magUnits a, ha, magUnits_zero, Nat.zero_mul, roundMag_zero]

/-- A product with a factor of at most one is at most the other factor. -/
theorem mul_upto {m : Nat} {a b : F32} (ha : Upto m a) (hb : Upto (mag c1) b) (hm : m < infMag) : Upto m (mul a b) := by
  obtain ⟨h0, hmag⟩ := mul_nonneg ha.1 hb.1 (ha.finite hm) (hb.finite (by decide))
  refine ⟨h0, ?_⟩
  rw [hmag]
  have e : magUnits (mag c1) = oneUnits := by decide +kernel
  refine roundMag_le_of_le (by decide +kernel) hm ?_
  exact Nat.mul_le_mul ha.units_le (e ▸ hb.units_le)

/-- Two neighbouring patterns up to `1.0` are at most `2^-24` apart. -/
theorem magUnits_succ_le {m : Nat} (h : m < mag c1) : magUnits (m + 1) ≤ magUnits m + 2 ^ 125 := by
  have e : mag c1 = 127 * 2 ^ 23 := by decide
  rw [e] at h
  obtain ⟨sh, q, rfl, hq, hs⟩ := exists_pattern m
  rw [magUnits_pattern sh q (by omega) hs, Nat.add_assoc, magUnits_pattern sh (q + 1) (by omega) (by omega),
    Nat.add_mul, Nat.one_mul]
  have : sh ≤ 125 := by omega
  exact Nat.add_le_add_left (Nat.pow_le_pow_right (by decide) this) _

/-- A value of `[0, 1]` is rounded up by at most `2^-25`. -/
theorem roundMag_error {n : Nat} (h : n ≤ oneUnits) : magUnits (roundMag n 1) ≤ n + 2 ^ 124 := by
  have e : magUnits (mag c1) = oneUnits := by decide +kernel
  have hle : roundMag n 1 ≤ mag c1 := roundMag_le_of_le (by decide) (by decide) (by omega)
  rcases Nat.eq_zero_or_pos (roundMag n 1) with h0 | hpos
  · rw [h0, magUnits_zero]; exact Nat.zero_le _
  · have hlt : roundMag n 1 - 1 < roundMag n 1 := by omega
    have h1 := (lt_roundMag_iff n (by decide) (lt_of_lt_of_le hlt (hle.trans (by decide)))).1 hlt
    have h2 := magUnits_succ_le (m := roundMag n 1 - 1) (by omega)
    rw [show roundMag n 1 - 1 + 1 = roundMag n 1 by omega] at h1 h2
    have e2 : (2 : Nat) ^ 125 = 2 * 2 ^ 124 := by decide
    omega

/-- The curve `s + (1 - s) * r` of two data of `[0, 1]` stays in `[0, 1]` (44_envelope.md R285). -/
theorem curve_upto {s r : F32} (hs : Upto (mag c1) s) (hr : Upto (mag c1) r) :
    Upto (mag c1) (add s (mul (sub c1 s) r)) := by
  have e : magUnits (mag c1) = oneUnits := by decide +kernel
  obtain ⟨d0, dm⟩ := one_sub hs
  have hd : Upto (mag c1) (sub c1 s) := by
    refine ⟨d0, ?_⟩
    rw [dm]; exact roundMag_le_of_le (by decide) (by decide) (by omega)
  have hp : Upto (mag (sub c1 s)) (mul (sub c1 s) r) :=
    mul_upto ⟨d0, le_rfl⟩ hr (lt_of_le_of_lt hd.2 (by decide))
  obtain ⟨a0, am⟩ := add_nonneg hs.1 hp.1 (hs.finite (by decide))
    (hp.finite (lt_of_le_of_lt hd.2 (by decide)))
  refine ⟨a0, ?_⟩
  rw [am]
  by_contra hc
  have h1 := (lt_roundMag_iff _ (by decide) (by decide)).1 (not_le.1 hc)
  have h2 : units (mul (sub c1 s) r) ≤ magUnits (mag (sub c1 s)) := hp.units_le
  rw [dm] at h2
  have h3 := roundMag_error (n := oneUnits - units s) (by omega)
  have h4 := hs.units_le
  have e1 : magUnits (mag c1 + 1) = oneUnits + 2 ^ 126 := by decide +kernel
  have e2 : (2 : Nat) ^ 126 = 4 * 2 ^ 124 := by decide
  have e3 : 0 < (2 : Nat) ^ 124 := by decide
  omega

end Sys2Proof.F32
end

