-- ==== Sys2Proof/Laws/State.lean ====
section
/-! SUPPORT. One lemma per field per update of State, so that no proof unfolds a record update. -/

namespace Sys2Proof.Machine

/-! ## complete -/

@[simp] theorem State.complete_cfg (s : State) (v : Word) : (s.complete v).cfg = s.cfg := rfl
@[simp] theorem State.complete_data (s : State) (v : Word) : (s.complete v).data = s.data := rfl
@[simp] theorem State.complete_result (s : State) (v : Word) : (s.complete v).result = v := rfl
@[simp] theorem State.complete_status (s : State) (v : Word) : (s.complete v).status = statusOk := rfl
@[simp] theorem State.complete_chain (s : State) (v : Word) : (s.complete v).chain = s.chain := rfl
@[simp] theorem State.complete_envs (s : State) (v : Word) : (s.complete v).envs = s.envs := rfl
@[simp] theorem State.complete_sms (s : State) (v : Word) : (s.complete v).sms = s.sms := rfl
@[simp] theorem State.complete_pending (s : State) (v : Word) : (s.complete v).pending = s.pending := rfl
@[simp] theorem State.complete_pc (s : State) (v : Word) : (s.complete v).pc = s.pc := rfl
@[simp] theorem State.complete_hostRead (s : State) (v : Word) : (s.complete v).hostRead = s.hostRead := rfl

/-! ## completeCap -/

@[simp] theorem State.completeCap_cfg (s : State) (v : Word) (cap : Bool) : (s.completeCap v cap).cfg = s.cfg := rfl
@[simp] theorem State.completeCap_data (s : State) (v : Word) (cap : Bool) : (s.completeCap v cap).data = s.data := rfl
@[simp] theorem State.completeCap_result (s : State) (v : Word) (cap : Bool) : (s.completeCap v cap).result = v := rfl
@[simp] theorem State.completeCap_status (s : State) (v : Word) (cap : Bool) : (s.completeCap v cap).status = statusOf cap := rfl
@[simp] theorem State.completeCap_chain (s : State) (v : Word) (cap : Bool) : (s.completeCap v cap).chain = s.chain := rfl
@[simp] theorem State.completeCap_envs (s : State) (v : Word) (cap : Bool) : (s.completeCap v cap).envs = s.envs := rfl
@[simp] theorem State.completeCap_sms (s : State) (v : Word) (cap : Bool) : (s.completeCap v cap).sms = s.sms := rfl
@[simp] theorem State.completeCap_pending (s : State) (v : Word) (cap : Bool) : (s.completeCap v cap).pending = s.pending := rfl
@[simp] theorem State.completeCap_pc (s : State) (v : Word) (cap : Bool) : (s.completeCap v cap).pc = s.pc := rfl
@[simp] theorem State.completeCap_hostRead (s : State) (v : Word) (cap : Bool) : (s.completeCap v cap).hostRead = s.hostRead := rfl

/-! ## raiseIllegal -/

@[simp] theorem State.raiseIllegal_cfg (s : State) : (s.raiseIllegal).cfg = s.cfg := rfl
@[simp] theorem State.raiseIllegal_data (s : State) : (s.raiseIllegal).data = s.data := rfl
@[simp] theorem State.raiseIllegal_result (s : State) : (s.raiseIllegal).result = 0x00000000#32 := rfl
@[simp] theorem State.raiseIllegal_status (s : State) : (s.raiseIllegal).status = statusIll := rfl
@[simp] theorem State.raiseIllegal_chain (s : State) : (s.raiseIllegal).chain = s.chain := rfl
@[simp] theorem State.raiseIllegal_envs (s : State) : (s.raiseIllegal).envs = s.envs := rfl
@[simp] theorem State.raiseIllegal_sms (s : State) : (s.raiseIllegal).sms = s.sms := rfl
@[simp] theorem State.raiseIllegal_pending (s : State) : (s.raiseIllegal).pending = s.pending := rfl
@[simp] theorem State.raiseIllegal_pc (s : State) : (s.raiseIllegal).pc = s.pc := rfl
@[simp] theorem State.raiseIllegal_hostRead (s : State) : (s.raiseIllegal).hostRead = s.hostRead := rfl

/-! ## setSlot -/

@[simp] theorem State.setSlot_cfg (s : State) (idx : Nat) (e : Effect) : (s.setSlot idx e).cfg = s.cfg := rfl
@[simp] theorem State.setSlot_data (s : State) (idx : Nat) (e : Effect) : (s.setSlot idx e).data = s.data := rfl
@[simp] theorem State.setSlot_result (s : State) (idx : Nat) (e : Effect) : (s.setSlot idx e).result = s.result := rfl
@[simp] theorem State.setSlot_status (s : State) (idx : Nat) (e : Effect) : (s.setSlot idx e).status = s.status := rfl
@[simp] theorem State.setSlot_chain (s : State) (idx : Nat) (e : Effect) : (s.setSlot idx e).chain = s.chain.set idx e := rfl
@[simp] theorem State.setSlot_envs (s : State) (idx : Nat) (e : Effect) : (s.setSlot idx e).envs = s.envs := rfl
@[simp] theorem State.setSlot_sms (s : State) (idx : Nat) (e : Effect) : (s.setSlot idx e).sms = s.sms := rfl
@[simp] theorem State.setSlot_pending (s : State) (idx : Nat) (e : Effect) : (s.setSlot idx e).pending = s.pending := rfl
@[simp] theorem State.setSlot_pc (s : State) (idx : Nat) (e : Effect) : (s.setSlot idx e).pc = s.pc := rfl
@[simp] theorem State.setSlot_hostRead (s : State) (idx : Nat) (e : Effect) : (s.setSlot idx e).hostRead = s.hostRead := rfl

/-! ## setEnv -/

@[simp] theorem State.setEnv_cfg (s : State) (idx : Nat) (e : Envelope) : (s.setEnv idx e).cfg = s.cfg := rfl
@[simp] theorem State.setEnv_data (s : State) (idx : Nat) (e : Envelope) : (s.setEnv idx e).data = s.data := rfl
@[simp] theorem State.setEnv_result (s : State) (idx : Nat) (e : Envelope) : (s.setEnv idx e).result = s.result := rfl
@[simp] theorem State.setEnv_status (s : State) (idx : Nat) (e : Envelope) : (s.setEnv idx e).status = s.status := rfl
@[simp] theorem State.setEnv_chain (s : State) (idx : Nat) (e : Envelope) : (s.setEnv idx e).chain = s.chain := rfl
@[simp] theorem State.setEnv_envs (s : State) (idx : Nat) (e : Envelope) : (s.setEnv idx e).envs = s.envs.set idx e := rfl
@[simp] theorem State.setEnv_sms (s : State) (idx : Nat) (e : Envelope) : (s.setEnv idx e).sms = s.sms := rfl
@[simp] theorem State.setEnv_pending (s : State) (idx : Nat) (e : Envelope) : (s.setEnv idx e).pending = s.pending := rfl
@[simp] theorem State.setEnv_pc (s : State) (idx : Nat) (e : Envelope) : (s.setEnv idx e).pc = s.pc := rfl
@[simp] theorem State.setEnv_hostRead (s : State) (idx : Nat) (e : Envelope) : (s.setEnv idx e).hostRead = s.hostRead := rfl

/-! ## setSm -/

@[simp] theorem State.setSm_cfg (s : State) (idx : Nat) (x : Smoother) : (s.setSm idx x).cfg = s.cfg := rfl
@[simp] theorem State.setSm_data (s : State) (idx : Nat) (x : Smoother) : (s.setSm idx x).data = s.data := rfl
@[simp] theorem State.setSm_result (s : State) (idx : Nat) (x : Smoother) : (s.setSm idx x).result = s.result := rfl
@[simp] theorem State.setSm_status (s : State) (idx : Nat) (x : Smoother) : (s.setSm idx x).status = s.status := rfl
@[simp] theorem State.setSm_chain (s : State) (idx : Nat) (x : Smoother) : (s.setSm idx x).chain = s.chain := rfl
@[simp] theorem State.setSm_envs (s : State) (idx : Nat) (x : Smoother) : (s.setSm idx x).envs = s.envs := rfl
@[simp] theorem State.setSm_sms (s : State) (idx : Nat) (x : Smoother) : (s.setSm idx x).sms = s.sms.set idx x := rfl
@[simp] theorem State.setSm_pending (s : State) (idx : Nat) (x : Smoother) : (s.setSm idx x).pending = s.pending := rfl
@[simp] theorem State.setSm_pc (s : State) (idx : Nat) (x : Smoother) : (s.setSm idx x).pc = s.pc := rfl
@[simp] theorem State.setSm_hostRead (s : State) (idx : Nat) (x : Smoother) : (s.setSm idx x).hostRead = s.hostRead := rfl

/-! ## advance -/

@[simp] theorem State.advance_cfg (s : State) : (s.advance).cfg = s.cfg := rfl
@[simp] theorem State.advance_data (s : State) : (s.advance).data = s.data := rfl
@[simp] theorem State.advance_result (s : State) : (s.advance).result = s.result := rfl
@[simp] theorem State.advance_status (s : State) : (s.advance).status = s.status := rfl
@[simp] theorem State.advance_chain (s : State) : (s.advance).chain = s.chain := rfl
@[simp] theorem State.advance_envs (s : State) : (s.advance).envs = s.envs := rfl
@[simp] theorem State.advance_sms (s : State) : (s.advance).sms = s.sms := rfl
@[simp] theorem State.advance_pending (s : State) : (s.advance).pending = s.pending := rfl
@[simp] theorem State.advance_pc (s : State) : (s.advance).pc = s.pc + 1 := rfl
@[simp] theorem State.advance_hostRead (s : State) : (s.advance).hostRead = s.hostRead := rfl

/-! ## hostReads -/

@[simp] theorem State.hostReads_cfg (s : State) (r : HostReg) : (s.hostReads r).cfg = s.cfg := rfl
@[simp] theorem State.hostReads_data (s : State) (r : HostReg) : (s.hostReads r).data = s.data := rfl
@[simp] theorem State.hostReads_result (s : State) (r : HostReg) : (s.hostReads r).result = s.result := rfl
@[simp] theorem State.hostReads_status (s : State) (r : HostReg) : (s.hostReads r).status = s.status := rfl
@[simp] theorem State.hostReads_chain (s : State) (r : HostReg) : (s.hostReads r).chain = s.chain := rfl
@[simp] theorem State.hostReads_envs (s : State) (r : HostReg) : (s.hostReads r).envs = s.envs := rfl
@[simp] theorem State.hostReads_sms (s : State) (r : HostReg) : (s.hostReads r).sms = s.sms := rfl
@[simp] theorem State.hostReads_pending (s : State) (r : HostReg) : (s.hostReads r).pending = s.pending := rfl
@[simp] theorem State.hostReads_pc (s : State) (r : HostReg) : (s.hostReads r).pc = s.pc := rfl
@[simp] theorem State.hostReads_hostRead (s : State) (r : HostReg) : (s.hostReads r).hostRead = s.readReg r := rfl

/-! ## powerCycle -/

@[simp] theorem State.powerCycle_cfg (s : State) : (s.powerCycle).cfg = s.cfg := rfl
@[simp] theorem State.powerCycle_data (s : State) : (s.powerCycle).data = 0x00000000#32 := rfl
@[simp] theorem State.powerCycle_result (s : State) : (s.powerCycle).result = 0x00000000#32 := rfl
@[simp] theorem State.powerCycle_status (s : State) : (s.powerCycle).status = 0x00000000#32 := rfl
@[simp] theorem State.powerCycle_chain (s : State) : (s.powerCycle).chain = [] := rfl
@[simp] theorem State.powerCycle_envs (s : State) : (s.powerCycle).envs = List.replicate s.cfg.N_ENV (Envelope.powerOn s.cfg) := rfl
@[simp] theorem State.powerCycle_sms (s : State) : (s.powerCycle).sms = List.replicate s.cfg.N_SM (Smoother.powerOn s.cfg) := rfl
@[simp] theorem State.powerCycle_pending (s : State) : (s.powerCycle).pending = s.pending := rfl
@[simp] theorem State.powerCycle_pc (s : State) : (s.powerCycle).pc = s.pc := rfl
@[simp] theorem State.powerCycle_hostRead (s : State) : (s.powerCycle).hostRead = s.hostRead := rfl

/-! ## withFetchWord -/

@[simp] theorem State.withFetchWord_cfg (s : State) (nbits w : Nat) : (s.withFetchWord nbits w).cfg = s.cfg := rfl
@[simp] theorem State.withFetchWord_data (s : State) (nbits w : Nat) : (s.withFetchWord nbits w).data = s.data := rfl
@[simp] theorem State.withFetchWord_result (s : State) (nbits w : Nat) : (s.withFetchWord nbits w).result = s.result := rfl
@[simp] theorem State.withFetchWord_status (s : State) (nbits w : Nat) : (s.withFetchWord nbits w).status = s.status := rfl
@[simp] theorem State.withFetchWord_chain (s : State) (nbits w : Nat) : (s.withFetchWord nbits w).chain = s.chain := rfl
@[simp] theorem State.withFetchWord_envs (s : State) (nbits w : Nat) : (s.withFetchWord nbits w).envs = s.envs := rfl
@[simp] theorem State.withFetchWord_sms (s : State) (nbits w : Nat) : (s.withFetchWord nbits w).sms = s.sms := rfl
@[simp] theorem State.withFetchWord_pending (s : State) (nbits w : Nat) : (s.withFetchWord nbits w).pending = memWrite s.cfg .cmd (tableWord nbits w) :: s.pending := rfl
@[simp] theorem State.withFetchWord_pc (s : State) (nbits w : Nat) : (s.withFetchWord nbits w).pc = s.pc := rfl
@[simp] theorem State.withFetchWord_hostRead (s : State) (nbits w : Nat) : (s.withFetchWord nbits w).hostRead = s.hostRead := rfl

/-! ## hostWrites -/

@[simp] theorem State.hostWrites_cfg (s : State) (r : HostReg) (v : Word) : (s.hostWrites r v).cfg = s.cfg := by
  cases r <;> rfl
@[simp] theorem State.hostWrites_result (s : State) (r : HostReg) (v : Word) : (s.hostWrites r v).result = s.result := by
  cases r <;> rfl
@[simp] theorem State.hostWrites_status (s : State) (r : HostReg) (v : Word) : (s.hostWrites r v).status = s.status := by
  cases r <;> rfl
@[simp] theorem State.hostWrites_chain (s : State) (r : HostReg) (v : Word) : (s.hostWrites r v).chain = s.chain := by
  cases r <;> rfl
@[simp] theorem State.hostWrites_envs (s : State) (r : HostReg) (v : Word) : (s.hostWrites r v).envs = s.envs := by
  cases r <;> rfl
@[simp] theorem State.hostWrites_sms (s : State) (r : HostReg) (v : Word) : (s.hostWrites r v).sms = s.sms := by
  cases r <;> rfl
@[simp] theorem State.hostWrites_pending (s : State) (r : HostReg) (v : Word) : (s.hostWrites r v).pending = s.pending := by
  cases r <;> rfl
@[simp] theorem State.hostWrites_pc (s : State) (r : HostReg) (v : Word) : (s.hostWrites r v).pc = s.pc := by
  cases r <;> rfl
@[simp] theorem State.hostWrites_hostRead (s : State) (r : HostReg) (v : Word) : (s.hostWrites r v).hostRead = s.hostRead := by
  cases r <;> rfl

@[simp] theorem State.hostWrites_data_data (s : State) (v : Word) : (s.hostWrites .data v).data = v := rfl
@[simp] theorem State.hostWrites_cmd (s : State) (v : Word) : s.hostWrites .cmd v = s := rfl
@[simp] theorem State.hostWrites_result' (s : State) (v : Word) : s.hostWrites .result v = s := rfl
@[simp] theorem State.hostWrites_status' (s : State) (v : Word) : s.hostWrites .status v = s := rfl

/-! ## What the accessors read after an update -/

@[simp] theorem State.operand_advance (s : State) : s.advance.operand = s.operand := rfl
@[simp] theorem State.slot_advance (s : State) (idx : Nat) : s.advance.slot idx = s.slot idx := rfl
@[simp] theorem State.env_advance (s : State) (idx : Nat) : s.advance.env idx = s.env idx := rfl
@[simp] theorem State.sm_advance (s : State) (idx : Nat) : s.advance.sm idx = s.sm idx := rfl
@[simp] theorem State.count_advance (s : State) : s.advance.count = s.count := rfl

/-- There is an effect at `idx` exactly below `count` (10_state.md R37). -/
theorem State.slot_eq_none_iff (s : State) (idx : Nat) : s.slot idx = none ↔ s.count ≤ idx := by
  simp [State.slot, State.count]

theorem State.slot_lt {s : State} {idx : Nat} {e : Effect} (h : s.slot idx = some e) : idx < s.count := by
  by_contra hc
  rw [(s.slot_eq_none_iff idx).2 (not_lt.1 hc)] at h
  cases h

theorem State.slot_mem {s : State} {idx : Nat} {e : Effect} (h : s.slot idx = some e) : e ∈ s.chain :=
  List.mem_of_getElem? h

theorem State.env_some_iff (s : State) (idx : Nat) (e : Envelope) :
    s.env idx = some e ↔ idx < s.cfg.N_ENV ∧ s.envs[idx]? = some e := by
  unfold State.env; split <;> simp_all

theorem State.sm_some_iff (s : State) (idx : Nat) (x : Smoother) :
    s.sm idx = some x ↔ idx < s.cfg.N_SM ∧ s.sms[idx]? = some x := by
  unfold State.sm; split <;> simp_all

theorem State.env_mem {s : State} {idx : Nat} {e : Envelope} (h : s.env idx = some e) : e ∈ s.envs :=
  List.mem_of_getElem? ((s.env_some_iff idx e).1 h).2

theorem State.sm_mem {s : State} {idx : Nat} {x : Smoother} (h : s.sm idx = some x) : x ∈ s.sms :=
  List.mem_of_getElem? ((s.sm_some_iff idx x).1 h).2

end Sys2Proof.Machine
end

