-- ==== Sys2Proof/Laws/Invariant.lean ====
section
/-! SUPPORT. That each operation of a unit keeps the unit's invariant (10_state.md R40 to R46; the bounds of
44_envelope.md R285). -/

namespace Sys2Proof

/-! ## The configuration -/

theorem Cfg.valid_iff (c : Cfg) : c.valid = true ↔
    F32.isFinite c.SR = true ∧ F32.le F32.c20 c.cutoffMax = true ∧
    (1 ≤ c.CHAIN_CAP ∧ c.CHAIN_CAP ≤ 256) ∧ 1 ≤ c.DELAY_CAP ∧ (1 ≤ c.N_ENV ∧ c.N_ENV ≤ 256) ∧
    (1 ≤ c.N_SM ∧ c.N_SM ≤ 256) ∧ c.DSAMP c.DELAY_INIT.time + 1 ≤ c.DELAY_CAP := by
  simp [Cfg.valid, F32.ge, and_assoc]

/-- The sample rate of a valid configuration is a finite positive number of at least 32 (from the bound of 00_scope.md
R13). -/
theorem Cfg.valid_SR {c : Cfg} (h : c.valid = true) :
    F32.isFinite c.SR = true ∧ F32.sign c.SR = false ∧ 0x42000000 ≤ F32.mag c.SR := by
  obtain ⟨hf, hm, _⟩ := c.valid_iff.1 h
  have hk := (F32.le_iff.1 hm).2.2
  have k20 : F32.key F32.c20 = 0x41A00000 := by decide
  have s1 : F32.sign F32.c0p49 = false := by decide
  rw [Cfg.cutoffMax, F32.mul_finite (by decide) hf, k20, F32.key, F32.sign_roundQ, F32.mag_roundQ, s1] at hk
  have hs : F32.sign c.SR = false := by
    cases hs : F32.sign c.SR
    · rfl
    · rw [hs, show (false != true) = true from rfl, cond_true] at hk
      omega
  refine ⟨hf, hs, ?_⟩
  rw [hs, show (false != false) = false from rfl, cond_false] at hk
  by_contra hc
  have hu : F32.units c.SR ≤ F32.magUnits 0x42000000 := by
    rw [F32.units_eq_magUnits]; exact F32.magUnits_le_iff.2 (not_le.1 hc).le
  have h1 := F32.roundMag_mono (n := F32.units F32.c0p49 * F32.units c.SR) (d := F32.oneUnits)
    (n' := F32.units F32.c0p49 * F32.magUnits 0x42000000) (d' := F32.oneUnits) (by decide +kernel) (by decide +kernel)
    (Nat.mul_le_mul_right _ (Nat.mul_le_mul_left _ hu))
  have h2 : F32.roundMag (F32.units F32.c0p49 * F32.magUnits 0x42000000) F32.oneUnits < 0x41A00000 := by
    decide +kernel
  exact absurd (Int.ofNat_le.1 hk) (not_le.2 (lt_of_le_of_lt h1 h2))

/-- The tick of a valid configuration is a number from 0 to `2^-5`. -/
theorem Cfg.DT_upto {c : Cfg} (h : c.valid = true) : F32.Upto 0x3D000000 c.DT := by
  obtain ⟨hf, hs, hm⟩ := Cfg.valid_SR h
  have hz : F32.isZero c.SR = false := by simp only [F32.isZero, decide_eq_false_iff_not]; omega
  have s1 : F32.sign F32.c1 = false := by decide
  have u1 : F32.units F32.c1 = F32.oneUnits := by decide +kernel
  rw [Cfg.DT, F32.div_finite (by decide) hf hz]
  refine ⟨F32.le_zero_of_sign (F32.isNaN_roundQ _ _ _) (.inl ?_), ?_⟩
  · rw [F32.sign_roundQ, s1, hs]; rfl
  · rw [F32.mag_roundQ, u1]
    refine F32.roundMag_le_of_le (F32.units_pos hz) (by decide) ?_
    have hu : F32.magUnits 0x42000000 ≤ F32.units c.SR := by
      rw [F32.units_eq_magUnits]; exact F32.magUnits_le_iff.2 hm
    have e : F32.oneUnits * F32.oneUnits = F32.magUnits 0x3D000000 * F32.magUnits 0x42000000 := by decide +kernel
    rw [e]; exact Nat.mul_le_mul_left _ hu

end Sys2Proof

namespace Sys2Proof.Machine

theorem inRange_clamp {v lo hi : F32} (h : F32.le lo hi = true) : F32.inRange (F32.clamp v lo hi) lo hi = true := by
  rcases F32.clamp_range (v := v) h with h | ⟨h1, h2⟩ <;> simp [F32.inRange, *]

theorem atLeast_floorAt {v lo : F32} (h : F32.isNaN lo = false) : F32.atLeast (F32.floorAt v lo) lo = true := by
  rcases F32.floorAt_range (v := v) h with h | h <;> simp [F32.atLeast, h]

theorem atLeast_floorTime (v : F32) : F32.atLeast (floorTime v) F32.c0p001 = true := atLeast_floorAt (by decide)
theorem atLeast_floorHold (v : F32) : F32.atLeast (floorHold v) F32.c0 = true := atLeast_floorAt (by decide)
theorem inRange_clampSustain (v : F32) : F32.inRange (clampSustain v) F32.c0 F32.c1 = true :=
  inRange_clamp (by decide)
theorem inRange_clampFactor (v : F32) : F32.inRange (clampFactor v) F32.c0 F32.c1 = true := inRange_clamp (by decide)

/-! ## Filter -/

/-- A setter that recomputes the coefficients keeps the invariant. -/
theorem Filter.Inv_recompute {c : Cfg} {f : Filter} (h1 : F32.inRange f.cutoff F32.c20 c.cutoffMax = true)
    (h2 : F32.inRange f.resonance F32.c0p1 F32.c20 = true) : (Filter.recompute c f).Inv c := ⟨rfl, h1, h2⟩

theorem Filter.Inv_step {c : Cfg} {f : Filter} (h : f.Inv c) (x : F32) : (f.step x).1.Inv c :=
  ⟨h.coeffs, h.cutoff, h.resonance⟩

theorem Filter.Inv_reset {c : Cfg} {f : Filter} (h : f.Inv c) : f.reset.Inv c := ⟨h.coeffs, h.cutoff, h.resonance⟩

theorem Filter.Inv_construct {c : Cfg} (hv : c.valid = true) : (Filter.construct c).Inv c :=
  ⟨rfl, inRange_clamp (c.valid_iff.1 hv).2.1, inRange_clamp (by decide)⟩

theorem Filter.Inv_setp {c : Cfg} {f f' : Filter} {name : ParamName} {v : F32} (hv : c.valid = true) (h : f.Inv c)
    (hp : f.setp c name v = some f') : f'.Inv c := by
  cases name <;> simp only [Filter.setp, reduceCtorEq, Option.some.injEq] at hp <;> subst hp
  · exact Filter.Inv_recompute (inRange_clamp (c.valid_iff.1 hv).2.1) h.resonance
  · exact Filter.Inv_recompute h.cutoff (inRange_clamp (by decide))
  · exact Filter.Inv_recompute h.cutoff h.resonance

/-! ## Delay -/

theorem Delay.Inv_step {c : Cfg} {d : Delay} (h : d.Inv c) (x : F32) : (d.step x).1.Inv c where
  d_lt := h.d_lt
  wp_lt := Nat.mod_lt _ (by have := h.d_lt; show 0 < d.len; omega)
  len_le := h.len_le
  wf := Memory.wf_write _ _ h.wf
  within := Memory.within_write _ h.within h.wp_lt
  feedback := h.feedback
  mix := h.mix

theorem Delay.Inv_reset {c : Cfg} {d : Delay} (h : d.Inv c) : d.reset.Inv c where
  d_lt := h.d_lt
  wp_lt := by have := h.d_lt; show 0 < d.len; omega
  len_le := h.len_le
  wf := rfl
  within := rfl
  feedback := h.feedback
  mix := h.mix

theorem Delay.Inv_construct {c : Cfg} (hv : c.valid = true) : (Delay.construct c).Inv c where
  d_lt := Nat.lt_succ_self _
  wp_lt := Nat.succ_pos _
  len_le := (c.valid_iff.1 hv).2.2.2.2.2.2
  wf := rfl
  within := rfl
  feedback := inRange_clamp (by decide)
  mix := inRange_clamp (by decide)

theorem Delay.Inv_setTime {c : Cfg} {d : Delay} (hv : c.valid = true) (h : d.Inv c) (v : F32) : (d.setTime c v).Inv c := by
  have hcap := (c.valid_iff.1 hv).2.2.2.1
  have hn : c.DCAP (c.DSAMP v) ≤ c.DELAY_CAP - 1 := Nat.min_le_right _ _
  unfold Delay.setTime Delay.growFor
  generalize c.DCAP (c.DSAMP v) = n at *
  split
  · refine ⟨Nat.lt_succ_self _, Nat.succ_pos _, ?_, Memory.wf_unroll h.wf h.within h.wp_lt, ?_, h.feedback, h.mix⟩
    · show n + 1 ≤ c.DELAY_CAP; omega
    · exact Memory.within_mono (show d.len ≤ n + 1 by omega) (Memory.within_unroll h.within h.wp_lt)
  · exact ⟨not_le.1 ‹_›, h.wp_lt, h.len_le, h.wf, h.within, h.feedback, h.mix⟩

theorem Delay.Inv_setp {c : Cfg} {d : Delay} {p : Delay × Bool} {name : ParamName} {v : F32} (hv : c.valid = true)
    (h : d.Inv c) (hp : d.setp c name v = some p) : p.1.Inv c := by
  cases name <;> simp only [Delay.setp, reduceCtorEq, Option.some.injEq] at hp <;> subst hp
  · exact Delay.Inv_setTime hv h v
  · exact ⟨h.d_lt, h.wp_lt, h.len_le, h.wf, h.within, inRange_clamp (by decide), h.mix⟩
  · exact ⟨h.d_lt, h.wp_lt, h.len_le, h.wf, h.within, h.feedback, inRange_clamp (by decide)⟩

/-! ## Distortion -/

/-- The integer part of a number of at least 1 and at most 16 (42_distortion.md R222). -/
theorem truncInt_one_sixteen {b : F32} (h1 : F32.le F32.c1 b = true) (h2 : F32.le b F32.c16 = true) :
    1 ≤ (F32.truncInt b).toNat ∧ (F32.truncInt b).toNat ≤ 16 := by
  have h0 : F32.le F32.c0 b = true := F32.le_trans' (by decide) h1
  have k1 : F32.key F32.c1 = 0x3F800000 := by decide
  have k16 : F32.key F32.c16 = 0x41800000 := by decide
  have hk1 := (F32.le_iff.1 h1).2.2
  have hk2 := (F32.le_iff.1 h2).2.2
  rw [F32.key_of_le_zero h0, k1] at hk1
  rw [F32.key_of_le_zero h0, k16] at hk2
  have hn := (F32.le_iff.1 h1).2.1
  have hi : F32.isInf b = false := by
    rw [F32.isInf, decide_eq_false_iff_not, F32.infMag]; omega
  have hs : F32.sign b = false := by
    rcases (F32.le_zero_iff.1 h0).2 with h | h
    · exact h
    · omega
  have e : F32.truncInt b = (F32.truncMag b : Int) := by simp [F32.truncInt, hn, hi, hs]
  rw [e, Int.toNat_natCast, F32.truncMag, F32.units_eq_magUnits]
  have l1 : F32.magUnits 0x3F800000 ≤ F32.magUnits (F32.mag b) := F32.magUnits_le_iff.2 (by omega)
  have l2 : F32.magUnits (F32.mag b) ≤ F32.magUnits 0x41800000 := F32.magUnits_le_iff.2 (by omega)
  have e1 : F32.magUnits 0x3F800000 / F32.oneUnits = 1 := by decide +kernel
  have e2 : F32.magUnits 0x41800000 / F32.oneUnits = 16 := by decide +kernel
  exact ⟨e1 ▸ Nat.div_le_div_right l1, e2 ▸ Nat.div_le_div_right l2⟩

theorem bits_range (v : F32) : 1 ≤ F32.bits v ∧ F32.bits v ≤ 16 := by
  simp only [F32.bits]
  split
  · decide
  · rename_i hn
    rcases F32.clamp_range (v := v) (lo := F32.c1) (hi := F32.c16) (by decide) with h | ⟨h1, h2⟩
    · exact absurd h hn
    · exact truncInt_one_sixteen h1 h2

theorem Distortion.Inv_construct (c : Cfg) : (Distortion.construct c).Inv where
  drive := inRange_clamp (by decide)
  mix := inRange_clamp (by decide)
  outputGain := inRange_clamp (by decide)
  bitDepth := bits_range _

theorem Distortion.Inv_setp {z z' : Distortion} {name : ParamName} {v : F32} (h : z.Inv)
    (hp : z.setp name v = some z') : z'.Inv := by
  cases name <;> simp only [Distortion.setp, reduceCtorEq, Option.some.injEq] at hp <;> subst hp
  · exact ⟨h.drive, h.mix, h.outputGain, h.bitDepth⟩
  · exact ⟨h.drive, inRange_clamp (by decide), h.outputGain, h.bitDepth⟩
  · exact ⟨inRange_clamp (by decide), h.mix, h.outputGain, h.bitDepth⟩
  · exact ⟨h.drive, h.mix, inRange_clamp (by decide), h.bitDepth⟩
  · exact ⟨h.drive, h.mix, h.outputGain, bits_range _⟩

/-! ## Effects -/

theorem Effect.Inv_step {c : Cfg} {e : Effect} (h : e.Inv c) (x : F32) : (e.step c x).1.Inv c := by
  cases e with
  | filter f => exact Filter.Inv_step h x
  | delay d => exact Delay.Inv_step h x
  | distortion z => exact h

theorem Effect.Inv_reset {c : Cfg} {e : Effect} (h : e.Inv c) : e.reset.Inv c := by
  cases e with
  | filter f => exact Filter.Inv_reset h
  | delay d => exact Delay.Inv_reset h
  | distortion z => exact h

theorem Effect.Inv_setp {c : Cfg} {e e' : Effect} {name : ParamName} {v : F32} {cap : Bool} (hv : c.valid = true)
    (h : e.Inv c) (hp : e.setp c name v = some (e', cap)) : e'.Inv c := by
  cases e <;> simp only [Effect.setp, Option.map_eq_some_iff, Prod.mk.injEq] at hp <;> obtain ⟨_, hp, rfl, _⟩ := hp
  · exact Filter.Inv_setp hv h hp
  · exact Delay.Inv_setp hv h hp
  · exact Distortion.Inv_setp h hp

theorem Inv_construct {c : Cfg} {k : KindCode} {e : Effect} (hv : c.valid = true) (h : construct c k = some e) :
    e.Inv c := by
  cases k <;> simp only [construct, reduceCtorEq, Option.some.injEq] at h <;> subst h
  · exact Filter.Inv_construct hv
  · exact Delay.Inv_construct hv
  · exact Distortion.Inv_construct c

theorem chainStep_length (c : Cfg) (es : List Effect) (v : F32) : (chainStep c es v).1.length = es.length := by
  induction es generalizing v with
  | nil => rfl
  | cons e es ih => simp [chainStep, ih]

theorem chainStep_Inv {c : Cfg} {es : List Effect} (h : ∀ e ∈ es, e.Inv c) (v : F32) :
    ∀ e ∈ (chainStep c es v).1, e.Inv c := by
  induction es generalizing v with
  | nil => simp [chainStep]
  | cons e es ih =>
    simp only [List.mem_cons, forall_eq_or_imp] at h
    simp only [chainStep, List.mem_cons, forall_eq_or_imp]
    exact ⟨Effect.Inv_step h.1 v, ih h.2 _⟩

/-! ## Envelope -/

theorem upto_stageTime {e : Envelope} (h : e.Inv) : F32.Upto (F32.mag F32.stageTimeMax) e.stageTime :=
  (F32.upto_iff (by decide)).1 (by rw [h.stageTime, h.stageTimeMax]; rfl)

/-- The advance of the stage time keeps it at most `2^20`: there a tick is at most a quarter of the spacing. -/
theorem tick_upto {c : Cfg} {t : F32} (hv : c.valid = true) (h : F32.Upto (F32.mag F32.stageTimeMax) t) :
    F32.Upto (F32.mag F32.stageTimeMax) (F32.add t c.DT) := by
  have hd := Cfg.DT_upto hv
  obtain ⟨h0, hm⟩ := F32.add_nonneg h.1 hd.1 (h.finite (by decide)) (hd.finite (by decide))
  refine ⟨h0, ?_⟩
  rw [hm]
  by_contra hc
  have h1 := (F32.lt_roundMag_iff _ (by decide) (by decide)).1 (not_le.1 hc)
  have h2 := h.units_le
  have h3 := hd.units_le
  have e1 : F32.magUnits (F32.mag F32.stageTimeMax) = 2 ^ 169 := by decide +kernel
  have e2 : F32.magUnits (F32.mag F32.stageTimeMax + 1) = 2 ^ 169 + 2 ^ 146 := by decide +kernel
  have e3 : F32.magUnits 0x3D000000 = 2 ^ 144 := by decide +kernel
  have e4 : (2 : Nat) ^ 146 = 4 * 2 ^ 144 := by decide
  have e5 : 0 < (2 : Nat) ^ 144 := by decide
  rw [e1, e2] at h1
  rw [e1] at h2
  rw [e3] at h3
  rw [e4] at h1
  generalize (2 : Nat) ^ 169 = A at *
  generalize (2 : Nat) ^ 144 = B at *
  omega

/-- The invariant of an envelope whose stage time is new and whose parameters are kept. -/
theorem Envelope.Inv_of {e e' : Envelope} (h : e.Inv) (ha : e'.attack = e.attack) (hd : e'.decay = e.decay)
    (hh : e'.hold = e.hold) (hs : e'.sustain = e.sustain) (hr : e'.release = e.release)
    (ht : F32.Upto (F32.mag F32.stageTimeMax) e'.stageTime) : e'.Inv := by
  have := (F32.upto_iff (b := F32.stageTimeMax) (by decide)).2 ht
  rw [Bool.and_eq_true] at this
  exact ⟨ha ▸ h.attack, hd ▸ h.decay, hh ▸ h.hold, hs ▸ h.sustain, hr ▸ h.release, this.1, this.2⟩

theorem upto_zero : F32.Upto (F32.mag F32.stageTimeMax) F32.c0 := ⟨by decide, by decide⟩

/-- What one arm does to the parameters and the stage time (44_envelope.md R276 to R282). -/
theorem Envelope.arm_frame (c : Cfg) (e : Envelope) :
    (e.arm c).attack = e.attack ∧ (e.arm c).decay = e.decay ∧ (e.arm c).hold = e.hold ∧
    (e.arm c).sustain = e.sustain ∧ (e.arm c).release = e.release ∧ (e.arm c).startLevel = e.startLevel ∧
    ((e.arm c).stageTime = e.stageTime ∨ (e.arm c).stageTime = F32.c0) := by
  unfold Envelope.arm
  cases e.stage <;>
    simp only [Envelope.idleArm, Envelope.attackArm, Envelope.decayArm, Envelope.holdArm, Envelope.sustainArm,
      Envelope.releaseArm] <;> (try split) <;> simp

theorem Envelope.Inv_step {c : Cfg} {e : Envelope} (hv : c.valid = true) (h : e.Inv) : (e.step c).Inv := by
  obtain ⟨h1, h2, h3, h4, h5, _, h7⟩ := Envelope.arm_frame c (e.tick c)
  refine Envelope.Inv_of h h1 h2 h3 h4 h5 ?_
  rw [Envelope.step]
  rcases h7 with h7 | h7 <;> rw [h7]
  · exact tick_upto hv (upto_stageTime h)
  · exact upto_zero

theorem Envelope.Inv_trigger {e : Envelope} (h : e.Inv) : e.trigger.Inv :=
  Envelope.Inv_of h rfl rfl rfl rfl rfl upto_zero

theorem Envelope.Inv_releaseNow {e : Envelope} (h : e.Inv) : e.releaseNow.Inv := by
  unfold Envelope.releaseNow
  split
  · exact h
  · exact Envelope.Inv_of h rfl rfl rfl rfl rfl upto_zero

theorem Envelope.Inv_powerOn (c : Cfg) : (Envelope.powerOn c).Inv where
  attack := atLeast_floorAt (by decide)
  decay := atLeast_floorAt (by decide)
  hold := atLeast_floorAt (by decide)
  sustain := inRange_clamp (by decide)
  release := atLeast_floorAt (by decide)
  stageTime := by show F32.le F32.c0 F32.c0 = true; decide
  stageTimeMax := by show F32.le F32.c0 F32.stageTimeMax = true; decide

theorem Smoother.Inv_powerOn (c : Cfg) : (Smoother.powerOn c).Inv := inRange_clamp (by decide)

/-! ## The level of an envelope (44_envelope.md R285) -/

theorem upto_one_iff {v : F32} : F32.inUnit v = true ↔ F32.Upto (F32.mag F32.c1) v := F32.upto_iff (by decide)

/-- A time constant that is a number of at least `0.001`. -/
theorem atLeast_pos {t : F32} (h : F32.atLeast t F32.c0p001 = true) (hn : F32.isNaN t = false) :
    F32.sign t = false ∧ F32.isZero t = false := by
  rw [F32.atLeast, hn, Bool.false_or] at h
  have hk := (F32.le_iff.1 h).2.2
  have h0 : F32.le F32.c0 t = true := F32.le_trans' (by decide) h
  have k : F32.key F32.c0p001 = 0x3A83126F := by decide
  rw [F32.key_of_le_zero h0, k] at hk
  have hz : F32.mag t ≠ 0 := by omega
  refine ⟨(F32.le_zero_iff.1 h0).2.resolve_right hz, ?_⟩
  rw [F32.isZero, decide_eq_false_iff_not]; exact hz

/-- A nonnegative finite number over a positive time constant not below it is in `[0, 1]`. -/
theorem div_upto_one {st t : F32} (h0 : F32.le F32.c0 st = true) (hf : F32.isFinite st = true)
    (ht : F32.sign t = false ∧ F32.isZero t = false) (hn : F32.isNaN t = false) (hle : F32.key st ≤ F32.key t) :
    F32.Upto (F32.mag F32.c1) (F32.div st t) := by
  by_cases hi : F32.isInf t = true
  · have : F32.div st t = F32.zero (F32.sign st != F32.sign t) := by
      simp [F32.div, hi, hn, F32.finite_not_nan hf, F32.finite_not_inf hf]
    rw [this]
    exact ⟨F32.le_zero_of_sign (by cases (F32.sign st != F32.sign t) <;> decide) (.inr (by simp)), by simp⟩
  · have hft : F32.isFinite t = true := by
      simp only [F32.isFinite, F32.isInf, F32.isNaN, decide_eq_true_eq, decide_eq_false_iff_not] at *; omega
    rw [F32.div_finite hf hft ht.2]
    have hm : F32.mag st ≤ F32.mag t := by
      rw [F32.key_of_le_zero h0, F32.key, ht.1, cond_false] at hle; omega
    have e : F32.magUnits (F32.mag F32.c1) = F32.oneUnits := by decide +kernel
    refine ⟨F32.le_zero_of_sign (F32.isNaN_roundQ _ _ _) ?_, ?_⟩
    · rw [F32.sign_roundQ, F32.mag_roundQ, ht.1]
      rcases (F32.le_zero_iff.1 h0).2 with h | h
      · left; rw [h]; rfl
      · right; rw [F32.units_eq_magUnits, h, F32.magUnits_zero, Nat.mul_zero, F32.roundMag_zero]
    · rw [F32.mag_roundQ]
      refine F32.roundMag_le_of_le (F32.units_pos ht.2) (by decide) ?_
      rw [e]
      exact Nat.mul_le_mul_left _ (by
        rw [F32.units_eq_magUnits, F32.units_eq_magUnits]; exact F32.magUnits_le_iff.2 hm)

/-- The operand of `EXP32` is a number at most zero. -/
theorem exp_operand {st t : F32} (h : F32.Upto (F32.mag F32.stageTimeMax) st)
    (ht : F32.sign t = false ∧ F32.isZero t = false) (hn : F32.isNaN t = false) :
    F32.le (F32.div (F32.mul F32.cNeg5 st) t) F32.c0 = true := by
  have hf := h.finite (by decide)
  have s5 : F32.sign F32.cNeg5 = true := by decide
  have hm : F32.mul F32.cNeg5 st = F32.roundQ (true != F32.sign st) (F32.units F32.cNeg5 * F32.units st) F32.oneUnits := by
    rw [F32.mul_finite (by decide) hf, s5]
  have hb : F32.roundMag (F32.units F32.cNeg5 * F32.units st) F32.oneUnits < F32.infMag := by
    refine lt_of_le_of_lt (F32.roundMag_mono (n' := F32.units F32.cNeg5 * F32.magUnits (F32.mag F32.stageTimeMax))
      (d' := F32.oneUnits) (by decide +kernel) (by decide +kernel)
      (Nat.mul_le_mul_right _ (Nat.mul_le_mul_left _ h.units_le))) ?_
    decide +kernel
  have fm : F32.isFinite (F32.mul F32.cNeg5 st) = true := by rw [F32.isFinite_iff, hm, F32.mag_roundQ]; exact hb
  have hneg : F32.sign (F32.mul F32.cNeg5 st) = true ∨ F32.units (F32.mul F32.cNeg5 st) = 0 := by
    rcases (F32.le_zero_iff.1 h.1).2 with hs | hs
    · left; rw [hm, F32.sign_roundQ, hs]; rfl
    · right
      rw [F32.units_eq_magUnits, hm, F32.mag_roundQ, F32.units_eq_magUnits st, hs, F32.magUnits_zero, Nat.mul_zero,
        F32.roundMag_zero, F32.magUnits_zero]
  have k0 : F32.key F32.c0 = 0 := by decide
  by_cases hi : F32.isInf t = true
  · have : F32.div (F32.mul F32.cNeg5 st) t = F32.zero (F32.sign (F32.mul F32.cNeg5 st) != F32.sign t) := by
      simp [F32.div, hi, hn, F32.finite_not_nan fm, F32.finite_not_inf fm]
    rw [this]
    cases (F32.sign (F32.mul F32.cNeg5 st) != F32.sign t) <;> decide
  · have hft : F32.isFinite t = true := by
      simp only [F32.isFinite, F32.isInf, F32.isNaN, decide_eq_true_eq, decide_eq_false_iff_not] at *; omega
    rw [F32.div_finite fm hft ht.2]
    refine F32.le_iff.2 ⟨F32.isNaN_roundQ _ _ _, by decide, ?_⟩
    rw [k0, F32.key, F32.sign_roundQ, F32.mag_roundQ, ht.1]
    rcases hneg with hs | hs
    · rw [hs, show (true != false) = true from rfl, cond_true]; omega
    · rw [hs, Nat.mul_zero, F32.roundMag_zero]
      cases (F32.sign (F32.mul F32.cNeg5 st) != false) <;> decide

/-- Under `EXP_UNIT` a process keeps the level in `[0, 1]`. -/
theorem Envelope.Bounded_step {c : Cfg} {e : Envelope} (hv : c.valid = true) (hx : ExpUnit c) (hi : e.Inv)
    (hb : e.Bounded) : (e.step c).Bounded := by
  obtain ⟨h1, h2, h3, h4, h5, h6, _⟩ := Envelope.arm_frame c (e.tick c)
  have ht : F32.Upto (F32.mag F32.stageTimeMax) (e.tick c).stageTime := tick_upto hv (upto_stageTime hi)
  have hsus : F32.Upto (F32.mag F32.c1) e.sustain := by
    have := hi.sustain
    rw [F32.inRange, hb.sustain, Bool.false_or] at this
    exact upto_one_iff.1 this
  have hst : F32.Upto (F32.mag F32.c1) e.startLevel := upto_one_iff.1 hb.startLevel
  have hexp : ∀ t : F32, F32.atLeast t F32.c0p001 = true → F32.isNaN t = false →
      F32.Upto (F32.mag F32.c1) ((e.tick c).expFactor c t) := fun t h hn =>
    upto_one_iff.1 (hx _ (exp_operand ht (atLeast_pos h hn) hn))
  refine ⟨h1 ▸ hb.attack, h2 ▸ hb.decay, h3 ▸ hb.hold, h4 ▸ hb.sustain, h5 ▸ hb.release, upto_one_iff.2 ?_,
    h6 ▸ hb.startLevel⟩
  rw [Envelope.step, Envelope.arm]
  have z0 : F32.Upto (F32.mag F32.c1) F32.c0 := ⟨by decide, by decide⟩
  have z1 : F32.Upto (F32.mag F32.c1) F32.c1 := ⟨by decide, by decide⟩
  cases (e.tick c).stage
  · exact z0
  · simp only [Envelope.attackArm]
    split
    · exact z1
    · rename_i hge
      refine F32.curve_upto hst ?_
      have hpos := atLeast_pos hi.attack hb.attack
      refine div_upto_one ht.1 (ht.finite (by decide)) hpos hb.attack ?_
      have hn := (F32.le_iff.1 ht.1).2.1
      have : ¬ F32.key e.attack ≤ F32.key (e.tick c).stageTime := fun hk =>
        hge (F32.le_iff.2 ⟨hb.attack, hn, hk⟩)
      exact (not_le.1 this).le
  · simp only [Envelope.decayArm]
    split
    · exact hsus
    · exact F32.curve_upto hsus (hexp _ hi.decay hb.decay)
  · simp only [Envelope.holdArm]; split <;> exact hsus
  · exact hsus
  · simp only [Envelope.releaseArm]
    split
    · exact z0
    · exact F32.mul_upto hst (hexp _ hi.release hb.release) (by decide)

/-! ## The updates of the state -/

theorem State.Inv_complete {s : State} (h : s.Inv) (v : Word) : (s.complete v).Inv :=
  ⟨h.cfg, .inl rfl, h.count, h.chain, h.envCount, h.envs, h.smCount, h.sms⟩

theorem State.Inv_completeCap {s : State} (h : s.Inv) (v : Word) (cap : Bool) : (s.completeCap v cap).Inv :=
  ⟨h.cfg, by cases cap; exacts [.inl rfl, .inr (.inr rfl)], h.count, h.chain, h.envCount, h.envs, h.smCount, h.sms⟩

theorem State.Inv_raiseIllegal {s : State} (h : s.Inv) : s.raiseIllegal.Inv :=
  ⟨h.cfg, .inr (.inl rfl), h.count, h.chain, h.envCount, h.envs, h.smCount, h.sms⟩

theorem State.Inv_setSlot {s : State} {e : Effect} (h : s.Inv) (idx : Nat) (he : e.Inv s.cfg) : (s.setSlot idx e).Inv :=
  ⟨h.cfg, h.status, by simpa [State.count] using h.count,
    fun _ h' => (List.mem_or_eq_of_mem_set h').elim (h.chain _) fun hx => hx ▸ he,
    h.envCount, h.envs, h.smCount, h.sms⟩

theorem State.Inv_setEnv {s : State} {e : Envelope} (h : s.Inv) (idx : Nat) (he : e.Inv) : (s.setEnv idx e).Inv :=
  ⟨h.cfg, h.status, h.count, h.chain, by simpa using h.envCount,
    fun _ h' => (List.mem_or_eq_of_mem_set h').elim (h.envs _) fun hx => hx ▸ he, h.smCount, h.sms⟩

theorem State.Inv_setSm {s : State} {x : Smoother} (h : s.Inv) (idx : Nat) (hx : x.Inv) : (s.setSm idx x).Inv :=
  ⟨h.cfg, h.status, h.count, h.chain, h.envCount, h.envs, by simpa using h.smCount,
    fun _ h' => (List.mem_or_eq_of_mem_set h').elim (h.sms _) fun hy => hy ▸ hx⟩

theorem State.Inv_chain {s : State} {es : List Effect} (h : s.Inv) (hc : es.length ≤ s.cfg.CHAIN_CAP)
    (he : ∀ e ∈ es, e.Inv s.cfg) : ({ s with chain := es } : State).Inv :=
  ⟨h.cfg, h.status, hc, he, h.envCount, h.envs, h.smCount, h.sms⟩

end Sys2Proof.Machine
end

