-- ==== Sys2Proof/Laws/Ops.lean ====
section
/-! SUPPORT. What the shared operations can do, said once: the outcomes of a command on a unit, and that a unit command is
a function of that unit's content, `DATA` and the configuration (43_chain.md R255, 44_envelope.md R288, 45_smoother.md
R316). -/

namespace Sys2Proof.Machine

/-! ## Commands on a unit -/

/-- A command on a slot ends in one of two ways. -/
theorem onSlot_next {idx : Nat} {s t : State} {f : Effect → Effect × Word} (h : onSlot idx s f = .next t) :
    (s.slot idx = none ∧ t = s.raiseIllegal) ∨
      ∃ e, s.slot idx = some e ∧ t = (s.setSlot idx (f e).1).complete (f e).2 := by
  unfold onSlot at h
  split at h <;> injection h with h
  · exact .inl ⟨‹_›, h.symm⟩
  · exact .inr ⟨_, ‹_›, h.symm⟩

/-- A command on an envelope ends in one of two ways. -/
theorem onEnv_next {idx : Nat} {s t : State} {f : Envelope → Envelope × Word} (h : onEnv idx s f = .next t) :
    (s.env idx = none ∧ t = s.raiseIllegal) ∨
      ∃ e, s.env idx = some e ∧ t = (s.setEnv idx (f e).1).complete (f e).2 := by
  unfold onEnv at h
  split at h <;> injection h with h
  · exact .inl ⟨‹_›, h.symm⟩
  · exact .inr ⟨_, ‹_›, h.symm⟩

/-- A command on a smoother ends in one of two ways. -/
theorem onSm_next {idx : Nat} {s t : State} {f : Smoother → Smoother × Word} (h : onSm idx s f = .next t) :
    (s.sm idx = none ∧ t = s.raiseIllegal) ∨
      ∃ x, s.sm idx = some x ∧ t = (s.setSm idx (f x).1).complete (f x).2 := by
  unfold onSm at h
  split at h <;> injection h with h
  · exact .inl ⟨‹_›, h.symm⟩
  · exact .inr ⟨_, ‹_›, h.symm⟩

theorem onSlot_some {idx : Nat} {s : State} {f : Effect → Effect × Word} {e : Effect} (h : s.slot idx = some e) :
    onSlot idx s f = .next ((s.setSlot idx (f e).1).complete (f e).2) := by simp [onSlot, h]

theorem onEnv_some {idx : Nat} {s : State} {f : Envelope → Envelope × Word} {e : Envelope} (h : s.env idx = some e) :
    onEnv idx s f = .next ((s.setEnv idx (f e).1).complete (f e).2) := by simp [onEnv, h]

theorem onSm_some {idx : Nat} {s : State} {f : Smoother → Smoother × Word} {x : Smoother} (h : s.sm idx = some x) :
    onSm idx s f = .next ((s.setSm idx (f x).1).complete (f x).2) := by simp [onSm, h]

theorem onSlot_none {idx : Nat} {s : State} {f : Effect → Effect × Word} (h : s.slot idx = none) :
    onSlot idx s f = .next s.raiseIllegal := by simp [onSlot, h]

theorem onEnv_none {idx : Nat} {s : State} {f : Envelope → Envelope × Word} (h : s.env idx = none) :
    onEnv idx s f = .next s.raiseIllegal := by simp [onEnv, h]

theorem onSm_none {idx : Nat} {s : State} {f : Smoother → Smoother × Word} (h : s.sm idx = none) :
    onSm idx s f = .next s.raiseIllegal := by simp [onSm, h]

theorem execEfxSetp_some {idx : Nat} {name : ParamName} {s : State} {e e' : Effect} {cap : Bool}
    (h : s.slot idx = some e) (h' : e.setp s.cfg name s.operand = some (e', cap)) :
    execEfxSetp idx name s = .next ((s.setSlot idx e').completeCap (boolWord true) cap) := by
  simp [execEfxSetp, h, h']

theorem execEfxSetp_false {idx : Nat} {name : ParamName} {s : State} {e : Effect}
    (h : s.slot idx = some e) (h' : e.setp s.cfg name s.operand = none) :
    execEfxSetp idx name s = .next (s.complete (boolWord false)) := by simp [execEfxSetp, h, h']

theorem execEfxSetp_none {idx : Nat} {name : ParamName} {s : State} (h : s.slot idx = none) :
    execEfxSetp idx name s = .next (s.complete (boolWord false)) := by simp [execEfxSetp, h]

/-- `EFX.SETP` ends in one of three ways. -/
theorem execEfxSetp_next {idx : Nat} {name : ParamName} {s t : State} (h : execEfxSetp idx name s = .next t) :
    t = s.complete (boolWord false) ∨
      ∃ e e' cap, s.slot idx = some e ∧ e.setp s.cfg name s.operand = some (e', cap) ∧
        t = (s.setSlot idx e').completeCap (boolWord true) cap := by
  unfold execEfxSetp at h
  split at h
  · injection h with h; exact .inl h.symm
  · split at h <;> injection h with h
    · exact .inl h.symm
    · exact .inr ⟨_, _, _, ‹_›, ‹_›, h.symm⟩

/-! ## A unit command as a function of its unit -/

/-- Setting a position to a function of what it holds. -/
theorem set_eq_modify {α : Type} {l : List α} {idx : Nat} {x : α} (h : l[idx]? = some x) (f : α → α) :
    l.set idx (f x) = l.modify idx f := by
  obtain ⟨hi, rfl⟩ := List.getElem?_eq_some_iff.1 h
  apply List.ext_getElem? fun j => ?_
  rw [List.getElem?_set, List.getElem?_modify]
  by_cases hj : idx = j
  · subst hj; simp [hi]
  · simp [hj]

/-- A command on a slot is a change of that slot alone, decided by the slot, `DATA` and the configuration. -/
theorem exec_slot {i : Instr} {idx : Nat} (h : unitOf i = some (.slot idx)) :
    ∃ g : Cfg → F32 → Option Effect → (Effect → Effect) × Word × Word, ∀ s, exec i s =
      .next { s with
        chain := s.chain.modify idx (g s.cfg s.data (s.slot idx)).1,
        result := (g s.cfg s.data (s.slot idx)).2.1, status := (g s.cfg s.data (s.slot idx)).2.2 } := by
  have key : ∀ f : Cfg → F32 → Effect → Effect × Word,
      ∃ g : Cfg → F32 → Option Effect → (Effect → Effect) × Word × Word, ∀ s : State, onSlot idx s (f s.cfg s.data) =
      .next { s with
        chain := s.chain.modify idx (g s.cfg s.data (s.slot idx)).1,
        result := (g s.cfg s.data (s.slot idx)).2.1, status := (g s.cfg s.data (s.slot idx)).2.2 } := by
    intro f
    refine ⟨fun c v o => (fun e => (f c v e).1,
      match o with
      | none => (0x00000000#32, statusIll)
      | some e => ((f c v e).2, statusOk)), fun s => ?_⟩
    cases hs : s.slot idx with
    | none =>
      rw [onSlot_none hs]
      have hlen : s.chain.length ≤ idx := (s.slot_eq_none_iff idx).1 hs
      simp [State.raiseIllegal, List.modify_eq_self hlen]
    | some e =>
      rw [onSlot_some hs]
      simp [State.setSlot, State.complete, set_eq_modify (f := fun e => (f s.cfg s.data e).1) hs]
  cases i <;> simp only [unitOf, reduceCtorEq, Option.some.injEq, UnitRef.slot.injEq] at h
  case efxProc j => subst h; exact key fun c v e => e.step c v
  case efxRst j => subst h; exact key fun _ _ e => (e.reset, 0x00000000#32)
  case efxName j => subst h; exact key fun _ _ e => (e, natWord e.name)
  case efxSetp j name =>
    subst h
    refine ⟨fun c v o =>
      match o with
      | none => (id, 0x00000000#32, statusOk)
      | some e =>
        match e.setp c name v with
        | none => (id, 0x00000000#32, statusOk)
        | some (e', cap) => (fun _ => e', 0x00000001#32, statusOf cap), fun s => ?_⟩
    show execEfxSetp j name s = _
    cases hs : s.slot j with
    | none => rw [execEfxSetp_none hs]; simp [State.complete, boolWord, List.modify_id]
    | some e =>
      cases hp : e.setp s.cfg name s.operand with
      | none =>
        rw [execEfxSetp_false hs hp]
        rw [State.operand] at hp
        simp [State.complete, boolWord, List.modify_id, hp]
      | some p =>
        obtain ⟨e', cap⟩ := p
        rw [execEfxSetp_some hs hp]
        rw [State.operand] at hp
        simp [State.completeCap, State.setSlot, boolWord, hp, set_eq_modify (f := fun _ => e') hs]

/-- A command on an envelope is a change of that envelope alone. -/
theorem exec_env {i : Instr} {idx : Nat} (h : unitOf i = some (.env idx)) :
    ∃ f : Cfg → F32 → Envelope → Envelope × Word, ∀ s, exec i s = onEnv idx s (f s.cfg s.data) := by
  cases i <;> simp only [unitOf, reduceCtorEq, Option.some.injEq, UnitRef.env.injEq] at h
  case envSeta j => subst h; exact ⟨fun _ v e => ({ e with attack := floorTime v }, 0x00000000#32), fun _ => rfl⟩
  case envSetd j => subst h; exact ⟨fun _ v e => ({ e with decay := floorTime v }, 0x00000000#32), fun _ => rfl⟩
  case envSeth j => subst h; exact ⟨fun _ v e => ({ e with hold := floorHold v }, 0x00000000#32), fun _ => rfl⟩
  case envSets j => subst h; exact ⟨fun _ v e => ({ e with sustain := clampSustain v }, 0x00000000#32), fun _ => rfl⟩
  case envSetr j => subst h; exact ⟨fun _ v e => ({ e with release := floorTime v }, 0x00000000#32), fun _ => rfl⟩
  case envTrig j => subst h; exact ⟨fun _ _ e => (e.trigger, 0x00000000#32), fun _ => rfl⟩
  case envRel j => subst h; exact ⟨fun _ _ e => (e.releaseNow, 0x00000000#32), fun _ => rfl⟩
  case envProc j => subst h; exact ⟨fun c _ e => (e.step c, (e.step c).level), fun _ => rfl⟩
  case envActive j => subst h; exact ⟨fun _ _ e => (e, boolWord (decide (e.stage ≠ .idle))), fun _ => rfl⟩

/-- A command on a smoother is a change of that smoother alone. -/
theorem exec_sm {i : Instr} {idx : Nat} (h : unitOf i = some (.sm idx)) :
    ∃ f : Cfg → F32 → Smoother → Smoother × Word, ∀ s, exec i s = onSm idx s (f s.cfg s.data) := by
  cases i <;> simp only [unitOf, reduceCtorEq, Option.some.injEq, UnitRef.sm.injEq] at h
  case smTgt j => subst h; exact ⟨fun _ v x => ({ x with target := v }, 0x00000000#32), fun _ => rfl⟩
  case smFact j => subst h; exact ⟨fun _ v x => ({ x with factor := clampFactor v }, 0x00000000#32), fun _ => rfl⟩
  case smProc j => subst h; exact ⟨fun _ _ x => (x.step, x.step.current), fun _ => rfl⟩
  case smRst j => subst h; exact ⟨fun _ v x => ({ x with current := v, target := v }, 0x00000000#32), fun _ => rfl⟩
  case smClose j => subst h; exact ⟨fun _ v x => (x, boolWord (x.isClose v)), fun _ => rfl⟩

/-- A command on an envelope in the form of `exec_slot`. -/
theorem exec_env_modify {i : Instr} {idx : Nat} (h : unitOf i = some (.env idx)) :
    ∃ g : Cfg → F32 → Option Envelope → (Envelope → Envelope) × Word × Word, ∀ s, exec i s =
      .next { s with
        envs := s.envs.modify idx (g s.cfg s.data (s.env idx)).1,
        result := (g s.cfg s.data (s.env idx)).2.1, status := (g s.cfg s.data (s.env idx)).2.2 } := by
  obtain ⟨f, hf⟩ := exec_env h
  refine ⟨fun c v o =>
    match o with
    | none => (id, 0x00000000#32, statusIll)
    | some e => (fun e => (f c v e).1, (f c v e).2, statusOk), fun s => ?_⟩
  rw [hf]
  cases hs : s.env idx with
  | none => rw [onEnv_none hs]; simp [State.raiseIllegal, List.modify_id]
  | some e =>
    rw [onEnv_some hs]
    simp [State.setEnv, State.complete,
      set_eq_modify (f := fun e => (f s.cfg s.data e).1) ((s.env_some_iff idx e).1 hs).2]

/-- A command on a smoother in the form of `exec_slot`. -/
theorem exec_sm_modify {i : Instr} {idx : Nat} (h : unitOf i = some (.sm idx)) :
    ∃ g : Cfg → F32 → Option Smoother → (Smoother → Smoother) × Word × Word, ∀ s, exec i s =
      .next { s with
        sms := s.sms.modify idx (g s.cfg s.data (s.sm idx)).1,
        result := (g s.cfg s.data (s.sm idx)).2.1, status := (g s.cfg s.data (s.sm idx)).2.2 } := by
  obtain ⟨f, hf⟩ := exec_sm h
  refine ⟨fun c v o =>
    match o with
    | none => (id, 0x00000000#32, statusIll)
    | some x => (fun x => (f c v x).1, (f c v x).2, statusOk), fun s => ?_⟩
  rw [hf]
  cases hs : s.sm idx with
  | none => rw [onSm_none hs]; simp [State.raiseIllegal, List.modify_id]
  | some x =>
    rw [onSm_some hs]
    simp [State.setSm, State.complete,
      set_eq_modify (f := fun x => (f s.cfg s.data x).1) ((s.sm_some_iff idx x).1 hs).2]

/-! ## Host accesses -/

/-- With a word-aligned `BASE` an access the model's host makes reaches its register (30_encoding.md R100). -/
theorem accessReg_offset {c : Cfg} (hb : c.BASE % 4 = 0) (r : HostReg) (k : AccessKind) :
    accessReg c { addr := c.BASE + r.offset, bytes := 4, kind := k } = some r := by
  cases r <;> simp [accessReg, HostReg.offset, HostReg.atOffset] <;> omega

/-- Which accesses reach a register (20_memory.md R84). -/
theorem accessReg_isSome_iff (c : Cfg) (a : HostAccess) :
    (accessReg c a).isSome = true ↔ a.bytes = 4 ∧ a.addr % 4 = 0 ∧
      (a.addr = c.BASE + 0x0 ∨ a.addr = c.BASE + 0x4 ∨ a.addr = c.BASE + 0x8 ∨ a.addr = c.BASE + 0xC) := by
  unfold accessReg HostReg.atOffset
  split_ifs <;> simp <;> omega

/-- A step with an event waiting. -/
theorem step_pending {s : State} {ev : HostEvent} {rest : List HostEvent} (hv : s.cfg.valid = true)
    (h : s.pending = ev :: rest) : step s = eventStep ev { s with pending := rest } := by
  simp [step, hv, h]

/-- A step with a register write waiting. -/
theorem step_memWrite {s : State} {r : HostReg} {w : Word} {rest : List HostEvent} (hv : s.cfg.valid = true)
    (hb : s.cfg.BASE % 4 = 0) (h : s.pending = memWrite s.cfg r w :: rest) :
    step s = accessStep r (.write w) { s with pending := rest } := by
  rw [step_pending hv h]
  simp [eventStep, memWrite, accessReg_offset hb]

/-- A step with a register read waiting. -/
theorem step_memRead {s : State} {r : HostReg} {rest : List HostEvent} (hv : s.cfg.valid = true)
    (hb : s.cfg.BASE % 4 = 0) (h : s.pending = memRead s.cfg r :: rest) :
    step s = .next ({ s with pending := rest }.hostReads r) := by
  rw [step_pending hv h]
  simp [eventStep, memRead, accessReg_offset hb, accessStep]

end Sys2Proof.Machine
end

