-- ==== Sys2Proof/Laws/PerInstr.lean ====
section
/-! SUPPORT. Laws stated of every command as syntax: its word has the fixed bits that spec/opcode_table.json gives its row. -/

namespace Sys2Proof.Laws

/-- Bits `hi:lo` of a command word hold `value`. -/
structure FixedBits where
  hi : Nat
  lo : Nat
  value : Nat

/-- The word has the fixed bits. -/
def FixedBits.holds (f : FixedBits) (w : Word) : Prop := w.toNat / 2 ^ f.lo % 2 ^ (f.hi + 1 - f.lo) = f.value

/-- The `fixed` column of spec/opcode_table.json. -/
def fixedBits : Instr → List FixedBits
  | .nop => [⟨31, 0, 0x0⟩]
  | .efxProc _ => [⟨15, 0, 0x0⟩, ⟨31, 24, 0x10⟩]
  | .efxRst _ => [⟨15, 0, 0x0⟩, ⟨31, 24, 0x11⟩]
  | .efxSetp _ _ => [⟨7, 0, 0x0⟩, ⟨31, 24, 0x12⟩]
  | .efxName _ => [⟨15, 0, 0x0⟩, ⟨31, 24, 0x13⟩]
  | .chAdd _ => [⟨7, 0, 0x0⟩, ⟨31, 16, 0x2000⟩]
  | .chRem _ => [⟨15, 0, 0x0⟩, ⟨31, 24, 0x21⟩]
  | .chProc => [⟨31, 0, 0x22000000⟩]
  | .chRstall => [⟨31, 0, 0x23000000⟩]
  | .chCount => [⟨31, 0, 0x24000000⟩]
  | .envSeta _ => [⟨15, 0, 0x0⟩, ⟨31, 24, 0x30⟩]
  | .envSetd _ => [⟨15, 0, 0x0⟩, ⟨31, 24, 0x31⟩]
  | .envSeth _ => [⟨15, 0, 0x0⟩, ⟨31, 24, 0x32⟩]
  | .envSets _ => [⟨15, 0, 0x0⟩, ⟨31, 24, 0x33⟩]
  | .envSetr _ => [⟨15, 0, 0x0⟩, ⟨31, 24, 0x34⟩]
  | .envTrig _ => [⟨15, 0, 0x0⟩, ⟨31, 24, 0x35⟩]
  | .envRel _ => [⟨15, 0, 0x0⟩, ⟨31, 24, 0x36⟩]
  | .envProc _ => [⟨15, 0, 0x0⟩, ⟨31, 24, 0x37⟩]
  | .envActive _ => [⟨15, 0, 0x0⟩, ⟨31, 24, 0x38⟩]
  | .smTgt _ => [⟨15, 0, 0x0⟩, ⟨31, 24, 0x40⟩]
  | .smFact _ => [⟨15, 0, 0x0⟩, ⟨31, 24, 0x41⟩]
  | .smProc _ => [⟨15, 0, 0x0⟩, ⟨31, 24, 0x42⟩]
  | .smRst _ => [⟨15, 0, 0x0⟩, ⟨31, 24, 0x43⟩]
  | .smClose _ => [⟨15, 0, 0x0⟩, ⟨31, 24, 0x44⟩]

/-- The law of the family: the word of a command has its row's fixed bits. -/
def EncodesInTable.Statement (i : Instr) : Prop := ∀ f ∈ fixedBits i, f.holds (encode i)

/-- The word of a command with an index and no selector. -/
theorem indexed_holds {op : Nat} (h : op < 256) (idx : Nat) :
    ∀ f ∈ [FixedBits.mk 15 0 0, FixedBits.mk 31 24 op], f.holds (packFields op idx 0 0) := by
  intro f hf
  simp only [List.mem_cons, List.not_mem_nil, or_false] at hf
  rcases hf with rfl | rfl <;> simp only [FixedBits.holds, packFields, BitVec.toNat_ofNat] <;> omega

/-- The word of a command with a selector and no index. -/
theorem selected_holds {op : Nat} (h : op < 256) (sel : Nat) :
    ∀ f ∈ [FixedBits.mk 7 0 0, FixedBits.mk 31 16 (op * 256)], f.holds (packFields op 0 sel 0) := by
  intro f hf
  simp only [List.mem_cons, List.not_mem_nil, or_false] at hf
  rcases hf with rfl | rfl <;> simp only [FixedBits.holds, packFields, BitVec.toNat_ofNat] <;> omega

/-- The word of a command with an index and a selector. -/
theorem indexedSelected_holds {op : Nat} (h : op < 256) (idx sel : Nat) :
    ∀ f ∈ [FixedBits.mk 7 0 0, FixedBits.mk 31 24 op], f.holds (packFields op idx sel 0) := by
  intro f hf
  simp only [List.mem_cons, List.not_mem_nil, or_false] at hf
  rcases hf with rfl | rfl <;> simp only [FixedBits.holds, packFields, BitVec.toNat_ofNat] <;> omega

/-- The word of a command with neither. -/
theorem plain_holds {op : Nat} (h : op < 256) :
    ∀ f ∈ [FixedBits.mk 31 0 (op * 2 ^ 24)], f.holds (packFields op 0 0 0) := by
  intro f hf
  simp only [List.mem_cons, List.not_mem_nil, or_false] at hf
  subst hf
  simp only [FixedBits.holds, packFields, BitVec.toNat_ofNat]; omega

theorem EncodesInTable.nop : EncodesInTable.Statement .nop :=
  plain_holds (op := 0x00) (by decide)

theorem EncodesInTable.efxProc (x : Nat) : EncodesInTable.Statement (.efxProc x) := indexed_holds (by decide) x

theorem EncodesInTable.efxRst (x : Nat) : EncodesInTable.Statement (.efxRst x) := indexed_holds (by decide) x

theorem EncodesInTable.efxSetp (x : Nat) (name : ParamName) : EncodesInTable.Statement (.efxSetp x name) := indexedSelected_holds (by decide) x name.id

theorem EncodesInTable.efxName (x : Nat) : EncodesInTable.Statement (.efxName x) := indexed_holds (by decide) x

theorem EncodesInTable.chAdd (kind : KindCode) : EncodesInTable.Statement (.chAdd kind) := 
  selected_holds (op := 0x20) (by decide) kind.code

theorem EncodesInTable.chRem (x : Nat) : EncodesInTable.Statement (.chRem x) := indexed_holds (by decide) x

theorem EncodesInTable.chProc : EncodesInTable.Statement .chProc :=
  plain_holds (op := 0x22) (by decide)

theorem EncodesInTable.chRstall : EncodesInTable.Statement .chRstall :=
  plain_holds (op := 0x23) (by decide)

theorem EncodesInTable.chCount : EncodesInTable.Statement .chCount :=
  plain_holds (op := 0x24) (by decide)

theorem EncodesInTable.envSeta (x : Nat) : EncodesInTable.Statement (.envSeta x) := indexed_holds (by decide) x

theorem EncodesInTable.envSetd (x : Nat) : EncodesInTable.Statement (.envSetd x) := indexed_holds (by decide) x

theorem EncodesInTable.envSeth (x : Nat) : EncodesInTable.Statement (.envSeth x) := indexed_holds (by decide) x

theorem EncodesInTable.envSets (x : Nat) : EncodesInTable.Statement (.envSets x) := indexed_holds (by decide) x

theorem EncodesInTable.envSetr (x : Nat) : EncodesInTable.Statement (.envSetr x) := indexed_holds (by decide) x

theorem EncodesInTable.envTrig (x : Nat) : EncodesInTable.Statement (.envTrig x) := indexed_holds (by decide) x

theorem EncodesInTable.envRel (x : Nat) : EncodesInTable.Statement (.envRel x) := indexed_holds (by decide) x

theorem EncodesInTable.envProc (x : Nat) : EncodesInTable.Statement (.envProc x) := indexed_holds (by decide) x

theorem EncodesInTable.envActive (x : Nat) : EncodesInTable.Statement (.envActive x) := indexed_holds (by decide) x

theorem EncodesInTable.smTgt (x : Nat) : EncodesInTable.Statement (.smTgt x) := indexed_holds (by decide) x

theorem EncodesInTable.smFact (x : Nat) : EncodesInTable.Statement (.smFact x) := indexed_holds (by decide) x

theorem EncodesInTable.smProc (x : Nat) : EncodesInTable.Statement (.smProc x) := indexed_holds (by decide) x

theorem EncodesInTable.smRst (x : Nat) : EncodesInTable.Statement (.smRst x) := indexed_holds (by decide) x

theorem EncodesInTable.smClose (x : Nat) : EncodesInTable.Statement (.smClose x) := indexed_holds (by decide) x

end Sys2Proof.Laws
end

