-- ==== Sys2Proof/Tests/Slice0.lean ====
section
/-! SUPPORT. Tests: the well-formedness smoke, the spec's own words through the decoder, one step per command with the
values of 95_test_vectors.md, and a witness for the hypotheses of every obligation that has some. -/

namespace Sys2Proof.Tests

open Sys2Proof.Machine

/-! ## Well-formedness: an ill-formed term for each check -/

theorem test_wf_idx_too_wide : Instr.wf (.efxProc 256) = false ∧ Instr.wf (.efxRst 256) = false ∧
    Instr.wf (.efxName 256) = false ∧ Instr.wf (.chRem 256) = false ∧ Instr.wf (.efxSetp 256 .mix) = false := by decide
theorem test_wf_env_idx_too_wide : Instr.wf (.envSeta 256) = false ∧ Instr.wf (.envSetd 256) = false ∧
    Instr.wf (.envSeth 256) = false ∧ Instr.wf (.envSets 256) = false ∧ Instr.wf (.envSetr 256) = false ∧
    Instr.wf (.envTrig 256) = false ∧ Instr.wf (.envRel 256) = false ∧ Instr.wf (.envProc 256) = false ∧
    Instr.wf (.envActive 256) = false := by decide
theorem test_wf_sm_idx_too_wide : Instr.wf (.smTgt 256) = false ∧ Instr.wf (.smFact 256) = false ∧
    Instr.wf (.smProc 256) = false ∧ Instr.wf (.smRst 256) = false ∧ Instr.wf (.smClose 256) = false := by decide
theorem test_wf_name_id : Instr.wf (.efxSetp 0 (.other 1)) = false ∧ Instr.wf (.efxSetp 0 (.other 9)) = false ∧
    Instr.wf (.efxSetp 0 (.other 256)) = false := by decide
theorem test_wf_kind_code : Instr.wf (.chAdd (.bad 1)) = false ∧ Instr.wf (.chAdd (.bad 3)) = false ∧
    Instr.wf (.chAdd (.bad 256)) = false := by decide

/-! ## Decoding: `OP`, `IDX`, `SEL`, `RSV` written out bit by bit from R101, R103 to R105 -/

/-- What a word decodes to, `none` for no command. -/
def read (w : Word) : Option Instr :=
  match decode w with
  | .ok i => some i
  | .error _ => none

theorem test_decode_nop : read (0b00000000#8 ++ 0b00000000#8 ++ 0b00000000#8 ++ 0b00000000#8) = some .nop := by decide
theorem test_decode_efxProc : read (0b00010000#8 ++ 0b00000101#8 ++ 0b00000000#8 ++ 0b00000000#8) = some (.efxProc 5) := by
  decide
theorem test_decode_efxRst : read (0b00010001#8 ++ 0b10000001#8 ++ 0b00000000#8 ++ 0b00000000#8) = some (.efxRst 129) := by
  decide
theorem test_decode_efxSetp :
    read (0b00010010#8 ++ 0b00000010#8 ++ 0b00000001#8 ++ 0#8) = some (.efxSetp 2 .cutoff) ∧
    read (0b00010010#8 ++ 0b00000010#8 ++ 0b00000010#8 ++ 0#8) = some (.efxSetp 2 .resonance) ∧
    read (0b00010010#8 ++ 0b00000010#8 ++ 0b00000011#8 ++ 0#8) = some (.efxSetp 2 .type) ∧
    read (0b00010010#8 ++ 0b00000010#8 ++ 0b00000100#8 ++ 0#8) = some (.efxSetp 2 .time) ∧
    read (0b00010010#8 ++ 0b00000010#8 ++ 0b00000101#8 ++ 0#8) = some (.efxSetp 2 .feedback) := by decide
theorem test_decode_efxSetp_rest :
    read (0b00010010#8 ++ 0b00000010#8 ++ 0b00000110#8 ++ 0#8) = some (.efxSetp 2 .mix) ∧
    read (0b00010010#8 ++ 0b00000010#8 ++ 0b00000111#8 ++ 0#8) = some (.efxSetp 2 .drive) ∧
    read (0b00010010#8 ++ 0b00000010#8 ++ 0b00001000#8 ++ 0#8) = some (.efxSetp 2 .outputGain) ∧
    read (0b00010010#8 ++ 0b00000010#8 ++ 0b00001001#8 ++ 0#8) = some (.efxSetp 2 .bitDepth) ∧
    read (0b00010010#8 ++ 0b00000010#8 ++ 0b00000000#8 ++ 0#8) = some (.efxSetp 2 (.other 0)) ∧
    read (0b00010010#8 ++ 0b00000010#8 ++ 0b00001010#8 ++ 0#8) = some (.efxSetp 2 (.other 10)) := by decide
theorem test_decode_efxName : read (0b00010011#8 ++ 0b00000010#8 ++ 0b00000000#8 ++ 0b00000000#8) = some (.efxName 2) := by
  decide
theorem test_decode_chAdd :
    read (0b00100000#8 ++ 0b00000000#8 ++ 0b00000001#8 ++ 0#8) = some (.chAdd .filter) ∧
    read (0b00100000#8 ++ 0b00000000#8 ++ 0b00000010#8 ++ 0#8) = some (.chAdd .delay) ∧
    read (0b00100000#8 ++ 0b00000000#8 ++ 0b00000011#8 ++ 0#8) = some (.chAdd .distortion) ∧
    read (0b00100000#8 ++ 0b00000000#8 ++ 0b00000100#8 ++ 0#8) = some (.chAdd (.bad 4)) := by decide
theorem test_decode_chRem : read (0b00100001#8 ++ 0b11111111#8 ++ 0b00000000#8 ++ 0b00000000#8) = some (.chRem 255) := by
  decide
theorem test_decode_chain_plain :
    read (0b00100010#8 ++ 0#8 ++ 0#8 ++ 0#8) = some .chProc ∧ read (0b00100011#8 ++ 0#8 ++ 0#8 ++ 0#8) = some .chRstall ∧
    read (0b00100100#8 ++ 0#8 ++ 0#8 ++ 0#8) = some .chCount := by decide
theorem test_decode_env_setters :
    read (0b00110000#8 ++ 0b00000001#8 ++ 0#8 ++ 0#8) = some (.envSeta 1) ∧
    read (0b00110001#8 ++ 0b00000001#8 ++ 0#8 ++ 0#8) = some (.envSetd 1) ∧
    read (0b00110010#8 ++ 0b00000001#8 ++ 0#8 ++ 0#8) = some (.envSeth 1) ∧
    read (0b00110011#8 ++ 0b00000001#8 ++ 0#8 ++ 0#8) = some (.envSets 1) ∧
    read (0b00110100#8 ++ 0b00000001#8 ++ 0#8 ++ 0#8) = some (.envSetr 1) := by decide
theorem test_decode_env_rest :
    read (0b00110101#8 ++ 0b00000011#8 ++ 0#8 ++ 0#8) = some (.envTrig 3) ∧
    read (0b00110110#8 ++ 0b00000011#8 ++ 0#8 ++ 0#8) = some (.envRel 3) ∧
    read (0b00110111#8 ++ 0b00000011#8 ++ 0#8 ++ 0#8) = some (.envProc 3) ∧
    read (0b00111000#8 ++ 0b00000011#8 ++ 0#8 ++ 0#8) = some (.envActive 3) := by decide
theorem test_decode_sm :
    read (0b01000000#8 ++ 0b00000001#8 ++ 0#8 ++ 0#8) = some (.smTgt 1) ∧
    read (0b01000001#8 ++ 0b00000001#8 ++ 0#8 ++ 0#8) = some (.smFact 1) ∧
    read (0b01000010#8 ++ 0b00000001#8 ++ 0#8 ++ 0#8) = some (.smProc 1) ∧
    read (0b01000011#8 ++ 0b00000001#8 ++ 0#8 ++ 0#8) = some (.smRst 1) ∧
    read (0b01000100#8 ++ 0b00000001#8 ++ 0#8 ++ 0#8) = some (.smClose 1) := by decide

/-- The words R108 (a) to (c) rejects, whatever the state, and why (95_test_vectors.md section 2.7). -/
theorem test_decode_rejected :
    decode 0x00000001#32 = .error (.nonzeroReserved 1) ∧ decode 0x00010000#32 = .error (.nonzeroIdx 1) ∧
    decode 0x00000100#32 = .error (.nonzeroSel 1) ∧ decode 0x10000100#32 = .error (.nonzeroSel 1) ∧
    decode 0x20010100#32 = .error (.nonzeroIdx 1) ∧ decode 0x39000000#32 = .error (.reservedOpcode 0x39) ∧
    decode 0x01000000#32 = .error (.reservedOpcode 0x01) ∧ decode 0xFF000000#32 = .error (.reservedOpcode 0xFF) := by
  decide
theorem test_opcodes_distinct : (opcodeMap.map OpRow.op).Nodup ∧ opcodeMap.length = 24 := by decide
theorem test_table_word : decodeTableWord 32 0x12000400 = some (.efxSetp 0 .time) ∧ decodeTableWord 32 0x45000000 = none := by
  decide
theorem test_decode_short_list : decodeBytes [0x00#8, 0x00#8, 0x00#8] = .error .truncated := by decide

/-! ## One step per command, with values of 95_test_vectors.md -/

/-- CFG-B of section 0 with `BASE` 0x40. -/
def cfgB : Cfg :=
  { Config.reference with
    SR := 0x42C80000#32, CHAIN_CAP := 3, DELAY_CAP := 64, BASE := 0x40
    FILTER_INIT := ⟨0x00000000#32, 0x41A00000#32, 0x3F3504F3#32⟩
    DELAY_INIT := ⟨0x3DCCCCCD#32, 0x3F000000#32, 0x3F800000#32⟩
    SM_INIT := ⟨0x00000000#32, 0x00000000#32, 0x3E800000#32⟩ }

/-- CFG-A with the sine and cosine of section 2.1. -/
def cfgA : Cfg :=
  { Config.reference with
    sinTable := ⟨[(0x3E060A92#32, 0x3E05A8A9#32)], none⟩, cosTable := ⟨[(0x3E060A92#32, 0x3F7DCF55#32)], none⟩ }

/-- A state of `c` with a chain and a `DATA` word. -/
def mk (c : Cfg) (chain : List Effect) (v : F32) : State := { State.powerOn c with chain := chain, data := v }

/-- The state a meaning ends in. -/
def nextOf : Result → Option State
  | .next s => some s
  | .fault _ => none
  | .refused _ => none

/-- `RESULT` and `STATUS` after a command. -/
def outOf (i : Instr) (s : State) : Option (Word × Word) := (nextOf (exec i s)).map fun t => (t.result, t.status)

/-- The effect at `idx` after a command. -/
def slotOf (i : Instr) (s : State) (idx : Nat) : Option Effect := (nextOf (exec i s)).bind fun t => t.slot idx

/-- The envelope at `idx` after a command. -/
def envOf (i : Instr) (s : State) (idx : Nat) : Option Envelope := (nextOf (exec i s)).bind fun t => t.env idx

/-- The smoother at `idx` after a command. -/
def smOf (i : Instr) (s : State) (idx : Nat) : Option Smoother := (nextOf (exec i s)).bind fun t => t.sm idx

/-- A new Delay of CFG-B: `d = 10`, `len = 11` (section 0). -/
def delayB : Delay :=
  { buf := Memory.cleared, len := 11, wp := 0, d := 10, time := 0x3DCCCCCD#32, feedback := 0x3F000000#32,
    mix := 0x3F800000#32 }

/-- A new Distortion of CFG-B: Hard, drive 1, mix 1, gain 1, depth 16 (section 2.3). -/
def distB : Distortion :=
  { type := .hard, drive := 0x3F800000#32, mix := 0x3F800000#32, outputGain := 0x3F800000#32, bitDepth := 16 }

/-- The Filter of section 2.1, LowPass, with the coefficients listed there. -/
def filterA : Filter :=
  { type := .lowPass, cutoff := 0x447A0000#32, resonance := 0x3F3504F3#32,
    coeffs := ⟨0x3B8052C2#32, 0x3C0052C2#32, 0x3B8052C2#32, 0xBFE85D18#32, 0x3F54BCC8#32⟩,
    x1 := F32.c0, x2 := F32.c0, y1 := F32.c0, y2 := F32.c0 }

theorem test_nop_clears_status : outOf .nop { mk cfgB [] 0#32 with result := 7#32, status := 1#32 } = some (0#32, 0#32) := by
  decide

/-- Section 0: the derived constants of CFG-B and CFG-A. -/
theorem test_chAdd_delay : slotOf (.chAdd .delay) (mk cfgB [] 0#32) 0 = some (.delay delayB) := by decide
theorem test_chAdd_filter_and_capacity :
    slotOf (.chAdd .filter) (mk cfgA [] 0#32) 0 = some (.filter filterA) ∧
    outOf (.chAdd .delay) (mk cfgB [.distortion distB, .distortion distB, .distortion distB] 0#32) = some (0#32, 2#32) := by
  decide
/-- Section 2.1: the impulse at ticks 0 and 1. -/
theorem test_efxProc_filter :
    outOf (.efxProc 0) (mk cfgA [.filter filterA] 0x3F800000#32) = some (0x3B8052C2#32, 0#32) ∧
    outOf (.efxProc 0) (mk cfgA [.filter { filterA with x1 := 0x3F800000#32, y1 := 0x3B8052C2#32 }] 0#32) =
      some (0x3C74CC6C#32, 0#32) := by decide
/-- Section 2.3: foldback just above 1 and at 2, bit crushing at 4 bits (0.3125 to 0.375). -/
theorem test_efxProc_distortion :
    outOf (.efxProc 0) (mk cfgB [.distortion { distB with type := .foldback }] 0x3F800001#32) =
      some (0x3F7FFFFE#32, 0#32) ∧
    outOf (.efxProc 0) (mk cfgB [.distortion { distB with type := .foldback }] 0x40000000#32) = some (0#32, 0#32) ∧
    outOf (.efxProc 0) (mk cfgB [.distortion { distB with type := .bitcrush, bitDepth := 4 }] 0x3EA00000#32) =
      some (0x3EC00000#32, 0#32) ∧
    outOf (.efxProc 0) (mk cfgB [.distortion distB] 0xC0400000#32) = some (0xBF800000#32, 0#32) := by decide
/-- Section 2.2: growth, and the capacity limit. -/
theorem test_efxSetp_time :
    slotOf (.efxSetp 0 .time) (mk cfgB [.delay delayB] 0x3E4CCCCD#32) 0 =
      some (.delay { delayB with len := 21, d := 20, time := 0x3E4CCCCD#32 }) ∧
    slotOf (.efxSetp 0 .time) (mk cfgB [.delay delayB] 0x3F800000#32) 0 =
      some (.delay { delayB with len := 64, d := 63, time := 0x3F800000#32 }) ∧
    outOf (.efxSetp 0 .time) (mk cfgB [.delay delayB] 0x3F800000#32) = some (1#32, 2#32) := by decide
/-- Section 2.1: a name no Filter has returns false; type code 1.9 is the high-pass, with its coefficients recomputed. -/
theorem test_efxSetp_filter :
    outOf (.efxSetp 0 .mix) (mk cfgA [.filter filterA] 0x3F000000#32) = some (0#32, 0#32) ∧
    (slotOf (.efxSetp 0 .type) (mk cfgA [.filter filterA] 0x3FF33333#32) 0 =
      some (.filter { filterA with
        type := .highPass,
        coeffs := ⟨0x3F695DBD#32, 0xBFE95DBD#32, 0x3F695DBD#32, 0xBFE85D18#32, 0x3F54BCC8#32⟩ })) := by decide
theorem test_efxRst : slotOf (.efxRst 0) (mk cfgB [.delay { delayB with buf := [(3, 0x3F800000#32)], wp := 4 }] 0#32) 0 =
    some (.delay delayB) := by decide
theorem test_efxName : outOf (.efxName 1) (mk cfgB [.delay delayB, .distortion distB] 0#32) = some (3#32, 0#32) ∧
    outOf (.efxName 2) (mk cfgB [.delay delayB, .distortion distB] 0#32) = some (0#32, 1#32) := by decide
theorem test_chRem : slotOf (.chRem 0) (mk cfgB [.delay delayB, .distortion distB] 0#32) 0 = some (.distortion distB) ∧
    outOf (.chRem 1) (mk cfgB [.delay delayB, .distortion distB] 0#32) = some (1#32, 0#32) ∧
    outOf (.chRem 2) (mk cfgB [.delay delayB, .distortion distB] 0#32) = some (0#32, 0#32) := by decide
/-- Section 1.9: tick 0 of the composition vector. -/
theorem test_chProc :
    outOf .chProc (mk cfgA [.distortion { distB with drive := 0x40000000#32 }, .filter filterA] 0x3E800000#32) =
      some (0x3B0052C2#32, 0#32) ∧
    outOf .chProc (mk cfgA [] 0x7F800001#32) = some (0x7F800001#32, 0#32) := by decide
theorem test_chRstall :
    slotOf .chRstall (mk cfgA [.distortion distB, .filter { filterA with y2 := 0x3F800000#32 }] 0#32) 1 =
      some (.filter filterA) := by decide
theorem test_chCount : outOf .chCount (mk cfgB [.delay delayB, .distortion distB] 0#32) = some (2#32, 0#32) := by decide

/-- An envelope of CFG-B in a stage, at a level, time 0 in the stage. -/
def envB (st : Stage) (level start : F32) : Envelope :=
  { Envelope.powerOn cfgB with stage := st, level := level, startLevel := start }

/-- CFG-B, `DATA` `v`, with one envelope replaced. -/
def mkEnv (e : Envelope) (v : F32) : State := { mk cfgB [] v with envs := [e, Envelope.powerOn cfgB] }

theorem test_envSeta : (envOf (.envSeta 0) (mkEnv (envB .idle 0#32 0#32) 0x00000000#32) 0).map Envelope.attack =
    some 0x3A83126F#32 := by decide
theorem test_envSetd : (envOf (.envSetd 0) (mkEnv (envB .idle 0#32 0#32) 0x3D4CCCCD#32) 0).map Envelope.decay =
    some 0x3D4CCCCD#32 := by decide
theorem test_envSeth : (envOf (.envSeth 0) (mkEnv (envB .idle 0#32 0#32) 0xBF800000#32) 0).map Envelope.hold =
    some 0x00000000#32 := by decide
theorem test_envSets : (envOf (.envSets 0) (mkEnv (envB .idle 0#32 0#32) 0x40000000#32) 0).map Envelope.sustain =
    some 0x3F800000#32 := by decide
theorem test_envSetr : (envOf (.envSetr 1) (mkEnv (envB .idle 0#32 0#32) 0x7FC00000#32) 1).map Envelope.release =
    some 0x7FC00000#32 := by decide
/-- Section 1.7: a retrigger keeps the level and starts from it. -/
theorem test_envTrig : envOf (.envTrig 0) (mkEnv (envB .decay 0x3F2F16AC#32 0#32) 0#32) 0 =
    some (envB .attack 0x3F2F16AC#32 0x3F2F16AC#32) := by decide
theorem test_envRel : envOf (.envRel 0) (mkEnv (envB .sustain 0x3F000000#32 0#32) 0#32) 0 =
    some (envB .release 0x3F000000#32 0x3F000000#32) ∧
    envOf (.envRel 0) (mkEnv (envB .idle 0#32 0#32) 0#32) 0 = some (envB .idle 0#32 0#32) := by decide
/-- Section 1.6: calls 1 to 3 and call 4. -/
theorem test_envProc :
    envOf (.envProc 0) (mkEnv (envB .attack 0#32 0#32) 0#32) 0 = some (envB .decay 0x3F800000#32 0#32) ∧
    envOf (.envProc 0) (mkEnv (envB .decay 0x3F800000#32 0#32) 0#32) 0 = some (envB .hold 0x3F000000#32 0#32) ∧
    envOf (.envProc 0) (mkEnv (envB .hold 0x3F000000#32 0#32) 0#32) 0 = some (envB .sustain 0x3F000000#32 0#32) ∧
    envOf (.envProc 0) (mkEnv (envB .release 0x3F000000#32 0x3F000000#32) 0#32) 0 =
      some (envB .idle 0#32 0x3F000000#32) := by decide
/-- Section 2.5: attack 0.05, first call. -/
theorem test_envProc_attack :
    outOf (.envProc 0) (mkEnv { envB .attack 0#32 0#32 with attack := 0x3D4CCCCD#32 } 0#32) = some (0x3E4CCCCC#32, 0#32) := by
  decide
theorem test_envActive : outOf (.envActive 0) (mkEnv (envB .release 0#32 0#32) 0#32) = some (1#32, 0#32) ∧
    outOf (.envActive 1) (mkEnv (envB .release 0#32 0#32) 0#32) = some (0#32, 0#32) ∧
    outOf (.envActive 2) (mkEnv (envB .release 0#32 0#32) 0#32) = some (0#32, 1#32) := by decide

/-- CFG-B, `DATA` `v`, with one smoother replaced. -/
def mkSm (x : Smoother) (v : F32) : State := { mk cfgB [] v with sms := [Smoother.powerOn cfgB, x] }

theorem test_smTgt : smOf (.smTgt 1) (mkSm ⟨1#32, 2#32, 3#32⟩ 9#32) 1 = some ⟨1#32, 9#32, 3#32⟩ := by decide
theorem test_smFact : smOf (.smFact 1) (mkSm ⟨1#32, 2#32, 3#32⟩ 0x40000000#32) 1 = some ⟨1#32, 2#32, 0x3F800000#32⟩ := by
  decide
/-- Section 1.8: calls 1 and 2 of the first row. -/
theorem test_smProc :
    smOf (.smProc 1) (mkSm ⟨0#32, 0x3F800000#32, 0x3E800000#32⟩ 0#32) 1 =
      some ⟨0x3E800000#32, 0x3F800000#32, 0x3E800000#32⟩ ∧
    outOf (.smProc 1) (mkSm ⟨0x3E800000#32, 0x3F800000#32, 0x3E800000#32⟩ 0#32) = some (0x3EE00000#32, 0#32) := by decide
theorem test_smRst : smOf (.smRst 1) (mkSm ⟨1#32, 2#32, 3#32⟩ 0x3F000000#32) 1 =
    some ⟨0x3F000000#32, 0x3F000000#32, 3#32⟩ := by decide
/-- Section 1.8: the distance after call 4 of the last row is below 0.1; it is not below itself (1/16). -/
theorem test_smClose :
    outOf (.smClose 1) (mkSm ⟨0x3F700000#32, 0x3F800000#32, 0x3F000000#32⟩ 0x3DCCCCCD#32) = some (1#32, 0#32) ∧
    outOf (.smClose 1) (mkSm ⟨0x3F700000#32, 0x3F800000#32, 0x3F000000#32⟩ 0x3D800000#32) = some (0#32, 0#32) := by decide

/-- Program P2, its first line, as the host's accesses: `DATA` is written, then `CMD` runs the command. -/
theorem test_step_fetches : nextOf (step ((mk cfgB [] 0#32).withFetchWord 32 0x20000200)) =
    some { mk cfgB [.delay delayB] 0#32 with pc := 1 } := by decide

/-! ## Witnesses: for every obligation with hypotheses, a state and operands that meet them, clause by clause -/

/-- A Delay of CFG-B one tick after construction: one element written, the cursor moved. -/
def delayW : Delay := ((Delay.construct cfgB).step 0x3F800000#32).1

/-- The Filter of CFG-B after construction. -/
def filterW : Filter := Filter.construct cfgB

/-- A state that no reset gives: a chain of all three effects (at capacity), envelopes in Decay and Idle, a smoother on its
way, and `DATA` 1.0. -/
def wit : State :=
  { State.powerOn cfgB with
    data := 0x3F800000#32, chain := [.filter filterW, .delay delayW, .distortion distB],
    envs := [envB .decay 0x3F800000#32 0#32, Envelope.powerOn cfgB],
    sms := [⟨0x3E800000#32, 0x3F800000#32, 0x3E800000#32⟩, Smoother.powerOn cfgB] }

/-- The same with its last effect removed, so that `CH.ADD` has room. -/
def witRoom : State := { wit with chain := [.filter filterW, .delay delayW] }

/-- The same with host events waiting. -/
def witWith (evs : List HostEvent) : State := { wit with pending := evs }

theorem cfgB_valid : cfgB.valid = true := by decide

theorem wit_inv : wit.Inv where
  cfg := cfgB_valid
  status := .inl rfl
  count := by decide
  chain := by
    intro e he
    have : e = .filter filterW ∨ e = .delay delayW ∨ e = .distortion distB := by simpa [wit] using he
    rcases this with rfl | rfl | rfl
    · exact Filter.Inv_construct cfgB_valid
    · exact Delay.Inv_step (Delay.Inv_construct cfgB_valid) _
    · exact ⟨by decide, by decide, by decide, by decide⟩
  envCount := rfl
  envs := by
    intro e he
    have : e = envB .decay 0x3F800000#32 0#32 ∨ e = Envelope.powerOn cfgB := by simpa [wit] using he
    rcases this with rfl | rfl
    · exact ⟨by decide, by decide, by decide, by decide, by decide, by decide, by decide⟩
    · exact Envelope.Inv_powerOn cfgB
  smCount := rfl
  sms := by
    intro x hx
    have : x = ⟨0x3E800000#32, 0x3F800000#32, 0x3E800000#32⟩ ∨ x = Smoother.powerOn cfgB := by simpa [wit] using hx
    rcases this with rfl | rfl
    · exact (by decide : F32.inRange 0x3E800000#32 F32.c0 F32.c1 = true)
    · exact Smoother.Inv_powerOn cfgB

theorem witness_DecodeOfEncode : ∃ i, i = .efxSetp 255 (.other 10) ∧ Instr.wf i = true := ⟨_, rfl, by decide⟩
theorem witness_EncodeOfDecode : ∃ w i, decode w = .ok i ∧ i = .efxSetp 255 (.other 255) := ⟨0x12FFFF00#32, _, rfl, rfl⟩
/-- Slots 2 and 3 of 3, envelope 1 and 2 of 2, kind codes 3 and 4, a reserved byte: both sides of each bound. -/
theorem witness_IllegalExactlyByDecodeProcedure :
    ∃ s : State, s.envs.length = s.cfg.N_ENV ∧ s.sms.length = s.cfg.N_SM ∧
      Claim.legalWord 0x10020000#32 s.count s.cfg ∧ ¬ Claim.legalWord 0x10030000#32 s.count s.cfg ∧
      Claim.legalWord 0x38010000#32 s.count s.cfg ∧ ¬ Claim.legalWord 0x38020000#32 s.count s.cfg ∧
      Claim.legalWord 0x44010000#32 s.count s.cfg ∧ ¬ Claim.legalWord 0x44020000#32 s.count s.cfg ∧
      Claim.legalWord 0x20000300#32 s.count s.cfg ∧ ¬ Claim.legalWord 0x20000400#32 s.count s.cfg ∧
      Claim.legalWord 0x21FF0000#32 s.count s.cfg ∧ ¬ Claim.legalWord 0x21FF0001#32 s.count s.cfg := by
  refine ⟨wit, rfl, rfl, ?_, ?_, ?_, ?_, ?_, ?_, ?_, ?_, ?_, ?_⟩ <;> simp only [Claim.legalWord] <;> decide
theorem witness_ResetMeetsInvariant : ∃ c : Cfg, c ≠ Config.reference ∧ c.valid = true := ⟨cfgB, by decide, by decide⟩
theorem witness_StepKeepsInvariant :
    ∃ s t : State, s.Inv ∧ s ≠ State.powerOn s.cfg ∧ step s = .next t ∧ t ≠ s :=
  ⟨witWith [memWrite cfgB .cmd 0x22000000#32], _, { wit_inv with }, by decide, rfl, fun h => by
    have := congrArg State.pc h; exact absurd this (by decide)⟩
theorem witness_StepRunsDecodedCommand :
    ∃ s : State, s.cfg.valid = true ∧ s.cfg.BASE % 4 = 0 ∧ s.pending = memWrite s.cfg .cmd 0x30010000#32 :: [.powerOn] ∧
      decode 0x30010000#32 = .ok (.envSeta 1) ∧ decode 0x25000000#32 = .error (.reservedOpcode 0x25) :=
  ⟨witWith [memWrite cfgB .cmd 0x30010000#32, .powerOn], by decide, rfl, rfl, rfl, rfl⟩
theorem witness_HostRegisterAccesses :
    ∃ s1 s2 s3 s4 s5 s6 s7 : State, ∃ v : Word, 
      (∀ s ∈ [s1, s2, s3, s4, s5, s6, s7], s.cfg.valid = true ∧ s.cfg.BASE % 4 = 0) ∧
      s1.pending = [memWrite s1.cfg .data v] ∧ s2.pending = [memWrite s2.cfg .result v] ∧
      s3.pending = [memWrite s3.cfg .status v] ∧ s4.pending = [memRead s4.cfg .cmd] ∧
      s5.pending = [memRead s5.cfg .data] ∧ s6.pending = [memRead s6.cfg .result] ∧
      s7.pending = [memRead s7.cfg .status] :=
  ⟨witWith [memWrite cfgB .data 0xFFFFFFFF#32], witWith [memWrite cfgB .result 0xFFFFFFFF#32],
   witWith [memWrite cfgB .status 0xFFFFFFFF#32], witWith [memRead cfgB .cmd], witWith [memRead cfgB .data],
   witWith [memRead cfgB .result], witWith [memRead cfgB .status], 0xFFFFFFFF#32,
   by simp [witWith, wit, cfgB_valid, State.powerOn, show cfgB.BASE % 4 = 0 from rfl], rfl, rfl, rfl, rfl, rfl, rfl, rfl⟩
/-- The last word of the window, one word past it, a two-byte access inside it (`BASE` is 0x40), and the first word of a window
whose `BASE` is 0x41. -/
theorem witness_OnlyFourWordsAreAccessible :
    ∃ s1 s2 s3 s4 : State, (s1.cfg.valid = true ∧ s2.cfg.valid = true ∧ s3.cfg.valid = true ∧ s4.cfg.valid = true) ∧
      s1.pending = [.access ⟨s1.cfg.BASE + 0xC, 4, .read⟩] ∧ s2.pending = [.access ⟨s2.cfg.BASE + 0x10, 4, .read⟩] ∧
      s3.pending = [.access ⟨s3.cfg.BASE, 2, .write 1#32⟩] ∧
      (s4.pending = [.access ⟨s4.cfg.BASE, 4, .read⟩] ∧ s4.cfg.BASE % 4 = 1) :=
  ⟨witWith [.access ⟨0x4C, 4, .read⟩], witWith [.access ⟨0x50, 4, .read⟩], witWith [.access ⟨0x40, 2, .write 1#32⟩],
   { witWith [.access ⟨0x41, 4, .read⟩] with cfg := { cfgB with BASE := 0x41 } },
   ⟨by decide, by decide, by decide, by decide⟩, rfl, rfl, rfl, rfl, rfl⟩
theorem witness_IdleAndRefusedInputs :
    ∃ s1 s2 s3 : State, ∃ a b : HostAccess, (s1.cfg.valid = true ∧ s1.pending = []) ∧ s2.cfg.valid = false ∧
      (s3.cfg.valid = true ∧ s3.pending = [.concurrent a b]) :=
  ⟨wit, { wit with cfg := { cfgB with CHAIN_CAP := 257 } }, witWith [.concurrent ⟨0x40, 4, .read⟩ ⟨0x44, 4, .read⟩],
   ⟨0x40, 4, .read⟩, ⟨0x44, 4, .read⟩, ⟨by decide, rfl⟩, by decide, by decide, rfl⟩
theorem witness_PowerOnEventResets :
    ∃ s : State, s.cfg.valid = true ∧ s.pending = .powerOn :: [.powerOn] := ⟨witWith [.powerOn, .powerOn], by decide, rfl⟩
/-- Both sides of the equivalence occur: a full chain, a delay of 63 samples exactly and of 100 on a store of 64. -/
theorem witness_CapacityStatusExactlyTwoCases :
    ∃ s t1 t2 t3 : State, s.count = s.cfg.CHAIN_CAP ∧ s.slot 1 = some (.delay delayW) ∧
      exec (.chAdd .delay) s = .next t1 ∧ t1.status = 0x00000002#32 ∧
      exec (.efxSetp 1 .time) s = .next t2 ∧ t2.status = 0x00000002#32 ∧
      exec (.efxSetp 1 .time) { s with data := 0x3F2147AE#32 } = .next t3 ∧ t3.status = 0x00000000#32 ∧
      F32.truncSat (F32.mul 0x3F2147AE#32 s.cfg.SR) = 63 :=
  ⟨wit, _, _, _, by decide, rfl, rfl, by decide, rfl, by decide, rfl, by decide, by decide⟩
theorem witness_UnitCommandsChangeOneUnit :
    ∃ (s t1 t2 t3 : State), unitOf (.efxProc 2) = some (.slot 2) ∧ exec (.efxProc 2) s = .next t1 ∧
      unitOf (.envProc 0) = some (.env 0) ∧ exec (.envProc 0) s = .next t2 ∧
      unitOf (.smProc 5) = some (.sm 5) ∧ exec (.smProc 5) s = .next t3 := ⟨wit, _, _, _, rfl, rfl, rfl, rfl, rfl, rfl⟩
/-- A command on a slot and one on an envelope, and the process of two slots, each with its own operand. -/
theorem witness_CommandsOnDifferentUnitsCommute :
    (∃ (s sa sab sb sba : State), unitOf (.efxSetp 1 .time) = some (.slot 1) ∧ unitOf (.envSeta 1) = some (.env 1) ∧
      UnitRef.slot 1 ≠ UnitRef.env 1 ∧ exec (.efxSetp 1 .time) { s with data := F32.c1 } = .next sa ∧
      exec (.envSeta 1) { sa with data := F32.c2 } = .next sab ∧
      exec (.envSeta 1) { s with data := F32.c2 } = .next sb ∧
      exec (.efxSetp 1 .time) { sb with data := F32.c1 } = .next sba) ∧
    ∃ (s sa sab sb sba : State), unitOf (.efxProc 0) = some (.slot 0) ∧ unitOf (.efxProc 1) = some (.slot 1) ∧
      UnitRef.slot 0 ≠ UnitRef.slot 1 ∧ exec (.efxProc 0) { s with data := F32.c1 } = .next sa ∧
      exec (.efxProc 1) { sa with data := F32.c2 } = .next sab ∧ exec (.efxProc 1) { s with data := F32.c2 } = .next sb ∧
      exec (.efxProc 0) { sb with data := F32.c1 } = .next sba :=
  ⟨⟨wit, _, _, _, _, rfl, rfl, by decide, rfl, rfl, rfl, rfl⟩, wit, _, _, _, _, rfl, rfl, by decide, rfl, rfl, rfl, rfl⟩
/-- Finite operands with a sum of zero, below and beyond the overflow bound, and a divisor that is no zero. -/
theorem witness_ArithmeticRoundsToNearestEven :
    ∃ a b : F32, F32.isFinite a = true ∧ F32.isFinite b = true ∧ F32.isZero b = false ∧
      (2 ^ 277 - 2 ^ 252) * |(1 : Int)| ≤ |F32.val a + F32.val b| ∧ F32.val a - F32.val b = 0 :=
  ⟨0x7F7FFFFF#32, 0x7F7FFFFF#32, by decide, by decide, by decide, by decide +kernel, by decide⟩
theorem witness_NaNAndInfinityResults :
    ∃ n i z f : F32, F32.isNaN n = true ∧ (F32.isInf i = true ∧ F32.isNaN f = false) ∧ (F32.isFinite f = true) ∧
      (F32.isFinite f = true ∧ F32.isZero z = true) ∧ (F32.isZero z = true ∧ F32.isZero F32.c0 = true ∧ z ≠ F32.c0) ∧
      (F32.isFinite z = true ∧ F32.isFinite f = true ∧ F32.val z < F32.val f) :=
  ⟨0xFF800001#32, 0xFF800000#32, 0x80000000#32, 0x00000001#32, by decide⟩
/-- NaN, zero, `2^32`, the value below it, an infinity, a negative: the ends of every clause. -/
theorem witness_TruncatingConversions :
    (F32.isNaN 0x7FC00000#32 = true ∧ F32.le 0x80000000#32 F32.c0 = true) ∧
    (F32.le (F32.pow2 32) 0x4F800000#32 = true ∧ F32.le (F32.pow2 32) 0x7F800000#32 = true) ∧
    (F32.lt F32.c0 0x4F7FFFFF#32 = true ∧ F32.lt 0x4F7FFFFF#32 (F32.pow2 32) = true ∧ F32.lt F32.c0 0x00000001#32 = true) ∧
    F32.isInf 0xFF800000#32 = true ∧ (F32.isFinite 0xBFC00000#32 = true ∧ F32.truncInt 0xBFC00000#32 = -1) := by decide
/-- Just below, at and just above the bounds `0.0` and `1.0`, `-0.0` (which is not below `0.0`), and a NaN. -/
theorem witness_TruncatingConversions_clamp :
    F32.lt 0x80000001#32 F32.c0 = true ∧
    (F32.lt 0x80000000#32 F32.c0 = false ∧ F32.lt F32.c1 0x80000000#32 = false) ∧
    (F32.lt F32.c1 F32.c0 = false ∧ F32.lt F32.c1 F32.c1 = false) ∧
    (F32.lt 0x3F800001#32 F32.c0 = false ∧ F32.lt F32.c1 0x3F800001#32 = true) ∧ F32.isNaN 0xFF800001#32 = true := by decide
/-- A tie: 0.5 rounds to 1; a NaN, an infinity and a zero. -/
theorem witness_RoundHafzIsNearestInteger :
    ∃ v : F32, F32.isFinite v = true ∧ 2 * |F32.val (F32.roundHafz v) - F32.val v| = 2 ^ 149 ∧
      F32.roundHafz v = F32.c1 ∧
      F32.isNaN 0xFF800001#32 = true ∧ F32.isInf 0xFF800000#32 = true ∧ F32.isZero 0x80000000#32 = true :=
  ⟨0x3F000000#32, by decide⟩
theorem witness_TypeCodeConversions :
    F32.truncInt 0xBF000000#32 = 0 ∧ F32.truncInt 0x3FF33333#32 = 1 ∧ F32.truncInt 0x4039999A#32 = 2 ∧
    F32.truncInt 0x40400000#32 = 3 ∧ F32.truncInt 0x409FFFFF#32 = 4 ∧ F32.truncInt 0xBF800000#32 < 0 ∧
    4 < F32.truncInt 0x40A00000#32 ∧ F32.isNaN 0xFFC00000#32 = true ∧ F32.isInf 0x7F800000#32 = true := by decide
theorem witness_FilterProcess : ∃ s f, State.slot s 0 = some (.filter f) := ⟨wit, filterW, rfl⟩
theorem witness_FilterSetters :
    (∃ s f, State.slot s 0 = some (.filter f)) ∧
    ∃ name : ParamName, name ≠ .cutoff ∧ name ≠ .resonance ∧ name ≠ .type := ⟨⟨wit, filterW, rfl⟩, .other 0, by decide⟩
theorem witness_FilterCoefficientSymmetry :
    FilterType.notch ≠ .bandPass ∧ F32.isNaN (coeffsFor cfgA .bandPass 0x447A0000#32 0x3F3504F3#32).A0 = false := by decide
theorem witness_FilterSilentAfterReset :
    F32.isFinite filterA.coeffs.A0 = true ∧ F32.isFinite filterA.coeffs.A1 = true ∧ F32.isFinite filterA.coeffs.A2 = true ∧
    F32.isFinite filterA.coeffs.B1 = true ∧ F32.isFinite filterA.coeffs.B2 = true ∧
    (Claim.filterOutputs filterA.reset (List.replicate 2 F32.c0)).length = 2 := by decide
theorem witness_EffectReset :
    ∃ s, State.slot s 0 = some (.filter filterW) ∧ State.slot s 1 = some (.delay delayW) ∧
      State.slot s 2 = some (.distortion distB) := ⟨wit, rfl, rfl, rfl⟩
theorem witness_EffectNames :
    ∃ s, State.slot s 0 = some (.filter filterW) ∧ State.slot s 1 = some (.delay delayW) ∧
      State.slot s 2 = some (.distortion distB) := ⟨wit, rfl, rfl, rfl⟩
theorem witness_NoSuchEffect : ∃ s, State.count s ≤ 3 ∧ State.count s ≠ 0 := ⟨wit, by decide, by decide⟩
theorem witness_DelayProcess : ∃ s d, State.slot s 1 = some (.delay d) ∧ d.buf.wf = true ∧ d.wp = 1 :=
  ⟨wit, delayW, rfl, by decide, by decide⟩
/-- `n` is 10 (`len - 1`), 11 (`len`), 63 (the limit, met and exceeded). -/
theorem witness_DelaySetTime :
    (∃ s d, State.slot s 1 = some (.delay d) ∧ d.wp < d.len ∧ d.buf.within d.len = true ∧ d.len = 11) ∧
    (let n := fun v => min (F32.truncSat (F32.mul v wit.cfg.SR)) (wit.cfg.DELAY_CAP - 1)
     n 0x3DCCCCCD#32 = 10 ∧ n 0x3DE147AE#32 = 11 ∧ n 0x3F2147AE#32 = 63 ∧ n 0x7F800000#32 = 63) :=
  ⟨⟨wit, delayW, rfl, by decide, by decide, by decide⟩, by decide⟩
theorem witness_DelayOtherSetters :
    (∃ s d, State.slot s 1 = some (.delay d)) ∧
    ∃ name : ParamName, name ≠ .time ∧ name ≠ .feedback ∧ name ≠ .mix := ⟨⟨wit, delayW, rfl⟩, .drive, by decide⟩
theorem witness_DelayBufferOnlyGrows :
    ∃ s t d, (∀ j, Instr.efxSetp 1 .time ≠ .chRem j) ∧ exec (.efxSetp 1 .time) s = .next t ∧ s.slot 1 = some (.delay d) ∧
      (∀ j, Instr.efxProc 1 ≠ .chRem j) ∧ Instr.efxProc 1 ≠ .efxSetp 1 .time :=
  ⟨wit, _, delayW, nofun, rfl, rfl, nofun, nofun⟩
/-- A delay of 10 ticks with nine between, and a zero delay (11 ticks) with ten. -/
theorem witness_DelayReadsWhatWasWritten :
    ∃ (d e : Delay) (xs ys : List F32), (d.buf.wf = true ∧ d.wp < d.len ∧ d.d < d.len ∧
      xs.length + 1 = (if d.d = 0 then d.len else d.d)) ∧
      (e.buf.wf = true ∧ e.wp < e.len ∧ e.d < e.len ∧ e.d = 0 ∧ ys.length + 1 = (if e.d = 0 then e.len else e.d)) :=
  ⟨delayW, { delayW with d := 0 }, List.replicate 9 F32.c1, List.replicate 10 F32.c1, by decide, by decide⟩
/-- From `len` 11 to `n` 20: the last old element (9 ticks after the first), the first zero, the last one. -/
theorem witness_DelayAfterGrowth :
    ∃ (n : Nat) (xs ys zs : List F32), (delayW.buf.wf = true ∧ delayW.buf.within delayW.len = true ∧
      delayW.wp < delayW.len ∧ n = min (F32.truncSat (F32.mul 0x3E4CCCCD#32 cfgB.SR)) (cfgB.DELAY_CAP - 1) ∧
      delayW.len ≤ n) ∧ xs.length + 1 < delayW.len ∧ (delayW.len ≤ ys.length + 1 ∧ ys.length < n) ∧
      (delayW.len ≤ zs.length + 1 ∧ zs.length < n ∧ n ≤ zs.length + 1) :=
  ⟨20, List.replicate 9 F32.c1, List.replicate 10 F32.c1, List.replicate 19 F32.c1, by decide, by decide, by decide,
   by decide⟩
theorem witness_DistortionProcess : ∃ s z, State.slot s 2 = some (.distortion z) := ⟨wit, distB, rfl⟩
theorem witness_DistortionSetters :
    (∃ s z, State.slot s 2 = some (.distortion z)) ∧
    ∃ name : ParamName, name ≠ .drive ∧ name ≠ .mix ∧ name ≠ .outputGain ∧ name ≠ .bitDepth ∧ name ≠ .type :=
  ⟨⟨wit, distB, rfl⟩, .cutoff, by decide⟩
/-- 1.0 and the value after it, 2.0 (which folds to zero), NaN and an infinity. -/
theorem witness_FoldIsExactAndBounded :
    F32.isNaN 0x7FA00000#32 = true ∧ F32.isInf 0xFF800000#32 = true ∧
    (F32.isFinite 0x3F800000#32 = true ∧ F32.le F32.cNeg1 0x3F800000#32 = true ∧ F32.le 0x3F800000#32 F32.c1 = true) ∧
    (F32.isFinite 0x3F800001#32 = true ∧ F32.lt F32.c1 0x3F800001#32 = true) ∧
    (F32.isFinite 0xC0000000#32 = true ∧ F32.lt 0xC0000000#32 F32.cNeg1 = true ∧
      F32.isZero (F32.fold 0xC0000000#32) = true) := by decide
theorem witness_BitDepthConversion :
    F32.isNaN 0x7FC00000#32 = true ∧ F32.le 0x3F800000#32 F32.c1 = true ∧ F32.le F32.c16 0x41800000#32 = true ∧
    (F32.le F32.c1 0x417FFFFF#32 = true ∧ F32.le 0x417FFFFF#32 F32.c16 = true) := by decide
theorem witness_DistortionIsMemoryless :
    ∃ s s1 s2 s3, ∃ w : Word, State.slot s 2 = some (.distortion distB) ∧ unitOf (.efxProc 1) = some (.slot 1) ∧
      UnitRef.slot 1 ≠ .slot 2 ∧ exec (.efxProc 2) s = .next s1 ∧ exec (.efxProc 1) { s1 with data := w } = .next s2 ∧
      exec (.efxProc 2) { s2 with data := s.data } = .next s3 ∧ w ≠ s.data :=
  ⟨wit, _, _, _, F32.c2, rfl, rfl, by decide, rfl, rfl, rfl, by decide⟩
/-- A full chain and one with room for one more. -/
theorem witness_ChainAdd : ∃ s t, State.count s = s.cfg.CHAIN_CAP ∧ State.count t ≠ t.cfg.CHAIN_CAP ∧
    State.count t + 1 = t.cfg.CHAIN_CAP := ⟨wit, witRoom, by decide, by decide, by decide⟩
theorem witness_ChainRemove : ∃ s, 2 < State.count s ∧ State.count s ≤ 3 := ⟨wit, by decide, by decide⟩
theorem witness_ChainProcessComposes : ∃ s e, State.slot s 2 = some e := ⟨wit, .distortion distB, rfl⟩
theorem witness_ChainResetCountAndNop : ∃ s e, State.slot s 1 = some e := ⟨wit, .delay delayW, rfl⟩
theorem witness_CountLaw :
    ∃ (s r t1 t2 t3 : State), (exec (.chAdd .distortion) r = .next t1 ∧ t1.status = 0x00000000#32) ∧
      (exec (.chRem 2) s = .next t2 ∧ t2.result = 0x00000001#32) ∧ exec .chProc s = .next t3 :=
  ⟨wit, witRoom, _, _, _, ⟨rfl, rfl⟩, ⟨rfl, rfl⟩, rfl⟩
theorem witness_EnvelopeSetters : ∃ s e, State.env s 1 = some e := ⟨wit, Envelope.powerOn cfgB, rfl⟩
theorem witness_EnvelopeTriggerAndRelease :
    (∃ s e, State.env s 0 = some e ∧ e.stage ≠ .idle) ∧ ∃ s e, State.env s 1 = some e ∧ e.stage = .idle :=
  ⟨⟨wit, _, rfl, by decide⟩, wit, _, rfl, rfl⟩
theorem witness_EnvelopeProcess : ∃ s e, State.env s 0 = some e := ⟨wit, _, rfl⟩
theorem witness_EnvelopeActive : ∃ s e, State.env s 1 = some e := ⟨wit, _, rfl⟩
theorem witness_EnvelopeStageGraph :
    ∃ s t e e', exec (.envProc 0) s = .next t ∧ State.env s 0 = some e ∧ State.env t 0 = some e' ∧
      e.stage = .decay ∧ e'.stage = .hold := ⟨wit, _, _, _, rfl, rfl, rfl, rfl, by decide⟩
theorem witness_EnvelopeSetParameters : ∃ s e, State.env s 0 = some e := ⟨wit, _, rfl⟩
/-- An instance whose `EXP32` is known to be 0 everywhere: the hypothesis `EXP_UNIT` of R285 can hold. -/
theorem witness_EnvelopeLevelBounded :
    ∃ s t : State, ExpUnit s.cfg ∧ s.Inv ∧ F32.isNaN s.data = false ∧ (∀ e ∈ s.envs, e.Bounded) ∧
      exec (.envSets 0) s = .next t :=
  ⟨State.powerOn { cfgB with expTable := ⟨[], some F32.c0⟩ }, _, fun _ _ => by
      show F32.inUnit F32.c0 = true
      decide,
    { cfg := by decide
      status := .inl rfl
      count := by decide
      chain := by simp [State.powerOn]
      envCount := rfl
      envs := by
        intro e he
        rw [List.eq_of_mem_replicate he]
        exact Envelope.Inv_powerOn _
      smCount := rfl
      sms := by
        intro x hx
        rw [List.eq_of_mem_replicate hx]
        exact Smoother.Inv_powerOn _ },
    by decide,
    by
      intro e he
      rw [List.eq_of_mem_replicate he]
      exact ⟨by decide, by decide, by decide, by decide, by decide, by decide, by decide⟩,
    rfl⟩
theorem witness_SmootherSetters : ∃ s x, State.sm s 1 = some x := ⟨wit, _, rfl⟩
theorem witness_SmootherProcess : ∃ s x, State.sm s 0 = some x := ⟨wit, _, rfl⟩
/-- A NaN threshold and a zero one. -/
theorem witness_SmootherIsClose :
    (∃ s x, State.sm s 0 = some x ∧ F32.isNaN s.data = true) ∧
    ∃ s x, State.sm s 0 = some x ∧ F32.le s.data F32.c0 = true :=
  ⟨⟨{ wit with data := 0x7FC00000#32 }, _, rfl, by decide⟩, { wit with data := 0x80000000#32 }, _, rfl, by decide⟩
/-- An ordinary value; `-0.0` with a factor whose sign bit is clear, and with the factor `-0.0`. -/
theorem witness_SmootherHoldsAfterReset :
    (∃ s x, State.sm s 0 = some x ∧ F32.isFinite s.data = true ∧ F32.isFinite x.factor = true ∧ s.data ≠ 0x80000000#32) ∧
    (∃ s x, State.sm s 0 = some x ∧ s.data = 0x80000000#32 ∧ F32.isFinite x.factor = true ∧ F32.sign x.factor = false) ∧
    ∃ s x, State.sm s 0 = some x ∧ s.data = 0x80000000#32 ∧ F32.isFinite x.factor = true ∧ x.factor = 0x80000000#32 :=
  ⟨⟨wit, _, rfl, by decide, by decide, by decide⟩,
   ⟨{ wit with data := 0x80000000#32 }, _, rfl, rfl, by decide, by decide⟩,
   { wit with data := 0x80000000#32, sms := [⟨F32.c0, F32.c1, 0x80000000#32⟩, Smoother.powerOn cfgB] }, _, rfl, rfl,
   by decide, rfl⟩
theorem witness_NoSuchEnvelopeOrSmoother :
    ∃ s : State, (unitOf (.envTrig 2) = some (.env 2) ∧ s.cfg.N_ENV ≤ 2 ∧ ¬ s.cfg.N_ENV ≤ 1) ∧
      (unitOf (.smClose 2) = some (.sm 2) ∧ s.cfg.N_SM ≤ 2 ∧ ¬ s.cfg.N_SM ≤ 1) := ⟨wit, by decide, by decide⟩
theorem witness_AssembledLineRuns :
    ∃ s1 s2 : State, (s1.cfg.valid = true ∧ s1.cfg.BASE % 4 = 0 ∧ Instr.wf (.smTgt 255) = true ∧
      s1.pending = lineEvents s1.cfg (.smTgt 255, F32.c1) ++ [.powerOn] ∧ usesValue (.smTgt 255) = true) ∧
      (s2.cfg.valid = true ∧ s2.cfg.BASE % 4 = 0 ∧ Instr.wf .chCount = true ∧
      s2.pending = lineEvents s2.cfg (.chCount, F32.c1) ++ [] ∧ usesValue .chCount = false) :=
  ⟨witWith (lineEvents cfgB (.smTgt 255, F32.c1) ++ [.powerOn]), witWith (lineEvents cfgB (.chCount, F32.c1) ++ []),
   ⟨by decide, rfl, by decide, rfl, rfl⟩, by decide, rfl, by decide, rfl, rfl⟩
/-- The values of section 2.1 for a high-pass meet the equations of the general clause. -/
theorem witness_FilterCoefficientVectors :
    ∃ w sw cw alpha a0 : F32, w = F32.div (F32.mul (F32.mul 0x40000000#32 0x40490FDB#32) 0x447A0000#32) cfgA.SR ∧
      sw = cfgA.SIN32 w ∧ cw = cfgA.COS32 w ∧ alpha = F32.div sw (F32.mul 0x40000000#32 0x3F3504F3#32) ∧
      a0 = F32.add 0x3F800000#32 alpha ∧ (w = 0x3E060A92#32 ∧ sw = 0x3E05A8A9#32 ∧ cw = 0x3F7DCF55#32) :=
  ⟨_, _, _, _, _, rfl, rfl, rfl, rfl, rfl, by decide⟩

end Sys2Proof.Tests
end

section
/-! PROOFS. Reset meets the invariant of the block and every step keeps it (00_scope.md R13, 10_state.md R35 to R46,
60_exceptions.md R335). -/

namespace Sys2Proof.Machine

/-! ## What a command can do -/

theorem execChAdd_next {kind : KindCode} {s t : State} (h : execChAdd kind s = .next t) :
    (construct s.cfg kind = none ∧ t = s.raiseIllegal) ∨
      ∃ e, construct s.cfg kind = some e ∧
        ((s.count = s.cfg.CHAIN_CAP ∧ t = s.completeCap 0x00000000#32 true) ∨
          (s.count ≠ s.cfg.CHAIN_CAP ∧ t = { s with chain := s.chain ++ [e] }.complete 0x00000000#32)) := by
  unfold execChAdd at h
  split at h
  · injection h with h; exact .inl ⟨‹_›, h.symm⟩
  · refine .inr ⟨_, ‹_›, ?_⟩
    split at h <;> injection h with h
    · exact .inl ⟨‹_›, h.symm⟩
    · exact .inr ⟨‹_›, h.symm⟩

theorem execChRem_next {idx : Nat} {s t : State} (h : execChRem idx s = .next t) :
    t = { s with chain := s.chain.eraseIdx idx }.complete (boolWord true) ∨ t = s.complete (boolWord false) := by
  unfold execChRem at h
  split at h <;> injection h with h
  · exact .inl h.symm
  · exact .inr h.symm

/-- No command changes the configuration (00_scope.md R13). -/
theorem exec_cfg {i : Instr} {s t : State} (h : exec i s = .next t) : t.cfg = s.cfg := by
  cases hu : unitOf i with
  | some u =>
    cases u with
    | slot idx => obtain ⟨g, hg⟩ := exec_slot hu; rw [hg] at h; cases h; rfl
    | env idx => obtain ⟨g, hg⟩ := exec_env_modify hu; rw [hg] at h; cases h; rfl
    | sm idx => obtain ⟨g, hg⟩ := exec_sm_modify hu; rw [hg] at h; cases h; rfl
  | none =>
    cases i <;> simp only [unitOf, reduceCtorEq] at hu
    case nop => cases h; rfl
    case chAdd kind => obtain ⟨_, rfl⟩ | ⟨_, _, ⟨_, rfl⟩ | ⟨_, rfl⟩⟩ := execChAdd_next h <;> rfl
    case chRem idx => obtain rfl | rfl := execChRem_next h <;> rfl
    case chProc => cases h; rfl
    case chRstall => cases h; rfl
    case chCount => cases h; rfl

/-! ## What a step can do -/

/-- What one event from outside can do to the block. -/
theorem eventStep_next {ev : HostEvent} {s t : State} (h : eventStep ev s = .next t) :
    t = s.powerCycle ∨ (∃ r, t = s.hostReads r) ∨ (∃ r v, t = s.hostWrites r v) ∨
      t = s.advance.raiseIllegal ∨ ∃ i, exec i s.advance = .next t := by
  cases ev with
  | powerOn => injection h with h; exact .inl h.symm
  | concurrent a b => cases h
  | access a =>
    simp only [eventStep] at h
    split at h
    · rename_i r _
      unfold accessStep at h
      split at h
      · unfold command at h
        split at h
        · exact .inr (.inr (.inr (.inr ⟨_, h⟩)))
        · injection h with h; exact .inr (.inr (.inr (.inl h.symm)))
      · injection h with h; exact .inr (.inr (.inl ⟨_, _, h.symm⟩))
      · injection h with h; exact .inr (.inl ⟨_, h.symm⟩)
    · cases h

/-- A step is idle or takes the oldest waiting event. -/
theorem step_next {s t : State} (h : step s = .next t) :
    t = s ∨ ∃ ev rest, eventStep ev { s with pending := rest } = .next t := by
  unfold step at h
  split at h
  · split at h
    · injection h with h; exact .inl h.symm
    · exact .inr ⟨_, _, h⟩
  · cases h

theorem eventStep_cfg {ev : HostEvent} {s t : State} (h : eventStep ev s = .next t) : t.cfg = s.cfg := by
  obtain rfl | ⟨r, rfl⟩ | ⟨r, v, rfl⟩ | rfl | ⟨i, hi⟩ := eventStep_next h
  · rfl
  · rfl
  · exact s.hostWrites_cfg r v
  · rfl
  · exact (exec_cfg hi).trans s.advance_cfg

theorem step_cfg {s t : State} (h : step s = .next t) : t.cfg = s.cfg := by
  obtain rfl | ⟨ev, rest, hev⟩ := step_next h
  · rfl
  · exact eventStep_cfg (s := { s with pending := rest }) hev

/-! ## The commands keep the invariant -/

theorem State.Inv_onSlot {idx : Nat} {s t : State} {f : Effect → Effect × Word} (hs : s.Inv)
    (h : onSlot idx s f = .next t) (hf : ∀ e, e.Inv s.cfg → (f e).1.Inv s.cfg) : t.Inv := by
  obtain ⟨_, rfl⟩ | ⟨e, he, rfl⟩ := onSlot_next h
  · exact State.Inv_raiseIllegal hs
  · exact State.Inv_complete (State.Inv_setSlot hs idx (hf e (hs.chain e (State.slot_mem he)))) _

theorem State.Inv_onEnv {idx : Nat} {s t : State} {f : Envelope → Envelope × Word} (hs : s.Inv)
    (h : onEnv idx s f = .next t) (hf : ∀ e, e.Inv → (f e).1.Inv) : t.Inv := by
  obtain ⟨_, rfl⟩ | ⟨e, he, rfl⟩ := onEnv_next h
  · exact State.Inv_raiseIllegal hs
  · exact State.Inv_complete (State.Inv_setEnv hs idx (hf e (hs.envs e (State.env_mem he)))) _

theorem State.Inv_onSm {idx : Nat} {s t : State} {f : Smoother → Smoother × Word} (hs : s.Inv)
    (h : onSm idx s f = .next t) (hf : ∀ x, x.Inv → (f x).1.Inv) : t.Inv := by
  obtain ⟨_, rfl⟩ | ⟨x, hx, rfl⟩ := onSm_next h
  · exact State.Inv_raiseIllegal hs
  · exact State.Inv_complete (State.Inv_setSm hs idx (hf x (hs.sms x (State.sm_mem hx)))) _

theorem execEfxSetp_Inv {idx : Nat} {name : ParamName} {s t : State} (hs : s.Inv)
    (h : execEfxSetp idx name s = .next t) : t.Inv := by
  obtain rfl | ⟨e, e', cap, he, hp, rfl⟩ := execEfxSetp_next h
  · exact State.Inv_complete hs _
  · have he' : e'.Inv s.cfg := Effect.Inv_setp hs.cfg (hs.chain e (State.slot_mem he)) hp
    exact State.Inv_completeCap (State.Inv_setSlot hs idx he') _ _

/-- An effect is added only while `count` is below `CHAIN_CAP` (43_chain.md R243). -/
theorem execChAdd_Inv {kind : KindCode} {s t : State} (hs : s.Inv) (h : execChAdd kind s = .next t) : t.Inv := by
  obtain ⟨_, rfl⟩ | ⟨e, he, ⟨_, rfl⟩ | ⟨hroom, rfl⟩⟩ := execChAdd_next h
  · exact State.Inv_raiseIllegal hs
  · exact State.Inv_completeCap hs _ _
  · refine State.Inv_complete (State.Inv_chain hs ?_ ?_) _
    · rw [List.length_append, List.length_singleton]
      exact Nat.lt_of_le_of_ne hs.count hroom
    · intro e' he'
      rcases List.mem_append.1 he' with hold | hnew
      · exact hs.chain e' hold
      · rw [List.mem_singleton.1 hnew]; exact Inv_construct hs.cfg he

theorem execChRem_Inv {idx : Nat} {s t : State} (hs : s.Inv) (h : execChRem idx s = .next t) : t.Inv := by
  obtain rfl | rfl := execChRem_next h
  · refine State.Inv_complete (State.Inv_chain hs ?_ ?_) _
    · exact ((List.eraseIdx_sublist s.chain idx).length_le).trans hs.count
    · exact fun e he => hs.chain e (List.mem_of_mem_eraseIdx he)
  · exact State.Inv_complete hs _

theorem execChProc_Inv {s t : State} (hs : s.Inv) (h : execChProc s = .next t) : t.Inv := by
  cases h
  refine State.Inv_complete (State.Inv_chain hs ?_ (chainStep_Inv hs.chain _)) _
  rw [chainStep_length]; exact hs.count

theorem execChRstall_Inv {s t : State} (hs : s.Inv) (h : execChRstall s = .next t) : t.Inv := by
  cases h
  refine State.Inv_complete (State.Inv_chain hs ?_ ?_) _
  · rw [List.length_map]; exact hs.count
  · intro e he
    obtain ⟨e', he', rfl⟩ := List.mem_map.1 he
    exact Effect.Inv_reset (hs.chain e' he')

/-- Every command keeps the invariant. -/
theorem exec_Inv {i : Instr} {s t : State} (hs : s.Inv) (h : exec i s = .next t) : t.Inv := by
  cases i with
  | nop => cases h; exact State.Inv_complete hs _
  | efxProc idx => exact State.Inv_onSlot hs h fun e he => Effect.Inv_step he _
  | efxRst idx => exact State.Inv_onSlot hs h fun e he => Effect.Inv_reset he
  | efxSetp idx name => exact execEfxSetp_Inv hs h
  | efxName idx => exact State.Inv_onSlot hs h fun e he => he
  | chAdd kind => exact execChAdd_Inv hs h
  | chRem idx => exact execChRem_Inv hs h
  | chProc => exact execChProc_Inv hs h
  | chRstall => exact execChRstall_Inv hs h
  | chCount => cases h; exact State.Inv_complete hs _
  | envSeta idx => exact State.Inv_onEnv hs h fun e he => { he with attack := atLeast_floorTime _ }
  | envSetd idx => exact State.Inv_onEnv hs h fun e he => { he with decay := atLeast_floorTime _ }
  | envSeth idx => exact State.Inv_onEnv hs h fun e he => { he with hold := atLeast_floorHold _ }
  | envSets idx => exact State.Inv_onEnv hs h fun e he => { he with sustain := inRange_clampSustain _ }
  | envSetr idx => exact State.Inv_onEnv hs h fun e he => { he with release := atLeast_floorTime _ }
  | envTrig idx => exact State.Inv_onEnv hs h fun e he => Envelope.Inv_trigger he
  | envRel idx => exact State.Inv_onEnv hs h fun e he => Envelope.Inv_releaseNow he
  | envProc idx => exact State.Inv_onEnv hs h fun e he => Envelope.Inv_step hs.cfg he
  | envActive idx => exact State.Inv_onEnv hs h fun e he => he
  | smTgt idx => exact State.Inv_onSm hs h fun x hx => hx
  | smFact idx => exact State.Inv_onSm hs h fun _ _ => inRange_clampFactor _
  | smProc idx => exact State.Inv_onSm hs h fun x hx => hx
  | smRst idx => exact State.Inv_onSm hs h fun x hx => hx
  | smClose idx => exact State.Inv_onSm hs h fun x hx => hx

/-! ## Reset, the host's accesses and the step -/

/-- Power-on reset of a valid configuration meets the invariant. -/
theorem State.Inv_powerOn {c : Cfg} (hv : c.valid = true) : (State.powerOn c).Inv where
  cfg := hv
  status := .inl rfl
  count := Nat.zero_le _
  chain := fun _ he => absurd he List.not_mem_nil
  envCount := List.length_replicate
  envs := fun _ he => List.eq_of_mem_replicate he ▸ Envelope.Inv_powerOn c
  smCount := List.length_replicate
  sms := fun _ hx => List.eq_of_mem_replicate hx ▸ Smoother.Inv_powerOn c

theorem reference_valid : Config.reference.valid = true := by decide +kernel

/-- The invariant says nothing of `data`, `result` and the host's side. -/
theorem State.Inv_congr {s t : State} (hs : s.Inv) (hcfg : t.cfg = s.cfg) (hstatus : t.status = s.status)
    (hchain : t.chain = s.chain) (henvs : t.envs = s.envs) (hsms : t.sms = s.sms) : t.Inv where
  cfg := hcfg ▸ hs.cfg
  status := hstatus ▸ hs.status
  count := by rw [State.count, hchain, hcfg]; exact hs.count
  chain := by rw [hchain, hcfg]; exact hs.chain
  envCount := by rw [henvs, hcfg]; exact hs.envCount
  envs := henvs ▸ hs.envs
  smCount := by rw [hsms, hcfg]; exact hs.smCount
  sms := hsms ▸ hs.sms

theorem State.Inv_advance {s : State} (hs : s.Inv) : s.advance.Inv := State.Inv_congr hs rfl rfl rfl rfl rfl

theorem eventStep_Inv {ev : HostEvent} {s t : State} (hs : s.Inv) (h : eventStep ev s = .next t) : t.Inv := by
  obtain rfl | ⟨r, rfl⟩ | ⟨r, v, rfl⟩ | rfl | ⟨i, hi⟩ := eventStep_next h
  · exact State.Inv_congr (State.Inv_powerOn hs.cfg) rfl rfl rfl rfl rfl
  · exact State.Inv_congr hs rfl rfl rfl rfl rfl
  · exact State.Inv_congr hs (by simp) (by simp) (by simp) (by simp) (by simp)
  · exact State.Inv_raiseIllegal (State.Inv_advance hs)
  · exact exec_Inv (State.Inv_advance hs) hi

theorem step_Inv {s t : State} (hs : s.Inv) (h : step s = .next t) : t.Inv := by
  obtain rfl | ⟨ev, rest, hev⟩ := step_next h
  · exact hs
  · have hs' : ({ s with pending := rest } : State).Inv := State.Inv_congr hs rfl rfl rfl rfl rfl
    exact eventStep_Inv hs' hev

/-- Settles O8: by what each event and each command can do, every unit's operation keeping that unit's invariant. -/
theorem stepKeepsInvariant : Obligations.StepKeepsInvariant :=
  ⟨fun _ _ => step_Inv, fun _ _ => step_cfg⟩

/-- Settles O7: the reference configuration is valid, so both parts are power-on reset of a valid configuration. -/
theorem resetMeetsInvariant : Obligations.ResetMeetsInvariant :=
  ⟨State.Inv_powerOn reference_valid, fun _ => State.Inv_powerOn⟩

end Sys2Proof.Machine
end

section
/-! PROOFS. Arithmetic on finite data returns the exact result rounded once, to nearest even (00_scope.md R18). -/

namespace Sys2Proof.F32

/-! ## Values and signs -/

theorem natAbs_val (a : F32) : (val a).natAbs = units a := by
  cases h : sign a <;> simp [val, h]

theorem abs_val (a : F32) : |val a| = (units a : Int) := by
  rw [Int.abs_eq_natAbs, natAbs_val]

theorem isFinite_neg (a : F32) : isFinite (neg a) = isFinite a := by simp [isFinite]

theorem units_eq_zero_iff {a : F32} : units a = 0 ↔ mag a = 0 := by
  rw [units_eq_magUnits]; exact magUnits_inj (b := 0)

/-- The value carries the sign: with the sign of an exact result `z`, its product with `z` is not negative. -/
theorem val_mul_nonneg {r : F32} {z : Int} (h : z ≠ 0 → sign r = decide (z < 0)) : 0 ≤ val r * z := by
  rcases lt_trichotomy z 0 with hz | rfl | hz
  · have hs : sign r = true := by rw [h hz.ne, decide_eq_true hz]
    exact mul_nonneg_of_nonpos_of_nonpos (by simp [val, hs]) hz.le
  · simp
  · have hs : sign r = false := by rw [h hz.ne', decide_eq_false hz.not_gt]
    exact Int.mul_nonneg (by simp [val, hs]) hz.le

/-! ## The one rounding, as the statement of round to nearest even -/

theorem infMag_le_roundMag_iff {n d : Nat} (hd : 0 < d) :
    infMag ≤ roundMag n d ↔ (2 ^ 277 - 2 ^ 252) * d ≤ n := by
  have h := lt_roundMag_iff n (d := d) (m := infMag - 1) hd (by decide)
  have e : magUnits (infMag - 1) + magUnits (infMag - 1 + 1) = 2 * (2 ^ 277 - 2 ^ 252) := by decide +kernel
  have hodd : (infMag - 1) % 2 = 1 := by decide
  have hpos : 0 < infMag := by decide
  rw [e, Nat.mul_assoc] at h
  generalize (2 ^ 277 - 2 ^ 252) * d = B at *
  omega

/-- Of two numbers of one sign the distance is that of their absolute values. -/
theorem abs_sub_of_same_sign {x y : Int} (h : 0 ≤ x * y) : |x - y| = |(|x| - |y|)| := by
  rcases mul_nonneg_iff.1 h with ⟨hx, hy⟩ | ⟨hx, hy⟩
  · rw [abs_of_nonneg hx, abs_of_nonneg hy]
  · rw [abs_of_nonpos hx, abs_of_nonpos hy, abs_sub_comm x y]; congr 1; ring

theorem val_eq_or_neg_of_mag {a b : F32} (h : mag a = mag b) : val a = val b ∨ val a = -val b := by
  rw [← abs_eq_abs, abs_val, abs_val, units_eq_magUnits, units_eq_magUnits, h]

/-- A finite datum with the rounded magnitude and the sign of the exact value is a nearest one, ties to even. -/
theorem nearestEven_of_mag {r : F32} {n d : Int} (hd : d ≠ 0) (hm : mag r = roundMag n.natAbs d.natAbs)
    (hs : 0 ≤ val r * d * n) (hf : isFinite r = true) : Claim.nearestEven r n d := by
  intro v _
  have hd' : 0 < d.natAbs := Int.natAbs_pos.2 hd
  have habs : ∀ a : F32, |val a * d| = (magUnits (mag a) : Int) * (d.natAbs : Int) := fun a => by
    rw [abs_mul, abs_val, Int.abs_eq_natAbs d, units_eq_magUnits]
  obtain ⟨hle, htie⟩ := roundMag_nearest (m' := mag v) hd' hm.symm ((isFinite_iff r).1 hf)
  have hr : |val r * d - n| = |(magUnits (mag r) : Int) * (d.natAbs : Int) - (n.natAbs : Int)| := by
    rw [abs_sub_of_same_sign hs, habs, Int.abs_eq_natAbs n]
  have hv : |(magUnits (mag v) : Int) * (d.natAbs : Int) - (n.natAbs : Int)| ≤ |val v * d - n| := by
    rw [← habs, ← Int.abs_eq_natAbs n]; exact abs_abs_sub_abs_le _ _
  refine ⟨hr ▸ hle.trans hv, fun heq => ?_⟩
  rcases htie (le_antisymm hle (by rw [← hr, heq]; exact hv)) with hmag | heven
  · refine (val_eq_or_neg_of_mag hmag).imp_right fun hneg => ?_
    have hzero : val r = 0 ∨ n = 0 := by
      rw [hneg] at heq
      rcases abs_eq_abs.1 heq with h | h
      · exact .inl ((mul_eq_zero.1 (show val r * d = 0 by linarith)).resolve_right hd)
      · exact .inr (by linarith)
    have hmag0 : mag r = 0 := by
      rcases hzero with h | rfl
      · rw [← units_eq_zero_iff, ← natAbs_val, h, Int.natAbs_zero]
      · rw [hm, Int.natAbs_zero, roundMag_zero]
    rw [hmag0]
  · exact .inr heven

theorem cast_two_pow_sub {m n : Nat} (h : n ≤ m) : ((2 ^ m - 2 ^ n : Nat) : Int) = 2 ^ m - 2 ^ n := by
  rw [Nat.cast_sub (Nat.pow_le_pow_right (by decide) h)]; push_cast; rfl

/-- A datum with the rounded magnitude and the sign of the exact value is that value rounded (R18). -/
theorem roundsTo_of_mag {r : F32} {n d : Int} (hd : d ≠ 0) (hm : mag r = roundMag n.natAbs d.natAbs)
    (hs : 0 ≤ val r * d * n) : Claim.roundsTo r n d := by
  have hd' : 0 < d.natAbs := Int.natAbs_pos.2 hd
  have hcast : (2 ^ 277 - 2 ^ 252) * |d| ≤ |n| ↔ infMag ≤ mag r := by
    rw [hm, infMag_le_roundMag_iff hd', Int.abs_eq_natAbs, Int.abs_eq_natAbs, ← cast_two_pow_sub (by decide),
      ← Nat.cast_mul, Nat.cast_le]
  constructor
  · intro hlt
    have hf : isFinite r = true := (isFinite_iff r).2 (not_le.1 fun h => not_le.2 hlt (hcast.2 h))
    exact ⟨hf, nearestEven_of_mag hd hm hs hf⟩
  · intro hge
    have hle : mag r ≤ infMag := hm ▸ roundMag_le_infMag _ _
    exact decide_eq_true (le_antisymm hle (hcast.1 hge))

theorem roundsTo_roundInt (zn : Bool) (z : Int) : Claim.roundsTo (roundInt zn z) z 1 := by
  refine roundsTo_of_mag one_ne_zero (mag_roundInt zn z) ?_
  rw [mul_one]
  exact val_mul_nonneg fun hz => by rw [sign_roundInt, if_neg hz]

/-- Of the exact quotient `n / d` the rounding that has the sign of `n * d` is the rounding. -/
theorem roundsTo_roundQ {neg : Bool} {n d : Int} (hd : d ≠ 0) (hs : n * d ≠ 0 → neg = decide (n * d < 0)) :
    Claim.roundsTo (roundQ neg n.natAbs d.natAbs) n d := by
  refine roundsTo_of_mag hd (mag_roundQ neg _ _) ?_
  rw [mul_assoc, mul_comm d n]
  exact val_mul_nonneg fun hz => by rw [sign_roundQ]; exact hs hz

/-- The sign of a product of two non-zero values is the IEEE sign of their product and quotient. -/
theorem sign_val_mul {a b : F32} (h : val a * val b ≠ 0) :
    (sign a != sign b) = decide (val a * val b < 0) := by
  have hsign : ∀ c : F32, val c ≠ 0 → sign c = decide (val c < 0) := fun c hc => by
    cases hs : sign c
    · exact (decide_eq_false (by simp [val, hs])).symm
    · exact (decide_eq_true (by simp only [val, hs, cond_true] at *; omega)).symm
  obtain ⟨ha, hb⟩ := mul_ne_zero_iff.1 h
  rw [hsign a ha, hsign b hb, Bool.eq_iff_iff]
  simp [mul_neg_iff]
  omega

/-! ## The four operations -/

theorem roundsTo_add {a b : F32} (ha : isFinite a = true) (hb : isFinite b = true) :
    Claim.roundsTo (add a b) (val a + val b) 1 := by
  rw [add_finite ha hb]; exact roundsTo_roundInt _ _

theorem roundsTo_sub {a b : F32} (ha : isFinite a = true) (hb : isFinite b = true) :
    Claim.roundsTo (sub a b) (val a - val b) 1 := by
  rw [sub_finite ha hb]; exact roundsTo_roundInt _ _

theorem roundsTo_mul {a b : F32} (ha : isFinite a = true) (hb : isFinite b = true) :
    Claim.roundsTo (mul a b) (val a * val b) (2 ^ 149) := by
  have hn : units a * units b = (val a * val b).natAbs := by rw [Int.natAbs_mul, natAbs_val, natAbs_val]
  have hd : oneUnits = (2 ^ 149 : Int).natAbs := rfl
  rw [mul_finite ha hb, hn, hd]
  refine roundsTo_roundQ (by norm_num) fun h => ?_
  rw [sign_val_mul (left_ne_zero_of_mul h), decide_eq_decide]
  omega

theorem roundsTo_div {a b : F32} (ha : isFinite a = true) (hb : isFinite b = true) (h0 : isZero b = false) :
    Claim.roundsTo (div a b) (val a * 2 ^ 149) (val b) := by
  have hn : oneUnits * units a = (val a * 2 ^ 149).natAbs := by
    rw [Int.natAbs_mul, natAbs_val, Nat.mul_comm]; rfl
  have hb0 : val b ≠ 0 := by rw [← Int.natAbs_ne_zero, natAbs_val]; exact (units_pos h0).ne'
  have hcomm : val a * 2 ^ 149 * val b = val a * val b * 2 ^ 149 := by ring
  rw [div_finite ha hb h0, hn, ← natAbs_val b]
  refine roundsTo_roundQ hb0 fun h => ?_
  rw [hcomm] at h ⊢
  rw [sign_val_mul (left_ne_zero_of_mul h), decide_eq_decide]
  omega

/-- Settles O18: each operation rounds its exact result once, and the rounding is `roundMag_nearest`. -/
theorem arithmeticRoundsToNearestEven : Obligations.ArithmeticRoundsToNearestEven := fun a b ha hb =>
  ⟨⟨roundsTo_add ha hb, by rw [add_finite ha hb, sign_roundInt]⟩,
    ⟨roundsTo_sub ha hb, by rw [sub_finite ha hb, sign_roundInt]⟩,
    ⟨roundsTo_mul ha hb, by rw [mul_finite ha hb, sign_roundQ]⟩,
    fun h0 => ⟨roundsTo_div ha hb h0, by rw [div_finite ha hb h0, sign_roundQ]⟩⟩

end Sys2Proof.F32
end

section
/-! PROOFS. Arithmetic where an operand is NaN, an infinity or a zero divisor, the comparisons, and the two operations
on the sign bit (00_scope.md R18). -/

namespace Sys2Proof.F32

/-! ## Infinities and zeros -/

theorem inf_not_nan {a : F32} (h : isInf a = true) : isNaN a = false := by
  rw [isNaN, of_decide_eq_true h]; decide

theorem inf_not_zero {a : F32} (h : isInf a = true) : isZero a = false := by
  rw [isZero, of_decide_eq_true h]; decide

theorem zero_not_inf {a : F32} (h : isZero a = true) : isInf a = false := by
  rw [isInf, of_decide_eq_true h]; decide

theorem zero_not_nan {a : F32} (h : isZero a = true) : isNaN a = false := by
  rw [isNaN, of_decide_eq_true h]; decide

/-- The infinity with the sign of a product. -/
theorem inf_sign_bne (a b : F32) :
    inf (sign a != sign b) = if sign a = sign b then 0x7F800000#32 else 0xFF800000#32 := by
  cases sign a <;> cases sign b <;> decide

/-- The zero with the sign of a quotient. -/
theorem zero_sign_bne (a b : F32) :
    zero (sign a != sign b) = if sign a = sign b then 0x00000000#32 else 0x80000000#32 := by
  cases sign a <;> cases sign b <;> decide

/-! ## NaN operands -/

section NaNOperand

variable {a b : F32} (h : isNaN a = true ∨ isNaN b = true)
include h

theorem add_of_nan : add a b = qNaN := by rcases h with h | h <;> simp [add, h]
theorem mul_of_nan : mul a b = qNaN := by rcases h with h | h <;> simp [mul, h]
theorem div_of_nan : div a b = qNaN := by rcases h with h | h <;> simp [div, h]
theorem sub_of_nan : sub a b = qNaN := add_of_nan (h.imp_right fun h => (isNaN_neg b).trans h)
theorem lt_of_nan : lt a b = false := by rcases h with h | h <;> simp [lt, h]
theorem le_of_nan : le a b = false := by rcases h with h | h <;> simp [le, h]

end NaNOperand

/-! ## Arithmetic with an infinity or a zero divisor -/

section InfinityLeft

variable {a b : F32} (ha : isInf a = true) (hb : isNaN b = false)
include ha hb

theorem add_inf_left : add a b = if isInf b = true ∧ sign a ≠ sign b then qNaN else a := by
  simp [add, inf_not_nan ha, hb, ha]

theorem sub_inf_left : sub a b = if isInf b = true ∧ sign a = sign b then qNaN else a := by
  rw [sub, add_inf_left ha ((isNaN_neg b).trans hb), isInf_neg, sign_neg]
  cases sign a <;> cases sign b <;> simp

theorem mul_inf_left : mul a b = if isZero b = true then qNaN
    else if sign a = sign b then 0x7F800000#32 else 0xFF800000#32 := by
  simp [mul, inf_not_nan ha, hb, ha, inf_not_zero ha, inf_sign_bne]

theorem div_inf_left : div a b = if isInf b = true then qNaN
    else if sign a = sign b then 0x7F800000#32 else 0xFF800000#32 := by
  simp [div, inf_not_nan ha, hb, ha, inf_sign_bne]

end InfinityLeft

section InfinityRight

variable {a b : F32} (ha : isFinite a = true) (hb : isInf b = true)
include ha hb

theorem add_inf_right : add a b = b := by
  simp [add, finite_not_nan ha, finite_not_inf ha, inf_not_nan hb, hb]

theorem sub_inf_right : sub a b = neg b := add_inf_right ha ((isInf_neg b).trans hb)

theorem mul_inf_right : mul a b = if isZero a = true then qNaN
    else if sign a = sign b then 0x7F800000#32 else 0xFF800000#32 := by
  simp [mul, finite_not_nan ha, inf_not_nan hb, hb, inf_not_zero hb, inf_sign_bne]

theorem div_inf_right : div a b = if sign a = sign b then 0x00000000#32 else 0x80000000#32 := by
  simp [div, finite_not_nan ha, finite_not_inf ha, inf_not_nan hb, hb, zero_sign_bne]

end InfinityRight

theorem div_by_zero {a b : F32} (ha : isFinite a = true) (hb : isZero b = true) :
    div a b = if isZero a = true then qNaN else if sign a = sign b then 0x7F800000#32 else 0xFF800000#32 := by
  simp [div, finite_not_nan ha, finite_not_inf ha, zero_not_nan hb, zero_not_inf hb, hb, inf_sign_bne]

/-! ## Comparisons -/

theorem lt_finite_iff {a b : F32} (ha : isFinite a = true) (hb : isFinite b = true) :
    lt a b = true ↔ val a < val b := by
  rw [lt_iff, key_lt_iff]; simp [finite_not_nan ha, finite_not_nan hb]

theorem le_finite_iff {a b : F32} (ha : isFinite a = true) (hb : isFinite b = true) :
    le a b = true ↔ val a ≤ val b := by
  rw [le_iff, key_le_iff]; simp [finite_not_nan ha, finite_not_nan hb]

theorem key_of_inf {a : F32} (h : isInf a = true) : key a = cond (sign a) (-(infMag : Int)) infMag := by
  rw [key, of_decide_eq_true h]

theorem key_bounds {a : F32} (h : isNaN a = false) : -(infMag : Int) ≤ key a ∧ key a ≤ infMag := by
  have hm := (isNaN_false_iff a).1 h
  unfold key
  cases sign a <;> simp only [cond_true, cond_false] <;> omega

/-- Only an infinity itself has its key. -/
theorem key_eq_inf_iff {a b : F32} (h : isInf a = true) : key b = key a ↔ b = a := by
  refine ⟨fun hk => ?_, fun e => e ▸ rfl⟩
  have hm : mag a = infMag := of_decide_eq_true h
  have hpos : 0 < infMag := by decide
  rw [key_of_inf h, key] at hk
  cases ha : sign a <;> cases hb : sign b <;> simp only [ha, hb, cond_true, cond_false] at hk
  · exact ext_sign_mag (hb.trans ha.symm) (by omega)
  · omega
  · omega
  · exact ext_sign_mag (hb.trans ha.symm) (by omega)

/-- An infinity lies beyond every other number, on the side of its sign. -/
theorem compare_inf {a b : F32} (ha : isInf a = true) (hb : isNaN b = false) :
    (lt a b = true ↔ sign a = true ∧ b ≠ a) ∧ (le a b = true ↔ sign a = true ∨ b = a) ∧
      (lt b a = true ↔ sign a = false ∧ b ≠ a) ∧ (le b a = true ↔ sign a = false ∨ b = a) := by
  have hk := key_of_inf ha
  obtain ⟨hlo, hhi⟩ := key_bounds hb
  have hpos : 0 < infMag := by decide
  simp only [lt_iff, le_iff, inf_not_nan ha, hb, true_and, ne_eq, ← key_eq_inf_iff ha]
  cases hs : sign a <;>
    simp only [hs, cond_true, cond_false, reduceCtorEq, true_and, false_and, true_or, false_or, iff_true,
      iff_false] at hk ⊢ <;>
    omega

theorem key_of_zero {a : F32} (h : isZero a = true) : key a = 0 := by
  rw [key, of_decide_eq_true h]; cases sign a <;> rfl

/-- The zeros compare as equal. -/
theorem compare_zeros {a b : F32} (ha : isZero a = true) (hb : isZero b = true) :
    lt a b = false ∧ le a b = true ∧ eq a b = true := by
  simp [lt, le, eq, zero_not_nan ha, zero_not_nan hb, key_of_zero ha, key_of_zero hb]

theorem eq_iff {a b : F32} : eq a b = true ↔ isNaN a = false ∧ isNaN b = false ∧ key a = key b := by
  simp [eq, and_assoc]

theorem eq_eq_le_and_le (a b : F32) : eq a b = (le a b && le b a) := by
  rw [Bool.eq_iff_iff, Bool.and_eq_true, eq_iff, le_iff, le_iff, le_antisymm_iff (a := key a)]
  tauto

/-! ## The sign bit -/

theorem sign_eq_msb (a : F32) : sign a = a.msb := (BitVec.msb_eq_decide a).symm

theorem mag_eq_setWidth (a : F32) : mag a = (a.setWidth 31).toNat := (BitVec.toNat_setWidth 31 a).symm

theorem neg_eq_xor (a : F32) : neg a = a ^^^ 0x80000000#32 := by
  apply ext_sign_mag
  · have hmsb : (0x80000000#32).msb = true := by decide
    rw [sign_neg, sign_eq_msb, sign_eq_msb, BitVec.msb_xor, hmsb, Bool.xor_true]
  · rw [mag_neg, mag_eq_setWidth, mag_eq_setWidth, BitVec.setWidth_xor]; simp

theorem abs_eq_and (a : F32) : abs a = a &&& 0x7FFFFFFF#32 := by
  apply ext_sign_mag
  · have hmsb : (0x7FFFFFFF#32).msb = false := by decide
    rw [sign_abs, sign_eq_msb, BitVec.msb_and, hmsb, Bool.and_false]
  · have hones : (0x7FFFFFFF#32).setWidth 31 = BitVec.allOnes 31 := by decide
    rw [mag_abs, mag_eq_setWidth, mag_eq_setWidth, BitVec.setWidth_and, hones, BitVec.and_allOnes]

/-- Settles O19: one lemma for each kind of operand. -/
theorem nanAndInfinityResults : Obligations.NaNAndInfinityResults := by
  intro a b
  refine ⟨fun h => ⟨add_of_nan h, sub_of_nan h, mul_of_nan h, div_of_nan h, lt_of_nan h, le_of_nan h⟩,
    fun ha hb => ⟨add_inf_left ha hb, sub_inf_left ha hb, mul_inf_left ha hb, div_inf_left ha hb⟩,
    fun ha hb => ⟨add_inf_right ha hb, sub_inf_right ha hb, mul_inf_right ha hb, div_inf_right ha hb⟩,
    div_by_zero, fun ha hb => ⟨lt_finite_iff ha hb, le_finite_iff ha hb⟩, compare_inf, compare_zeros, rfl, rfl,
    eq_eq_le_and_le a b, neg_eq_xor a, abs_eq_and a⟩

end Sys2Proof.F32
end

section
/-! PROOFS. The operand conversions: truncation, clamps, powers of two and rounding half away from zero
(00_scope.md R19). -/

namespace Sys2Proof.F32

/-! ## Powers of two -/

theorem mag_pow2 {n : Nat} (h : n ≤ 127) : mag (pow2 n) = 2 ^ 23 * (127 + n) :=
  mag_ofSignMag false (by omega)

theorem sign_pow2 {n : Nat} (h : n ≤ 127) : sign (pow2 n) = false :=
  sign_ofSignMag false (m := 2 ^ 23 * (127 + n)) (by omega)

theorem isFinite_pow2 {n : Nat} (h : n ≤ 127) : isFinite (pow2 n) = true := by
  rw [isFinite_iff, mag_pow2 h, infMag]; omega

theorem val_pow2 {n : Nat} (h : n ≤ 127) : val (pow2 n) = 2 ^ (149 + n) := by
  have hpat : 2 ^ 23 * (127 + n) = (126 + n) * 2 ^ 23 + 2 ^ 23 := by omega
  have hu : units (pow2 n) = 2 ^ (149 + n) := by
    rw [units_eq_magUnits, mag_pow2 h, hpat, magUnits_pattern _ _ (by decide) (.inr le_rfl), ← Nat.pow_add]
    congr 1; omega
  rw [val, sign_pow2 h, cond_false, hu]; norm_cast

/-! ## Truncation -/

theorem truncMag_mul_le (v : F32) : truncMag v * oneUnits ≤ units v := Nat.div_mul_le_self _ _

theorem units_lt_truncMag_succ_mul (v : F32) : units v < (truncMag v + 1) * oneUnits := by
  rw [Nat.add_mul, Nat.one_mul]; exact Nat.lt_div_mul_add (Nat.two_pow_pos 149)

theorem oneUnits_cast : (oneUnits : Int) = 2 ^ 149 := by norm_num [oneUnits]

theorem key_c0 : key c0 = 0 := by decide

theorem truncSat_of_nan_or_nonpos {v : F32} (h : isNaN v = true ∨ le v c0 = true) : truncSat v = 0 := by
  rcases h with h | h <;> simp [truncSat, h]

theorem truncSat_of_ge {v : F32} (h : le two32 v = true) : truncSat v = 2 ^ 32 - 1 := by
  obtain ⟨_, hn, hk⟩ := le_iff.1 h
  have hpos : 0 < key two32 := by decide
  have h0 : le v c0 = false := by
    rw [Bool.eq_false_iff, Ne, le_iff, key_c0]; omega
  simp [truncSat, hn, h0, ge, h]

/-- Between `+0.0` and `2^32` the result is the integer part. -/
theorem truncSat_between {v : F32} (h0 : lt c0 v = true) (h1 : lt v two32 = true) : truncSat v = truncMag v := by
  obtain ⟨_, hn, hk0⟩ := lt_iff.1 h0
  have hk1 := (lt_iff.1 h1).2.2
  have hle0 : le v c0 = false := by rw [Bool.eq_false_iff, Ne, le_iff]; omega
  have hle1 : le two32 v = false := by rw [Bool.eq_false_iff, Ne, le_iff]; omega
  simp [truncSat, hn, hle0, ge, hle1]

theorem val_of_lt_zero {v : F32} (h : lt c0 v = true) : val v = (units v : Int) := by
  obtain ⟨hn0, hn, hk⟩ := lt_iff.1 h
  exact val_of_le_zero (le_iff.2 ⟨hn0, hn, hk.le⟩)

theorem truncMag_lt_of_lt_two32 {v : F32} (h0 : lt c0 v = true) (h1 : lt v two32 = true) :
    truncMag v < 2 ^ 32 := by
  have hv := key_lt_iff.1 (lt_iff.1 h1).2.2
  rw [val_of_lt_zero h0, two32, val_pow2 (by decide)] at hv
  refine Nat.div_lt_of_lt_mul ?_
  rw [oneUnits, ← Nat.pow_add]
  exact_mod_cast hv

/-- A number is at most another or the other is below it. -/
theorem le_or_lt_of_not_nan {a b : F32} (ha : isNaN a = false) (hb : isNaN b = false) :
    le a b = true ∨ lt b a = true := by
  rw [le_iff, lt_iff]; simp only [ha, hb, true_and]; exact le_or_gt _ _

theorem truncSat_le (v : F32) : truncSat v ≤ 2 ^ 32 - 1 := by
  cases hn : isNaN v with
  | true => rw [truncSat_of_nan_or_nonpos (.inl hn)]; exact Nat.zero_le _
  | false =>
    rcases le_or_lt_of_not_nan hn (b := c0) (by decide) with h0 | h0
    · rw [truncSat_of_nan_or_nonpos (.inr h0)]; exact Nat.zero_le _
    · rcases le_or_lt_of_not_nan (a := two32) (by decide) hn with h1 | h1
      · rw [truncSat_of_ge h1]
      · rw [truncSat_between h0 h1]; exact Nat.le_sub_one_of_lt (truncMag_lt_of_lt_two32 h0 h1)

theorem truncSat_bounds {v : F32} (h0 : lt c0 v = true) (h1 : lt v two32 = true) :
    (truncSat v : Int) * 2 ^ 149 ≤ val v ∧ val v < ((truncSat v : Int) + 1) * 2 ^ 149 := by
  rw [truncSat_between h0 h1, val_of_lt_zero h0, ← oneUnits_cast]
  exact ⟨by exact_mod_cast truncMag_mul_le v, by exact_mod_cast units_lt_truncMag_succ_mul v⟩

theorem truncInt_of_nan_or_inf {v : F32} (h : isNaN v = true ∨ isInf v = true) : truncInt v = 0 := by
  rcases h with h | h <;> simp [truncInt, h]

theorem truncInt_finite {v : F32} (h : isFinite v = true) :
    truncInt v = cond (sign v) (-(truncMag v : Int)) (truncMag v : Int) := by
  simp [truncInt, finite_not_nan h, finite_not_inf h]

/-- `TRUNC_INT` of a finite datum is the integer part of its magnitude, with its sign. -/
theorem truncInt_bounds {v : F32} (h : isFinite v = true) :
    |truncInt v * 2 ^ 149| ≤ |val v| ∧ |val v| < (|truncInt v| + 1) * 2 ^ 149 ∧
      (0 ≤ val v → 0 ≤ truncInt v) ∧ (val v ≤ 0 → truncInt v ≤ 0) := by
  have habs : |truncInt v| = (truncMag v : Int) := by
    rw [truncInt_finite h]; cases sign v <;> simp
  have hzero : units v = 0 → truncMag v = 0 := fun hu => by rw [truncMag, hu, Nat.zero_div]
  have hpow : |(2 ^ 149 : Int)| = oneUnits := by rw [oneUnits_cast]; exact abs_of_pos (by norm_num)
  refine ⟨?_, ?_, ?_, ?_⟩
  · rw [abs_mul, habs, hpow, abs_val]; exact_mod_cast truncMag_mul_le v
  · rw [habs, abs_val, ← oneUnits_cast]; exact_mod_cast units_lt_truncMag_succ_mul v
  all_goals
    rw [truncInt_finite h, val]
    cases sign v <;> simp only [cond_true, cond_false] <;> omega

/-! ## Clamps -/

theorem floorAt_below {v lo : F32} (h : lt v lo = true) : floorAt v lo = lo := by simp [floorAt, h]
theorem floorAt_not_below {v lo : F32} (h : lt v lo = false) : floorAt v lo = v := by simp [floorAt, h]

/-- Settles O20: each conversion by the branches of its definition, the integer part by the division of units. -/
theorem truncatingConversions : Obligations.TruncatingConversions := by
  intro v
  refine ⟨truncSat_of_nan_or_nonpos, truncSat_of_ge, truncSat_bounds, truncSat_le v, truncInt_of_nan_or_inf,
    truncInt_bounds, fun lo hi => ?_, fun n hn => ⟨isFinite_pow2 hn, val_pow2 hn⟩⟩
  exact ⟨fun h => ⟨clamp_below h, floorAt_below h⟩, floorAt_not_below, clamp_above, clamp_between,
    fun h => ⟨clamp_nan h, floorAt_not_below (lt_of_nan (.inl h))⟩⟩

/-! ## Rounding half away from zero -/

/-- The magnitude of a finite datum rounded to a whole number, a half going up. -/
def roundHalfUp (u : Nat) : Nat := (u + oneUnits / 2) / oneUnits

/-- An integer of at most 24 bits is a finite magnitude. -/
theorem exists_magUnits_eq_mul_oneUnits {k : Nat} (h : k < 2 ^ 24) :
    ∃ m, m < infMag ∧ magUnits m = oneUnits * k := by
  rcases Nat.eq_zero_or_pos k with rfl | hpos
  · exact ⟨0, by decide, rfl⟩
  · have hle : 2 ^ Nat.log2 k ≤ k := Nat.log2_self_le hpos.ne'
    have hlt : k < 2 ^ (Nat.log2 k + 1) := Nat.lt_log2_self
    generalize Nat.log2 k = e at *
    have he : e < 24 := (Nat.pow_lt_pow_iff_right (by decide)).1 (hle.trans_lt h)
    have hlo : 2 ^ 23 ≤ k * 2 ^ (23 - e) :=
      calc 2 ^ 23 = 2 ^ e * 2 ^ (23 - e) := by rw [← Nat.pow_add]; congr 1; omega
        _ ≤ k * 2 ^ (23 - e) := Nat.mul_le_mul_right _ hle
    have hhi : k * 2 ^ (23 - e) < 2 ^ 24 :=
      calc k * 2 ^ (23 - e) < 2 ^ (e + 1) * 2 ^ (23 - e) := Nat.mul_lt_mul_of_pos_right hlt (Nat.two_pow_pos _)
        _ = 2 ^ 24 := by rw [← Nat.pow_add]; congr 1; omega
    refine ⟨(126 + e) * 2 ^ 23 + k * 2 ^ (23 - e), by rw [infMag]; omega, ?_⟩
    rw [magUnits_pattern _ _ hhi.le (.inr hlo), Nat.mul_assoc, ← Nat.pow_add, Nat.mul_comm, oneUnits]
    congr 2; omega

/-- A finite magnitude rounded to a whole number is a finite magnitude: from `2^23` on every magnitude is whole, and
below it the whole number has at most 24 bits. -/
theorem exists_magUnits_roundHalfUp {m : Nat} (h : m < infMag) :
    ∃ m', m' < infMag ∧ magUnits m' = oneUnits * roundHalfUp (magUnits m) := by
  obtain ⟨sh, q, rfl, hq, hs⟩ := exists_pattern m
  have hone : 0 < oneUnits := Nat.two_pow_pos 149
  by_cases hsh : 149 ≤ sh
  · refine ⟨_, h, ?_⟩
    have hwhole : magUnits (sh * 2 ^ 23 + q) = oneUnits * (q * 2 ^ (sh - 149)) := by
      rw [magUnits_pattern sh q hq.le hs, Nat.mul_left_comm, oneUnits, ← Nat.pow_add,
        Nat.add_sub_of_le hsh]
    rw [hwhole, roundHalfUp, Nat.mul_add_div hone, Nat.div_eq_of_lt (Nat.div_lt_self hone (by decide)), Nat.add_zero]
  · apply exists_magUnits_eq_mul_oneUnits
    rw [magUnits_pattern sh q hq.le hs]
    refine Nat.div_lt_of_lt_mul ?_
    have hsmall : q * 2 ^ sh < 2 ^ 24 * 2 ^ 148 :=
      Nat.mul_lt_mul_of_lt_of_le hq (Nat.pow_le_pow_right (by decide) (by omega)) (Nat.two_pow_pos _)
    rw [oneUnits]
    omega

theorem roundHafz_of_not_finite_or_zero {v : F32} (h : isNaN v = true ∨ isInf v = true ∨ isZero v = true) :
    roundHafz v = v := by
  rcases h with h | h | h <;> simp [roundHafz, h]

/-- `ROUND_HAFZ` of a finite non-zero datum keeps the sign and rounds the magnitude exactly. -/
theorem roundHafz_finite {v : F32} (h : isFinite v = true) (h0 : isZero v = false) :
    isFinite (roundHafz v) = true ∧ sign (roundHafz v) = sign v ∧
      units (roundHafz v) = oneUnits * roundHalfUp (units v) := by
  obtain ⟨m, hm, hu⟩ := exists_magUnits_roundHalfUp ((isFinite_iff v).1 h)
  have hr : roundHafz v = roundQ (sign v) (magUnits m * 1) 1 := by
    rw [Nat.mul_one, hu]
    simp [roundHafz, finite_not_nan h, finite_not_inf h, h0, roundHalfUp, units_eq_magUnits]
  have hmag : mag (roundHafz v) = m := by rw [hr, mag_roundQ, roundMag_exact (by decide) hm]
  refine ⟨(isFinite_iff _).2 (hmag ▸ hm), by rw [hr, sign_roundQ], ?_⟩
  rw [units_eq_magUnits, hmag, hu, units_eq_magUnits]

/-- A rounded magnitude is at most a half away, and at exactly a half it is the greater. -/
theorem roundHalfUp_bounds (u : Nat) :
    2 * (oneUnits * roundHalfUp u) ≤ 2 * u + oneUnits ∧ 2 * u < 2 * (oneUnits * roundHalfUp u) + oneUnits := by
  have hdiv : oneUnits * roundHalfUp u + (u + oneUnits / 2) % oneUnits = u + oneUnits / 2 := Nat.div_add_mod _ _
  have hmod : (u + oneUnits / 2) % oneUnits < oneUnits := Nat.mod_lt _ (Nat.two_pow_pos 149)
  have heven : 2 * (oneUnits / 2) = oneUnits := by decide
  generalize oneUnits * roundHalfUp u = r at *
  omega

/-- Of two data of one sign the values lie as far apart as the magnitudes. -/
theorem abs_val_sub_of_sign_eq {a b : F32} (h : sign a = sign b) : |val a - val b| = |(units a : Int) - units b| := by
  rw [val, val, h]
  cases sign b
  · rfl
  · rw [cond_true, cond_true, abs_sub_comm (units a : Int)]; congr 1; ring

theorem roundHafz_nearest {v : F32} (h : isFinite v = true) :
    isFinite (roundHafz v) = true ∧ (2 ^ 149 : Int) ∣ val (roundHafz v) ∧
      2 * |val (roundHafz v) - val v| ≤ 2 ^ 149 ∧
      (2 * |val (roundHafz v) - val v| = 2 ^ 149 → |val v| < |val (roundHafz v)|) := by
  cases h0 : isZero v with
  | true =>
    have hv : val v = 0 := by
      rw [← Int.natAbs_eq_zero, natAbs_val, units_eq_zero_iff]; exact of_decide_eq_true h0
    rw [roundHafz_of_not_finite_or_zero (.inr (.inr h0)), hv]
    exact ⟨h, dvd_zero _, by norm_num, by norm_num⟩
  | false =>
    obtain ⟨hf, hs, hu⟩ := roundHafz_finite h h0
    obtain ⟨hlo, hhi⟩ := roundHalfUp_bounds (units v)
    rw [abs_val_sub_of_sign_eq hs, abs_val, abs_val, ← oneUnits_cast]
    refine ⟨hf, ?_, ?_⟩
    · rw [← abs_dvd_abs, abs_val, hu, Nat.abs_cast]; exact_mod_cast Nat.dvd_mul_right _ _
    · rw [← hu] at hlo hhi
      generalize oneUnits = one at *
      rcases abs_cases ((units (roundHafz v) : Int) - units v) with ⟨ha, _⟩ | ⟨ha, _⟩ <;> rw [ha] <;> omega

/-- Settles O21: the rounded magnitude is a whole number of at most 24 bits or the operand's own, so it is exact. -/
theorem roundHafzIsNearestInteger : Obligations.RoundHafzIsNearestInteger := fun _ =>
  ⟨roundHafz_nearest, roundHafz_of_not_finite_or_zero⟩

end Sys2Proof.F32
end

section
/-! PROOFS. What power-on reset leaves (10_state.md R50 to R53, 70_reset_and_hazards.md R361), and that a step with a `CMD`
write waiting runs the decoded command (10_state.md R31, R33; 60_exceptions.md R331). -/

namespace Sys2Proof.Machine

/-! ## Power-on reset -/

@[simp] theorem State.powerOn_cfg (c : Cfg) : (State.powerOn c).cfg = c := rfl
@[simp] theorem State.powerOn_data (c : Cfg) : (State.powerOn c).data = 0x00000000#32 := rfl
@[simp] theorem State.powerOn_result (c : Cfg) : (State.powerOn c).result = 0x00000000#32 := rfl
@[simp] theorem State.powerOn_status (c : Cfg) : (State.powerOn c).status = 0x00000000#32 := rfl
@[simp] theorem State.powerOn_count (c : Cfg) : (State.powerOn c).count = 0 := rfl
@[simp] theorem State.powerOn_envs_length (c : Cfg) : (State.powerOn c).envs.length = c.N_ENV := List.length_replicate
@[simp] theorem State.powerOn_sms_length (c : Cfg) : (State.powerOn c).sms.length = c.N_SM := List.length_replicate

/-- `CMD` stores nothing (10_state.md R33). -/
@[simp] theorem State.readReg_cmd (s : State) : s.readReg .cmd = 0x00000000#32 := rfl

theorem State.eq_of_mem_powerOn_envs {c : Cfg} {e : Envelope} (he : e ∈ (State.powerOn c).envs) :
    e = Envelope.powerOn c := List.eq_of_mem_replicate he

theorem State.eq_of_mem_powerOn_sms {c : Cfg} {x : Smoother} (hx : x ∈ (State.powerOn c).sms) :
    x = Smoother.powerOn c := List.eq_of_mem_replicate hx

/-- Settles O6: the lists of reset are replicas of the one reset envelope and smoother, whose fields are the values stated
(the floors and the clamp of `ENV_INIT` are those of the setters). -/
theorem powerOnValues : Obligations.PowerOnValues := fun c =>
  ⟨State.powerOn_cfg c, State.powerOn_data c, State.powerOn_result c, State.powerOn_status c, State.readReg_cmd _,
    State.powerOn_count c, State.powerOn_envs_length c, State.powerOn_sms_length c,
    fun _ he => State.eq_of_mem_powerOn_envs he, fun _ hx => State.eq_of_mem_powerOn_sms hx⟩

/-! ## A step on a `CMD` write -/

theorem command_of_decode_ok {w : Word} {i : Instr} (h : decode w = .ok i) (s : State) :
    command w s = exec i s.advance := by
  simp only [command, h]

theorem command_of_decode_error {w : Word} {e : DecodeError} (h : decode w = .error e) (s : State) :
    command w s = .next s.advance.raiseIllegal := by
  simp only [command, h]

/-- A step with a `CMD` write waiting is the command of its word, whatever the word. -/
theorem step_memWrite_cmd {s : State} {w : Word} {rest : List HostEvent} (hv : s.cfg.valid = true)
    (hb : s.cfg.BASE % 4 = 0) (h : s.pending = memWrite s.cfg .cmd w :: rest) :
    step s = command w { s with pending := rest } := step_memWrite hv hb h

/-- Settles O9: the step is the command of the word written, which runs what the word decodes to or is illegal. -/
theorem stepRunsDecodedCommand : Obligations.StepRunsDecodedCommand := by
  intro s w rest hv hb hp
  rw [step_memWrite_cmd hv hb hp]
  exact ⟨fun _ hi => command_of_decode_ok hi _, fun _ he => command_of_decode_error he _⟩

end Sys2Proof.Machine
end

section
/-! PROOFS. The register window of the host (20_memory.md R80 to R86): the byte order of a command word, what an access to
each register does, and which accesses take a step. -/

namespace Sys2Proof

/-! ## Byte order -/

/-- A word is the packing of its four bytes, bits 7:0 last (20_memory.md R83). -/
theorem packFields_extractLsb' (w : Word) :
    packFields (w.extractLsb' 24 8).toNat (w.extractLsb' 16 8).toNat (w.extractLsb' 8 8).toNat
      (w.extractLsb' 0 8).toNat = w := by
  apply BitVec.eq_of_toNat_eq
  simp only [packFields, BitVec.toNat_ofNat, BitVec.extractLsb'_toNat, Nat.shiftRight_eq_div_pow]
  omega

theorem decodeBytes_cons (b0 b1 b2 b3 : Byte) (rest : List Byte) :
    decodeBytes (b0 :: b1 :: b2 :: b3 :: rest) =
      (decode (packFields b3.toNat b2.toNat b1.toNat b0.toNat)).map fun i => (i, rest) := by
  rw [decodeBytes]
  cases decode (packFields b3.toNat b2.toNat b1.toNat b0.toNat) <;> rfl

/-- Settles O4: the decoder packs the four bytes in this order, which gives the word back. -/
theorem commandBytesAreLittleEndian : Obligations.CommandBytesAreLittleEndian := by
  intro w rest
  rw [decodeBytes_cons, packFields_extractLsb']

end Sys2Proof

namespace Sys2Proof.Machine

/-! ## The registers -/

/-- Settles O10: a write other than of `CMD` is `hostWrites`, a read is `hostReads`; the stated states are theirs. -/
theorem hostRegisterAccesses : Obligations.HostRegisterAccesses := fun _ _ _ hv hb =>
  ⟨fun h => step_memWrite hv hb h, fun h => step_memWrite hv hb h, fun h => step_memWrite hv hb h,
    fun h => step_memRead hv hb h, fun h => step_memRead hv hb h, fun h => step_memRead hv hb h,
    fun h => step_memRead hv hb h⟩

/-! ## Every access to a register takes a next state -/

/-- Every command ends in a next state, and it reaches only the chain, the envelopes, the smoothers, `RESULT` and `STATUS`
(60_exceptions.md R330): `DATA`, the configuration and the host's side stay. -/
theorem exec_eq_next (i : Instr) (s : State) : ∃ chain envs sms result status, exec i s =
    .next { s with chain := chain, envs := envs, sms := sms, result := result, status := status } := by
  cases hu : unitOf i with
  | some u =>
    cases u with
    | slot idx => obtain ⟨_, hg⟩ := exec_slot hu; exact ⟨_, _, _, _, _, hg s⟩
    | env idx => obtain ⟨_, hg⟩ := exec_env_modify hu; exact ⟨_, _, _, _, _, hg s⟩
    | sm idx => obtain ⟨_, hg⟩ := exec_sm_modify hu; exact ⟨_, _, _, _, _, hg s⟩
  | none =>
    cases i <;> simp only [unitOf, reduceCtorEq] at hu
    case nop => exact ⟨_, _, _, _, _, rfl⟩
    case chAdd kind =>
      show ∃ chain envs sms result status, execChAdd kind s = _
      unfold execChAdd
      split
      · exact ⟨_, _, _, _, _, rfl⟩
      · split <;> exact ⟨_, _, _, _, _, rfl⟩
    case chRem idx =>
      show ∃ chain envs sms result status, execChRem idx s = _
      unfold execChRem
      split <;> exact ⟨_, _, _, _, _, rfl⟩
    case chProc => exact ⟨_, _, _, _, _, rfl⟩
    case chRstall => exact ⟨_, _, _, _, _, rfl⟩
    case chCount => exact ⟨_, _, _, _, _, rfl⟩

/-- A `CMD` write takes a next state and leaves the accesses that wait after it, whether its word is a command or not. -/
theorem command_eq_next (w : Word) (s : State) : ∃ t, command w s = .next t ∧ t.pending = s.pending := by
  cases hw : decode w with
  | ok i =>
    obtain ⟨_, _, _, _, _, h⟩ := exec_eq_next i s.advance
    exact ⟨_, (command_of_decode_ok hw s).trans h, rfl⟩
  | error e => exact ⟨_, command_of_decode_error hw s, rfl⟩

/-- An access to a register takes a next state and leaves the accesses that wait after it. -/
theorem accessStep_eq_next (r : HostReg) (k : AccessKind) (s : State) :
    ∃ t, accessStep r k s = .next t ∧ t.pending = s.pending := by
  cases k with
  | read => exact ⟨_, rfl, s.hostReads_pending r⟩
  | write w =>
    cases r with
    | cmd => exact command_eq_next w s
    | data => exact ⟨_, rfl, s.hostWrites_pending .data w⟩
    | result => exact ⟨_, rfl, s.hostWrites_pending .result w⟩
    | status => exact ⟨_, rfl, s.hostWrites_pending .status w⟩

theorem step_access_some {s : State} {a : HostAccess} {rest : List HostEvent} {r : HostReg} (hv : s.cfg.valid = true)
    (hp : s.pending = .access a :: rest) (h : accessReg s.cfg a = some r) :
    step s = accessStep r a.kind { s with pending := rest } := by
  rw [step_pending hv hp]
  simp only [eventStep, h]

theorem step_access_none {s : State} {a : HostAccess} {rest : List HostEvent} (hv : s.cfg.valid = true)
    (hp : s.pending = .access a :: rest) (h : accessReg s.cfg a = none) : step s = .refused .undefinedAccess := by
  rw [step_pending hv hp]
  simp only [eventStep, h]

/-- Settles O11: the condition says that the access reaches a register (`accessReg_isSome_iff`), and an access to a register
takes a next state. -/
theorem onlyFourWordsAreAccessible : Obligations.OnlyFourWordsAreAccessible := by
  intro s a rest hv hp
  split
  · next hacc =>
    obtain ⟨r, hr⟩ := Option.isSome_iff_exists.1 ((accessReg_isSome_iff s.cfg a).2 hacc)
    rw [step_access_some hv hp hr]
    exact accessStep_eq_next r a.kind _
  · next hacc =>
    have hnone : accessReg s.cfg a = none :=
      Option.not_isSome_iff_eq_none.1 fun h => hacc ((accessReg_isSome_iff s.cfg a).1 h)
    exact step_access_none hv hp hnone

end Sys2Proof.Machine
end

section
/-! PROOFS. Encoding and decoding are inverse to each other on the well-formed commands (30_encoding.md R101 to R105, R108),
what the commands on a position without an effect do (R109), and the accesses of an assembly line (R114, R115). -/

namespace Sys2Proof

/-! ## The fields of a word -/

theorem byteField_lt (w : Word) (lo : Nat) : byteField w lo < 256 := Nat.mod_lt _ (by decide)

theorem byteField_eq_extractLsb' (w : Word) (lo : Nat) : byteField w lo = (w.extractLsb' lo 8).toNat := by
  rw [BitVec.extractLsb'_toNat, Nat.shiftRight_eq_div_pow, byteField]

/-- The four fields of a word give it back (R101). -/
theorem packFields_fields (w : Word) : packFields (opField w) (idxField w) (selField w) (rsvField w) = w := by
  simp only [opField, idxField, selField, rsvField, byteField_eq_extractLsb', packFields_extractLsb']

section PackFields
variable {op idx sel rsv : Nat}

@[simp] theorem opField_packFields (h : op < 256) : opField (packFields op idx sel rsv) = op := by
  simp only [opField, byteField, packFields, BitVec.toNat_ofNat]; omega

@[simp] theorem idxField_packFields (h : idx < 256) : idxField (packFields op idx sel rsv) = idx := by
  simp only [idxField, byteField, packFields, BitVec.toNat_ofNat]; omega

@[simp] theorem selField_packFields (h : sel < 256) : selField (packFields op idx sel rsv) = sel := by
  simp only [selField, byteField, packFields, BitVec.toNat_ofNat]; omega

@[simp] theorem rsvField_packFields (h : rsv < 256) : rsvField (packFields op idx sel rsv) = rsv := by
  simp only [rsvField, byteField, packFields, BitVec.toNat_ofNat]; omega

end PackFields

/-! ## The codes of names and kinds -/

theorem ParamName.id_ofId (id : Nat) : (ParamName.ofId id).id = id := by
  unfold ParamName.ofId
  split_ifs <;> simp only [ParamName.id, *]

theorem ParamName.ofId_other {id : Nat} (h : id = 0 ∨ 10 ≤ id) : ParamName.ofId id = .other id := by
  simp (disch := omega) only [ParamName.ofId, if_neg]

theorem ParamName.ofId_id {name : ParamName} (h : name.wf = true) : ParamName.ofId name.id = name := by
  cases name with
  | other id =>
    simp only [ParamName.wf, Bool.and_eq_true, decide_eq_true_eq] at h
    exact ParamName.ofId_other h.1
  | _ => rfl

theorem ParamName.id_lt {name : ParamName} (h : name.wf = true) : name.id < 256 := by
  cases name with
  | other id =>
    simp only [ParamName.wf, Bool.and_eq_true, decide_eq_true_eq] at h
    exact h.2
  | _ => decide

theorem ParamName.wf_ofId {id : Nat} (h : id < 256) : (ParamName.ofId id).wf = true := by
  unfold ParamName.ofId
  split_ifs <;> simp only [ParamName.wf, Bool.and_eq_true, decide_eq_true_eq]
  omega

theorem KindCode.code_ofCode (code : Nat) : (KindCode.ofCode code).code = code := by
  unfold KindCode.ofCode
  split_ifs <;> simp only [KindCode.code, *]

theorem KindCode.ofCode_bad {code : Nat} (h : code = 0 ∨ 4 ≤ code) : KindCode.ofCode code = .bad code := by
  simp (disch := omega) only [KindCode.ofCode, if_neg]

theorem KindCode.ofCode_code {kind : KindCode} (h : kind.wf = true) : KindCode.ofCode kind.code = kind := by
  cases kind with
  | bad code =>
    simp only [KindCode.wf, Bool.and_eq_true, decide_eq_true_eq] at h
    exact KindCode.ofCode_bad h.1
  | _ => rfl

theorem KindCode.code_lt {kind : KindCode} (h : kind.wf = true) : kind.code < 256 := by
  cases kind with
  | bad code =>
    simp only [KindCode.wf, Bool.and_eq_true, decide_eq_true_eq] at h
    exact h.2
  | _ => decide

theorem KindCode.wf_ofCode {code : Nat} (h : code < 256) : (KindCode.ofCode code).wf = true := by
  unfold KindCode.ofCode
  split_ifs <;> simp only [KindCode.wf, Bool.and_eq_true, decide_eq_true_eq]
  omega

/-! ## What the decoder answers -/

/-- A word is a command exactly if its reserved byte is 0, its opcode has a row, and the row reads its `IDX` and `SEL`
(R108 (a) to (c)). -/
theorem decode_eq_ok_iff {w : Word} {i : Instr} :
    decode w = .ok i ↔ rsvField w = 0 ∧
      ∃ r, opcodeMap.find? (fun r => r.op == opField w) = some r ∧ r.shape.read (idxField w) (selField w) = .ok i := by
  unfold decode
  by_cases h : rsvField w = 0
  · cases opcodeMap.find? (fun r => r.op == opField w) <;> simp [h]
  · simp [h]

section ShapeRead
variable {idx sel : Nat} {i : Instr}

theorem Shape.read_plain_eq_ok_iff {j : Instr} : (Shape.plain j).read idx sel = .ok i ↔ idx = 0 ∧ sel = 0 ∧ j = i := by
  by_cases hidx : idx = 0 <;> by_cases hsel : sel = 0 <;> simp [Shape.read, hidx, hsel]

theorem Shape.read_indexed_eq_ok_iff {mk : Nat → Instr} :
    (Shape.indexed mk).read idx sel = .ok i ↔ sel = 0 ∧ mk idx = i := by
  by_cases hsel : sel = 0 <;> simp [Shape.read, hsel]

theorem Shape.read_selected_eq_ok_iff {mk : Nat → Instr} :
    (Shape.selected mk).read idx sel = .ok i ↔ idx = 0 ∧ mk sel = i := by
  by_cases hidx : idx = 0 <;> simp [Shape.read, hidx]

theorem Shape.read_indexedSelected_eq_ok_iff {mk : Nat → Nat → Instr} :
    (Shape.indexedSelected mk).read idx sel = .ok i ↔ mk idx sel = i := by
  simp [Shape.read]

end ShapeRead

/-! ## From a command to its row -/

theorem Instr.opcode_lt (i : Instr) : i.fields.1 < 256 := by
  cases i <;> simp only [Instr.fields] <;> decide

/-- `IDX` and `SEL` of a well-formed command fit their bytes (R101). -/
theorem Instr.idx_sel_lt {i : Instr} (h : i.wf = true) : i.fields.2.1 < 256 ∧ i.fields.2.2 < 256 := by
  cases i with
  | nop | chProc | chRstall | chCount => decide
  | efxSetp idx name =>
    obtain ⟨hidx, hname⟩ := (Bool.and_eq_true _ _).mp h
    exact ⟨of_decide_eq_true hidx, ParamName.id_lt hname⟩
  | chAdd kind => exact ⟨Nat.succ_pos _, KindCode.code_lt h⟩
  | _ => exact ⟨of_decide_eq_true h, Nat.succ_pos _⟩

/-- The row of a well-formed command's opcode reads the command from its other two fields (R103). -/
theorem Instr.row_reads_fields {i : Instr} (h : i.wf = true) :
    ∃ r, opcodeMap.find? (fun r => r.op == i.fields.1) = some r ∧ r.shape.read i.fields.2.1 i.fields.2.2 = .ok i := by
  cases i with
  | efxSetp idx name =>
    obtain ⟨_, hname⟩ := (Bool.and_eq_true _ _).mp h
    exact ⟨_, rfl, Shape.read_indexedSelected_eq_ok_iff.2 (congrArg (Instr.efxSetp idx) (ParamName.ofId_id hname))⟩
  | chAdd kind => exact ⟨_, rfl, Shape.read_selected_eq_ok_iff.2 ⟨rfl, congrArg Instr.chAdd (KindCode.ofCode_code h)⟩⟩
  | _ => exact ⟨_, rfl, rfl⟩

/-- Settles O1: the fields of the word are the command's, and the row of its opcode reads the command from them. -/
theorem decodeOfEncode : Obligations.DecodeOfEncode := by
  intro i h
  obtain ⟨hidx, hsel⟩ := Instr.idx_sel_lt h
  rw [decode_eq_ok_iff, encode, opField_packFields i.opcode_lt, idxField_packFields hidx, selField_packFields hsel]
  exact ⟨rsvField_packFields (by decide), Instr.row_reads_fields h⟩

/-! ## From a row to its commands -/

/-- Every command the row reads from `IDX` and `SEL` is well-formed, with the row's opcode and these fields. -/
def OpRow.ReadsFields (r : OpRow) : Prop :=
  ∀ ⦃idx sel : Nat⦄ ⦃i : Instr⦄, idx < 256 → sel < 256 → r.shape.read idx sel = .ok i →
    i.wf = true ∧ i.fields = (r.op, idx, sel)

namespace OpRow.ReadsFields
variable {op : Nat}

theorem plain {i : Instr} (hwf : i.wf = true := by rfl) (hf : i.fields = (op, 0, 0) := by rfl) :
    ReadsFields ⟨op, .plain i⟩ := by
  intro idx sel j _ _ h
  obtain ⟨rfl, rfl, rfl⟩ := Shape.read_plain_eq_ok_iff.1 h
  exact ⟨hwf, hf⟩

theorem indexed {mk : Nat → Instr} (hwf : ∀ idx, (mk idx).wf = idxWf idx := by intro; rfl)
    (hf : ∀ idx, (mk idx).fields = (op, idx, 0) := by intro; rfl) : ReadsFields ⟨op, .indexed mk⟩ := by
  intro idx sel j hidx _ h
  obtain ⟨rfl, rfl⟩ := Shape.read_indexed_eq_ok_iff.1 h
  exact ⟨(hwf idx).trans (decide_eq_true hidx), hf idx⟩

/-- The row of `EFX.SETP`, the one that uses both fields. -/
theorem efxSetp : ReadsFields ⟨0x12, .indexedSelected fun idx sel => .efxSetp idx (.ofId sel)⟩ := by
  intro idx sel j hidx hsel h
  obtain rfl := Shape.read_indexedSelected_eq_ok_iff.1 h
  exact ⟨(Bool.and_eq_true _ _).mpr ⟨decide_eq_true hidx, ParamName.wf_ofId hsel⟩,
    congrArg (fun id => (0x12, idx, id)) (ParamName.id_ofId sel)⟩

/-- The row of `CH.ADD`, the one that uses `SEL` alone. -/
theorem chAdd : ReadsFields ⟨0x20, .selected fun sel => .chAdd (.ofCode sel)⟩ := by
  intro idx sel j _ hsel h
  obtain ⟨rfl, rfl⟩ := Shape.read_selected_eq_ok_iff.1 h
  exact ⟨KindCode.wf_ofCode hsel, congrArg (fun code => (0x20, 0, code)) (KindCode.code_ofCode sel)⟩

/-- Every row of the opcode map, in its order (R103). -/
theorem of_mem_opcodeMap : ∀ r ∈ opcodeMap, r.ReadsFields :=
  List.forall_iff_forall_mem.1
    ⟨plain, indexed, indexed, efxSetp, indexed, chAdd, indexed, plain, plain, plain, indexed, indexed, indexed, indexed,
      indexed, indexed, indexed, indexed, indexed, indexed, indexed, indexed, indexed, indexed⟩

end OpRow.ReadsFields

/-- Settles O2: the row that reads the command gives it the word's own fields, and the reserved byte is 0. -/
theorem encodeOfDecode : Obligations.EncodeOfDecode := by
  intro w i h
  obtain ⟨hrsv, r, hr, hread⟩ := decode_eq_ok_iff.1 h
  have hop : r.op = opField w := by simpa using List.find?_some hr
  have hrow := OpRow.ReadsFields.of_mem_opcodeMap r (List.mem_of_find?_eq_some hr)
  obtain ⟨hwf, hf⟩ := hrow (byteField_lt w 16) (byteField_lt w 8) hread
  refine ⟨hwf, ?_⟩
  calc encode i = packFields (opField w) (idxField w) (selField w) (rsvField w) := by rw [encode, hf, hop, hrsv]; rfl
    _ = w := packFields_fields w

/-- Settles O3: seven of the words are the words of their commands, and the map has no row for opcode `0x45`. -/
theorem specWordsDecode : Obligations.SpecWordsDecode :=
  ⟨decodeOfEncode .nop rfl, decodeOfEncode (.efxSetp 0 .cutoff) rfl, decodeOfEncode (.chAdd .distortion) rfl,
    decodeOfEncode (.chRem 1) rfl, decodeOfEncode (.envProc 2) rfl, decodeOfEncode (.smRst 1) rfl,
    decodeOfEncode (.efxSetp 255 (.other 255)) rfl, rfl⟩

end Sys2Proof

namespace Sys2Proof.Machine

/-! ## A position without an effect -/

theorem execChRem_of_count_le {s : State} {idx : Nat} (h : s.count ≤ idx) :
    execChRem idx s = .next (s.complete (boolWord false)) := if_neg (not_lt.2 h)

/-- Settles O30: the slot is empty, so three commands are illegal and the other two return false. -/
theorem noSuchEffect : Obligations.NoSuchEffect := by
  intro s idx h
  have hs : s.slot idx = none := (s.slot_eq_none_iff idx).2 h
  exact ⟨onSlot_none hs, onSlot_none hs, onSlot_none hs, fun _ => execEfxSetp_none hs, execChRem_of_count_le h⟩

/-! ## Assembly lines -/

theorem lineEvents_of_usesValue {c : Cfg} {i : Instr} {v : F32} (h : usesValue i = true) :
    lineEvents c (i, v) = [memWrite c .data v, memWrite c .cmd (encode i)] := if_pos h

theorem lineEvents_of_not_usesValue {c : Cfg} {i : Instr} {v : F32} (h : usesValue i = false) :
    lineEvents c (i, v) = [memWrite c .cmd (encode i)] := if_neg (ne_true_of_eq_false h)

/-- The `V` column of R103. -/
theorem usesValue_iff (i : Instr) : usesValue i = true ↔
    (∃ idx, i = .efxProc idx ∨ (∃ name, i = .efxSetp idx name) ∨ i = .envSeta idx ∨ i = .envSetd idx ∨
      i = .envSeth idx ∨ i = .envSets idx ∨ i = .envSetr idx ∨ i = .smTgt idx ∨ i = .smFact idx ∨ i = .smRst idx ∨
      i = .smClose idx) ∨ i = .chProc := by
  cases i <;> simp [usesValue]

/-- A step with the `CMD` write of a command's word waiting runs the command. -/
theorem step_cmd_encode {s : State} {i : Instr} {rest : List HostEvent} (hv : s.cfg.valid = true)
    (hb : s.cfg.BASE % 4 = 0) (hi : i.wf = true) (hp : s.pending = memWrite s.cfg .cmd (encode i) :: rest) :
    step s = exec i { s with pending := rest, pc := s.pc + 1 } :=
  (step_memWrite_cmd hv hb hp).trans (command_of_decode_ok (decodeOfEncode i hi) _)

/-- Settles O59: a command's word decodes to it (O1), and the `DATA` write before it, if any, has put the value there. -/
theorem assembledLineRuns : Obligations.AssembledLineRuns := by
  refine ⟨usesValue_iff, fun s i v rest hv hb hi hp => ⟨fun hu => ?_, fun hu => ?_⟩⟩
  · rw [lineEvents_of_usesValue hu] at hp
    exact ⟨_, step_memWrite hv hb hp, step_cmd_encode hv hb hi rfl⟩
  · rw [lineEvents_of_not_usesValue hu] at hp
    exact step_cmd_encode hv hb hi hp

/-- Settles O60: each expansion is the list stated. -/
theorem pseudoExpansions : Obligations.PseudoExpansions := fun _ _ _ _ _ _ _ => ⟨rfl, rfl, rfl, rfl, rfl, rfl⟩

end Sys2Proof.Machine
end

section
/-! PROOFS. Arithmetic on zeros, and the quotient of a negated datum (00_scope.md R18). -/

namespace Sys2Proof.F32

/-! ## Arithmetic on zeros -/

theorem isZero_iff {a : F32} : isZero a = true ↔ mag a = 0 := by simp [isZero]

theorem zero_finite {a : F32} (h : isZero a = true) : isFinite a = true := by
  rw [isFinite_iff, isZero_iff.1 h]; decide

theorem units_of_zero {a : F32} (h : isZero a = true) : units a = 0 := units_eq_zero_iff.2 (isZero_iff.1 h)

theorem val_of_zero {a : F32} (h : isZero a = true) : val a = 0 := by
  rw [← Int.natAbs_eq_zero, natAbs_val, units_of_zero h]

theorem isZero_mul {a b : F32} (ha : isFinite a = true) (hb : isZero b = true) : isZero (mul a b) = true := by
  rw [mul_finite ha (zero_finite hb), units_of_zero hb, isZero_iff, mag_roundQ, Nat.mul_zero, roundMag_zero]

theorem isZero_add {a b : F32} (ha : isZero a = true) (hb : isZero b = true) : isZero (add a b) = true := by
  rw [add_finite (zero_finite ha) (zero_finite hb), val_of_zero ha, val_of_zero hb, isZero_iff, mag_roundInt]
  exact roundMag_zero 1

theorem isZero_sub {a b : F32} (ha : isZero a = true) (hb : isZero b = true) : isZero (sub a b) = true :=
  isZero_add ha ((isZero_neg b).trans hb)

/-! ## A negated dividend -/

theorem neg_ofSignMag (b : Bool) {m : Nat} (h : m < 2 ^ 31) : neg (ofSignMag b m) = ofSignMag (!b) m := by
  rw [neg, sign_ofSignMag b h, mag_ofSignMag b h]

theorem neg_roundQ (b : Bool) (n d : Nat) : neg (roundQ b n d) = roundQ (!b) n d := neg_ofSignMag b (roundMag_lt n d)
theorem neg_inf_eq (b : Bool) : neg (inf b) = inf (!b) := neg_ofSignMag b (by decide)
theorem neg_zero_eq (b : Bool) : neg (zero b) = zero (!b) := neg_ofSignMag b (by decide)

theorem isNaN_qNaN : isNaN qNaN = true := by decide

/-- Negating the dividend negates the quotient, unless that is NaN: an arithmetic NaN has one sign. -/
theorem div_neg_left {a b : F32} (h : isNaN (div a b) = false) : div (neg a) b = neg (div a b) := by
  unfold div at h ⊢
  simp only [isNaN_neg, isInf_neg, isZero_neg, units_neg, sign_neg]
  -- in each branch of `div` the quotient is NaN, or it carries its sign as `sign a != sign b`
  split_ifs at h ⊢ <;>
    simp_all only [isNaN_qNaN, reduceCtorEq, neg_inf_eq, neg_zero_eq, neg_roundQ, Bool.not_bne]

end Sys2Proof.F32
end

section
/-! PROOFS. The Filter (40_filter.md), the commands every kind of effect answers, and `CH.ADD`. -/

namespace Sys2Proof.Machine

/-! ## The type codes -/

theorem ftype_of_ne {v : F32} (h1 : F32.truncInt v ≠ 1) (h2 : F32.truncInt v ≠ 2) (h3 : F32.truncInt v ≠ 3) :
    ftype v = .lowPass := by simp [ftype, h1, h2, h3]

theorem dtype_of_ne {v : F32} (h1 : F32.truncInt v ≠ 1) (h2 : F32.truncInt v ≠ 2) (h3 : F32.truncInt v ≠ 3)
    (h4 : F32.truncInt v ≠ 4) : dtype v = .soft := by simp [dtype, h1, h2, h3, h4]

/-- Settles O22: the code is the truncated value, and NaN and the infinities truncate to 0. -/
theorem typeCodeConversions : Obligations.TypeCodeConversions := by
  intro v
  have hdefault (h : F32.truncInt v ≤ 0 ∨ 4 < F32.truncInt v) : ftype v = .lowPass ∧ dtype v = .soft :=
    ⟨ftype_of_ne (by omega) (by omega) (by omega), dtype_of_ne (by omega) (by omega) (by omega) (by omega)⟩
  refine ⟨fun h => hdefault (by omega), fun h => ?_, fun h => ?_, fun h => ?_, fun h => ?_,
    fun h => hdefault (by omega), fun h => hdefault (.inl (F32.truncInt_of_nan_or_inf h).le)⟩ <;> simp [ftype, dtype, h]

/-! ## The coefficients -/

/-- Settles O26: the feedback coefficients do not read the type; the band-pass negates its only raw coefficient. -/
theorem filterCoefficientSymmetry : Obligations.FilterCoefficientSymmetry := by
  intro c cut res t t'
  refine ⟨rfl, rfl, fun ht => ?_, rfl, ?_⟩
  · cases t with
    | bandPass => exact absurd rfl ht
    | lowPass => rfl
    | highPass => rfl
    | notch => rfl
  · unfold coeffsFor
    cases c.BP_VARIANT with
    | peak0dB => exact F32.div_neg_left
    | skirt => exact F32.div_neg_left

/-- Each stored coefficient is a raw one divided by `1.0 + alpha`. -/
theorem coeffsOf_eq {bp : BpVariant} {t : FilterType} {resonance sw cw b0 b1 b2 : F32}
    (h : (b0, b1, b2) = rawForward bp t sw cw (alphaOf sw resonance)) :
    coeffsOf bp t resonance sw cw =
      { A0 := F32.div b0 (F32.add F32.c1 (alphaOf sw resonance)),
        A1 := F32.div b1 (F32.add F32.c1 (alphaOf sw resonance)),
        A2 := F32.div b2 (F32.add F32.c1 (alphaOf sw resonance)),
        B1 := F32.div (F32.mul F32.cNeg2 cw) (F32.add F32.c1 (alphaOf sw resonance)),
        B2 := F32.div (F32.sub F32.c1 (alphaOf sw resonance)) (F32.add F32.c1 (alphaOf sw resonance)) } := by
  simp only [coeffsOf, ← h]

/-- Settles O25: the raw coefficients stated are those of `rawForward`, type by type; the table is evaluated. -/
theorem filterCoefficientVectors : Obligations.FilterCoefficientVectors := by
  refine ⟨?_, by decide, by decide, by decide, by decide, by decide, by decide, by decide⟩
  rintro c t cutoff resonance _ _ _ _ _ b0 b1 b2 rfl rfl rfl rfl rfl hb
  refine coeffsOf_eq (hb.trans ?_)
  cases t <;> cases c.BP_VARIANT <;> rfl

/-! ## The step and silence -/

/-- Settles O23: the command is `FILTER_STEP` on the slot, and the sum stated is its output. -/
theorem filterProcess : Obligations.FilterProcess := by
  rintro s idx f hs _ rfl
  exact onSlot_some hs

/-- The coefficients are finite and the history is all zeros. -/
structure Filter.Silent (f : Filter) : Prop where
  A0 : F32.isFinite f.coeffs.A0 = true
  A1 : F32.isFinite f.coeffs.A1 = true
  A2 : F32.isFinite f.coeffs.A2 = true
  B1 : F32.isFinite f.coeffs.B1 = true
  B2 : F32.isFinite f.coeffs.B2 = true
  x1 : F32.isZero f.x1 = true
  x2 : F32.isZero f.x2 = true
  y1 : F32.isZero f.y1 = true
  y2 : F32.isZero f.y2 = true

/-- Every term of the output sum is a finite coefficient times a zero. -/
theorem Filter.Silent.output {f : Filter} (h : f.Silent) {x : F32} (hx : F32.isZero x = true) :
    F32.isZero (f.output x) = true :=
  F32.isZero_sub
    (F32.isZero_sub
      (F32.isZero_add (F32.isZero_add (F32.isZero_mul h.A0 hx) (F32.isZero_mul h.A1 h.x1)) (F32.isZero_mul h.A2 h.x2))
      (F32.isZero_mul h.B1 h.y1))
    (F32.isZero_mul h.B2 h.y2)

theorem Filter.Silent.step {f : Filter} (h : f.Silent) {x : F32} (hx : F32.isZero x = true) : (f.step x).1.Silent :=
  { h with x1 := hx, x2 := h.x1, y1 := h.output hx, y2 := h.y1 }

theorem Filter.Silent.filterOutputs {f : Filter} (h : f.Silent) {xs : List F32}
    (hxs : ∀ x ∈ xs, F32.isZero x = true) : ∀ y ∈ Claim.filterOutputs f xs, F32.isZero y = true := by
  induction xs generalizing f with
  | nil => exact fun _ hy => absurd hy List.not_mem_nil
  | cons x xs ih =>
    obtain ⟨hx, hxs⟩ := List.forall_mem_cons.1 hxs
    exact List.forall_mem_cons.2 ⟨h.output hx, ih (h.step hx) hxs⟩

/-- Settles O27: a reset Filter is silent, and a zero input keeps it so. -/
theorem filterSilentAfterReset : Obligations.FilterSilentAfterReset := by
  intro f n hA0 hA1 hA2 hB1 hB2
  have hf : f.reset.Silent := ⟨hA0, hA1, hA2, hB1, hB2, rfl, rfl, rfl, rfl⟩
  exact hf.filterOutputs fun x hx => by rw [List.eq_of_mem_replicate hx]; rfl

/-! ## The setters -/

theorem exec_efxSetp_filter {idx : Nat} {name : ParamName} {s : State} {f f' : Filter}
    (hs : s.slot idx = some (.filter f)) (hf : f.setp s.cfg name s.data = some f') :
    exec (.efxSetp idx name) s =
      .next { s with chain := s.chain.set idx (.filter f'), result := 0x00000001#32, status := 0x00000000#32 } :=
  execEfxSetp_some (cap := false) hs (by simp [Effect.setp, State.operand, hf])

theorem Filter.setp_other {name : ParamName} (c : Cfg) (f : Filter) (v : F32) (h1 : name ≠ .cutoff)
    (h2 : name ≠ .resonance) (h3 : name ≠ .type) : f.setp c name v = none := by
  cases name with
  | cutoff => exact absurd rfl h1
  | resonance => exact absurd rfl h2
  | type => exact absurd rfl h3
  | _ => rfl

/-- Settles O24: a recognized name stores its value and recomputes, any other is not recognized. -/
theorem filterSetters : Obligations.FilterSetters := by
  refine fun s idx f hs => ⟨?_, ?_, ?_, fun name h1 h2 h3 => ?_⟩
  · rintro _ rfl; exact exec_efxSetp_filter hs rfl
  · rintro _ rfl; exact exec_efxSetp_filter hs rfl
  · exact exec_efxSetp_filter hs rfl
  · refine execEfxSetp_false hs ?_
    rw [Effect.setp, f.setp_other s.cfg s.operand h1 h2 h3]; rfl

/-! ## Every kind of effect -/

theorem State.setSlot_self {s : State} {idx : Nat} {e : Effect} (h : s.slot idx = some e) : s.setSlot idx e = s := by
  obtain ⟨hi, rfl⟩ := List.getElem?_eq_some_iff.1 h
  rw [State.setSlot, List.set_getElem_self hi]

/-- A command that leaves the effect as it is changes `RESULT` and `STATUS` alone. -/
theorem onSlot_keeps {idx : Nat} {s : State} {f : Effect → Effect × Word} {e : Effect} {v : Word}
    (h : s.slot idx = some e) (hf : f e = (e, v)) : onSlot idx s f = .next (s.complete v) := by
  rw [onSlot_some h, hf, State.setSlot_self h]

/-- Settles O28: the reset of the kind, with the buffer cleared; a Distortion's reset keeps it. -/
theorem effectReset : Obligations.EffectReset := fun _ _ =>
  ⟨fun _ hs => onSlot_some hs, fun _ hs => ⟨Memory.cleared, Memory.read_cleared, onSlot_some hs⟩,
    fun _ hs => onSlot_keeps hs rfl⟩

/-- Settles O29: the code is the kind's, and the effect stays as it is. -/
theorem effectNames : Obligations.EffectNames := fun _ _ =>
  ⟨fun _ hs => onSlot_keeps hs rfl, fun _ hs => onSlot_keeps hs rfl, fun _ hs => onSlot_keeps hs rfl⟩

/-! ## `CH.ADD` -/

theorem exec_chAdd_full {kind : KindCode} {s : State} {e : Effect} (h : construct s.cfg kind = some e)
    (hc : s.count = s.cfg.CHAIN_CAP) :
    exec (.chAdd kind) s = .next { s with result := 0x00000000#32, status := 0x00000002#32 } := by
  rw [exec, execChAdd, h]
  exact if_pos hc

theorem exec_chAdd_appends {kind : KindCode} {s : State} {e : Effect} (h : construct s.cfg kind = some e)
    (hc : s.count ≠ s.cfg.CHAIN_CAP) :
    exec (.chAdd kind) s =
      .next { s with chain := s.chain ++ [e], result := 0x00000000#32, status := 0x00000000#32 } := by
  rw [exec, execChAdd, h]
  exact if_neg hc

/-- Settles O42: each kind has a constructed effect, which is appended where there is room. -/
theorem chainAdd : Obligations.ChainAdd := by
  refine fun s => ⟨?_, fun _ => rfl, fun hc => ⟨?_, ?_, ?_⟩⟩
  · rintro _ (rfl | rfl | rfl) hc <;> exact exec_chAdd_full rfl hc
  · rintro _ _ _ rfl rfl rfl; exact exec_chAdd_appends rfl hc
  · rintro _ rfl; exact ⟨Memory.cleared, Memory.read_cleared, exec_chAdd_appends rfl hc⟩
  · exact exec_chAdd_appends rfl hc

end Sys2Proof.Machine
end

section
/-! PROOFS. The Delay (41_delay.md): a process command, the setters, what the commands between two reads leave of the
buffer, and the length of the buffer. -/

namespace Sys2Proof.Machine

/-! ## `EFX.PROC` and `EFX.SETP` -/

/-- Settles O31: the command is `DELAY_STEP` on the slot, and the buffer stated is the old one after its one write. -/
theorem delayProcess : Obligations.DelayProcess := by
  rintro s idx d hs hwf _ rfl
  refine ⟨d.buf.write d.wp (d.writeBack s.data), onSlot_some hs, Memory.wf_write _ _ hwf, fun k => ?_⟩
  split
  · next hk => rw [hk]; exact Memory.read_write_same _ _ hwf
  · next hk => exact Memory.read_write_other _ hwf hk

/-- A recognized name stores the Delay it gives, with the capacity signal in `STATUS`. -/
theorem exec_efxSetp_delay {idx : Nat} {name : ParamName} {s : State} {d d' : Delay} {cap : Bool}
    (hs : s.slot idx = some (.delay d)) (hd : d.setp s.cfg name s.data = some (d', cap)) :
    exec (.efxSetp idx name) s =
      .next { s with chain := s.chain.set idx (.delay d'), result := 0x00000001#32, status := statusOf cap } :=
  execEfxSetp_some hs (by simp [Effect.setp, State.operand, hd])

theorem Delay.setp_other {name : ParamName} (c : Cfg) (d : Delay) (v : F32) (h1 : name ≠ .time)
    (h2 : name ≠ .feedback) (h3 : name ≠ .mix) : d.setp c name v = none := by
  cases name with
  | time => exact absurd rfl h1
  | feedback => exact absurd rfl h2
  | mix => exact absurd rfl h3
  | _ => rfl

/-- Settles O33: the two setters store the clamped value, and any name but theirs and "time" is not recognized. -/
theorem delayOtherSetters : Obligations.DelayOtherSetters := by
  refine fun s idx d hs => ⟨?_, ?_, fun name h1 h2 h3 => ?_⟩
  · exact exec_efxSetp_delay (d' := d.setFeedback s.data) (cap := false) hs rfl
  · exact exec_efxSetp_delay (d' := d.setMix s.data) (cap := false) hs rfl
  · refine execEfxSetp_false hs ?_
    rw [Effect.setp, d.setp_other s.cfg s.operand h1 h2 h3]; rfl

/-! ## Set "time" -/

theorem Delay.growFor_of_lt {d : Delay} {n : Nat} (h : n < d.len) : d.growFor n = d := if_neg (not_le.2 h)

theorem Delay.growFor_of_le {d : Delay} {n : Nat} (h : d.len ≤ n) : d.growFor n = d.grow (n + 1) := if_pos h

@[simp] theorem Delay.growFor_feedback (d : Delay) (n : Nat) : (d.growFor n).feedback = d.feedback := by
  unfold Delay.growFor; split <;> rfl

@[simp] theorem Delay.growFor_mix (d : Delay) (n : Nat) : (d.growFor n).mix = d.mix := by
  unfold Delay.growFor; split <;> rfl

theorem Delay.setTime_of_lt {c : Cfg} {d : Delay} {v : F32} (h : c.DCAP (c.DSAMP v) < d.len) :
    d.setTime c v = { d with time := v, d := c.DCAP (c.DSAMP v) } := by
  rw [Delay.setTime, Delay.growFor_of_lt h]

theorem Delay.setTime_of_le {c : Cfg} {d : Delay} {v : F32} (h : d.len ≤ c.DCAP (c.DSAMP v)) :
    d.setTime c v =
      { d with
        buf := d.buf.unroll d.len d.wp, len := c.DCAP (c.DSAMP v) + 1, wp := 0, time := v,
        d := c.DCAP (c.DSAMP v) } := by
  rw [Delay.setTime, Delay.growFor_of_le h]; rfl

theorem Delay.len_le_setTime (c : Cfg) (d : Delay) (v : F32) : d.len ≤ (d.setTime c v).len := by
  rcases Nat.lt_or_ge (c.DCAP (c.DSAMP v)) d.len with h | h
  · rw [Delay.setTime_of_lt h]
  · rw [Delay.setTime_of_le h]; exact Nat.le_succ_of_le h

theorem statusOf_timeExceeds (c : Cfg) (v : F32) :
    statusOf (timeExceeds c v) = if c.DELAY_CAP - 1 < c.DSAMP v then 0x00000002#32 else 0x00000000#32 := by
  simp only [statusOf, timeExceeds, Bool.cond_decide]; rfl

/-- Settles O32: a delay below the length sets `time` and `d` alone; a longer one moves the elements (`Memory.unroll`). -/
theorem delaySetTime : Obligations.DelaySetTime := by
  rintro s idx d hs hwp hin _ _ rfl rfl
  refine ⟨d.setTime s.cfg s.data, ?_, rfl, rfl, d.growFor_feedback _, d.growFor_mix _, fun hlt => ?_, fun hle => ?_⟩
  · rw [exec_efxSetp_delay hs rfl, statusOf_timeExceeds]; rfl
  · rw [Delay.setTime_of_lt hlt]; exact ⟨rfl, rfl, rfl⟩
  · rw [Delay.setTime_of_le hle]
    exact ⟨rfl, rfl, fun _ => Memory.read_unroll hin hwp, fun _ => Memory.read_unroll_above hin hwp⟩

/-! ## The buffer after a list of samples -/

theorem delayAfter_cons (d : Delay) (x : F32) (xs : List F32) :
    Claim.delayAfter d (x :: xs) = Claim.delayAfter (d.step x).1 xs := rfl

/-- A tick leaves the length and the delay (R191). -/
theorem delayAfter_frame (d : Delay) (xs : List F32) :
    (Claim.delayAfter d xs).len = d.len ∧ (Claim.delayAfter d xs).d = d.d := by
  induction xs generalizing d with
  | nil => exact ⟨rfl, rfl⟩
  | cons x xs ih => exact ih (d.step x).1

/-- The write cursor advances by one a tick, modulo the length. -/
theorem delayAfter_wp {d : Delay} (h : d.wp < d.len) (xs : List F32) :
    (Claim.delayAfter d xs).wp = (d.wp + xs.length) % d.len := by
  induction xs generalizing d with
  | nil => exact (Nat.mod_eq_of_lt h).symm
  | cons x xs ih =>
    have hstep : (Claim.delayAfter (d.step x).1 xs).wp = ((d.wp + 1) % d.len + xs.length) % d.len :=
      ih (Nat.mod_lt _ (Nat.zero_lt_of_lt h))
    rw [delayAfter_cons, hstep, Nat.mod_add_mod, List.length_cons, Nat.add_assoc, Nat.add_comm 1]

/-- An element the write cursor does not meet keeps its content. -/
theorem delayAfter_read {d : Delay} {k : Nat} {xs : List F32} (hwf : d.buf.wf = true) (h : d.wp < d.len)
    (hk : ∀ j < xs.length, (d.wp + j) % d.len ≠ k) : (Claim.delayAfter d xs).buf.read k = d.buf.read k := by
  induction xs generalizing d with
  | nil => rfl
  | cons x xs ih =>
    have hne : k ≠ d.wp := fun e => hk 0 (Nat.succ_pos _) ((Nat.mod_eq_of_lt h).trans e.symm)
    have hrest : ∀ j < xs.length, ((d.wp + 1) % d.len + j) % d.len ≠ k := fun j hj => by
      rw [Nat.mod_add_mod, Nat.add_assoc, Nat.add_comm 1]; exact hk (j + 1) (Nat.succ_lt_succ hj)
    calc (Claim.delayAfter (d.step x).1 xs).buf.read k
      _ = (d.step x).1.buf.read k :=
        ih (Memory.wf_write _ _ hwf) (Nat.mod_lt _ (Nat.zero_lt_of_lt h)) hrest
      _ = d.buf.read k := Memory.read_write_other _ hwf hne

/-- The read position after a list of samples (R182). -/
theorem delayAfter_rp {d : Delay} (h : d.wp < d.len) (hd : d.d ≤ d.len) (xs : List F32) :
    (Claim.delayAfter d xs).rp = (d.wp + xs.length + (d.len - d.d)) % d.len := by
  obtain ⟨hlen, hdel⟩ := delayAfter_frame d xs
  rw [Delay.rp, hlen, hdel, delayAfter_wp h, Nat.add_sub_assoc hd, Nat.mod_add_mod]

/-- The delayed sample after a list of samples is what the buffer held there, where the write cursor has not come. -/
theorem delayAfter_delayed {d : Delay} {k : Nat} {xs : List F32} (hwf : d.buf.wf = true) (h : d.wp < d.len)
    (hd : d.d ≤ d.len) (hrp : (d.wp + xs.length + (d.len - d.d)) % d.len = k)
    (hk : ∀ j < xs.length, (d.wp + j) % d.len ≠ k) : (Claim.delayAfter d xs).delayed = d.buf.read k := by
  rw [Delay.delayed, delayAfter_rp h hd, hrp]
  exact delayAfter_read hwf h hk

/-- A cursor moved by between 1 and `len - 1` places, modulo `len`, is at another place. -/
theorem add_mod_ne_self {w j len : Nat} (hw : w < len) (h0 : 0 < j) (hj : j < len) : (w + j) % len ≠ w := by
  intro e
  have hmod : w + j ≡ w + 0 [MOD len] := e.trans (Nat.mod_eq_of_lt hw).symm
  exact h0.ne' ((Nat.ModEq.add_left_cancel' w hmod).eq_of_lt_of_lt hj (h0.trans hj))

/-- Settles O35: the read position comes to the first tick's write cursor, which no tick since has met. -/
theorem delayReadsWhatWasWritten : Obligations.DelayReadsWhatWasWritten := by
  intro d x xs hwf hwp hd hlen
  have hpos : 0 < d.len := Nat.zero_lt_of_lt hwp
  have hn : xs.length < d.len := by split at hlen <;> omega
  have hlaps : d.wp + 1 + xs.length + (d.len - d.d) = d.wp + d.len ∨
      d.wp + 1 + xs.length + (d.len - d.d) = d.wp + d.len + d.len := by split at hlen <;> omega
  have hrp : ((d.wp + 1) % d.len + xs.length + (d.len - d.d)) % d.len = d.wp := by
    rw [Nat.add_assoc, Nat.mod_add_mod, ← Nat.add_assoc]
    obtain e | e := hlaps
    · rw [e, Nat.add_mod_right, Nat.mod_eq_of_lt hwp]
    · rw [e, Nat.add_mod_right, Nat.add_mod_right, Nat.mod_eq_of_lt hwp]
  have hk : ∀ j < xs.length, ((d.wp + 1) % d.len + j) % d.len ≠ d.wp := fun j hj => by
    rw [Nat.mod_add_mod, Nat.add_assoc]; exact add_mod_ne_self hwp (by omega) (by omega)
  calc (Claim.delayAfter (d.step x).1 xs).delayed
    _ = (d.step x).1.buf.read d.wp :=
      delayAfter_delayed (Memory.wf_write _ _ hwf) (Nat.mod_lt _ hpos) hd.le hrp hk
    _ = d.writeBack x := Memory.read_write_same _ _ hwf

/-- After a growth to a delay of `n` samples the next `n` ticks read the elements from 1 on, in order (R195). -/
theorem delayed_after_growth {c : Cfg} {d : Delay} {v : F32} {xs : List F32} (hwf : d.buf.wf = true)
    (hin : d.buf.within d.len = true) (hwp : d.wp < d.len) (hle : d.len ≤ c.DCAP (c.DSAMP v))
    (hxs : xs.length < c.DCAP (c.DSAMP v)) :
    (Claim.delayAfter (d.setTime c v) xs).delayed = (d.buf.unroll d.len d.wp).read (xs.length + 1) := by
  rw [Delay.setTime_of_le hle]
  generalize c.DCAP (c.DSAMP v) = n at *
  refine delayAfter_delayed (Memory.wf_unroll hwf hin hwp) (Nat.succ_pos n) (Nat.le_succ n) ?_ fun j hj => ?_
  · show (0 + xs.length + (n + 1 - n)) % (n + 1) = xs.length + 1
    rw [Nat.zero_add, Nat.add_sub_cancel_left, Nat.mod_eq_of_lt (by omega)]
  · show (0 + j) % (n + 1) ≠ xs.length + 1
    rw [Nat.zero_add, Nat.mod_eq_of_lt (by omega)]; omega

/-- Settles O36: the elements from 1 on are the old ones up to the old length, and zeros from there. -/
theorem delayAfterGrowth : Obligations.DelayAfterGrowth := by
  intro c d v xs n hwf hin hwp (hn : n = c.DCAP (c.DSAMP v)) hle
  subst hn
  refine ⟨fun h => ?_, fun h hn => ?_⟩
  · rw [delayed_after_growth hwf hin hwp hle (by omega), Memory.read_unroll hin hwp h, Nat.add_assoc]
  · rw [delayed_after_growth hwf hin hwp hle hn, Memory.read_unroll_above hin hwp h]; rfl

/-! ## What a command makes of an occupied slot -/

theorem State.slot_setSlot {s : State} {idx j : Nat} {e e' : Effect} (h : s.slot idx = some e) :
    (s.setSlot j e').slot idx = some (if j = idx then e' else e) := by
  have hi : idx < s.chain.length := State.slot_lt h
  show (s.chain.set j e')[idx]? = _
  rw [List.getElem?_set]
  split
  · next hj => subst hj; simp [hi]
  · exact h

theorem chainStep_getElem? {c : Cfg} {es : List Effect} {idx : Nat} {e : Effect} (h : es[idx]? = some e) (v : F32) :
    ∃ x, (chainStep c es v).1[idx]? = some (e.step c x).1 := by
  induction es generalizing idx v with
  | nil => cases h
  | cons e' es ih =>
    cases idx with
    | zero => cases h; exact ⟨v, rfl⟩
    | succ idx => exact ih h _

/-- What a command other than `CH.REM` can make of the effect in a slot: nothing, a process, a reset or a set by a
recognized name of `EFX.SETP` on the slot. -/
inductive SlotChange (c : Cfg) (v : F32) (i : Instr) (idx : Nat) (e : Effect) : Effect → Prop where
  | keep : SlotChange c v i idx e e
  | step (x : F32) : SlotChange c v i idx e (e.step c x).1
  | reset : SlotChange c v i idx e e.reset
  | setp {name : ParamName} {e' : Effect} {cap : Bool} (hi : i = .efxSetp idx name)
      (h : e.setp c name v = some (e', cap)) : SlotChange c v i idx e e'

theorem onSlot_slotChange {c : Cfg} {v : F32} {i : Instr} {idx j : Nat} {s t : State} {e : Effect}
    {f : Effect → Effect × Word} (h : onSlot j s f = .next t) (he : s.slot idx = some e)
    (hf : SlotChange c v i idx e (f e).1) : ∃ e', t.slot idx = some e' ∧ SlotChange c v i idx e e' := by
  obtain ⟨_, rfl⟩ | ⟨e₁, he₁, rfl⟩ := onSlot_next h
  · exact ⟨e, he, .keep⟩
  · refine ⟨_, State.slot_setSlot he, ?_⟩
    split
    · next hj => subst hj; cases he₁.symm.trans he; exact hf
    · exact .keep

theorem execEfxSetp_slotChange {idx j : Nat} {name : ParamName} {s t : State} {e : Effect}
    (h : execEfxSetp j name s = .next t) (he : s.slot idx = some e) :
    ∃ e', t.slot idx = some e' ∧ SlotChange s.cfg s.data (.efxSetp j name) idx e e' := by
  obtain rfl | ⟨e₁, e', cap, he₁, hp, rfl⟩ := execEfxSetp_next h
  · exact ⟨e, he, .keep⟩
  · refine ⟨_, State.slot_setSlot he, ?_⟩
    split
    · next hj => subst hj; cases he₁.symm.trans he; exact .setp rfl hp
    · exact .keep

theorem execChAdd_slot {kind : KindCode} {s t : State} {idx : Nat} {e : Effect} (h : execChAdd kind s = .next t)
    (he : s.slot idx = some e) : t.slot idx = some e := by
  obtain ⟨_, rfl⟩ | ⟨e', _, ⟨_, rfl⟩ | ⟨_, rfl⟩⟩ := execChAdd_next h
  · exact he
  · exact he
  · exact (List.getElem?_append_left (State.slot_lt he)).trans he

/-- A command other than `CH.REM` leaves an occupied slot occupied, by what a `SlotChange` makes of its effect. -/
theorem exec_slotChange {i : Instr} {s t : State} {idx : Nat} {e : Effect} (hi : ∀ j, i ≠ .chRem j)
    (h : exec i s = .next t) (he : s.slot idx = some e) :
    ∃ e', t.slot idx = some e' ∧ SlotChange s.cfg s.data i idx e e' := by
  cases hu : unitOf i with
  | some u =>
    cases u with
    | slot j =>
      cases i <;> simp only [unitOf, reduceCtorEq, Option.some.injEq] at hu
      case efxProc => exact onSlot_slotChange h he (.step _)
      case efxRst => exact onSlot_slotChange h he .reset
      case efxSetp => exact execEfxSetp_slotChange h he
      case efxName => exact onSlot_slotChange h he .keep
    | env j => obtain ⟨g, hg⟩ := exec_env_modify hu; rw [hg] at h; cases h; exact ⟨e, he, .keep⟩
    | sm j => obtain ⟨g, hg⟩ := exec_sm_modify hu; rw [hg] at h; cases h; exact ⟨e, he, .keep⟩
  | none =>
    cases i <;> simp only [unitOf, reduceCtorEq] at hu
    case nop => cases h; exact ⟨e, he, .keep⟩
    case chAdd kind => exact ⟨e, execChAdd_slot h he, .keep⟩
    case chRem j => exact absurd rfl (hi j)
    case chProc => cases h; obtain ⟨x, hx⟩ := chainStep_getElem? (c := s.cfg) he s.operand; exact ⟨_, hx, .step x⟩
    case chRstall =>
      cases h
      have hmap : (s.chain.map Effect.reset)[idx]? = some e.reset := by
        rw [List.getElem?_map]; exact congrArg (Option.map Effect.reset) he
      exact ⟨_, hmap, .reset⟩
    case chCount => cases h; exact ⟨e, he, .keep⟩

/-! ## The length of the buffer -/

theorem Delay.setp_len {c : Cfg} {d d' : Delay} {name : ParamName} {v : F32} {cap : Bool}
    (h : d.setp c name v = some (d', cap)) : d.len ≤ d'.len ∧ (name ≠ .time → d'.len = d.len) := by
  cases name <;> simp only [Delay.setp, reduceCtorEq, Option.some.injEq, Prod.mk.injEq] at h <;> obtain ⟨rfl, _⟩ := h
  case time => exact ⟨d.len_le_setTime c v, fun hne => absurd rfl hne⟩
  case feedback => exact ⟨le_rfl, fun _ => rfl⟩
  case mix => exact ⟨le_rfl, fun _ => rfl⟩

/-- Settles O34: of what a command makes of a Delay in its slot, only a set "time" touches the length, and raises it. -/
theorem delayBufferOnlyGrows : Obligations.DelayBufferOnlyGrows := by
  intro i s t idx d hi h hs
  obtain ⟨e', ht, hchange⟩ := exec_slotChange hi h hs
  cases hchange with
  | keep => exact ⟨d, ht, le_rfl, fun _ => rfl⟩
  | step x => exact ⟨(d.step x).1, ht, le_rfl, fun _ => rfl⟩
  | reset => exact ⟨d.reset, ht, le_rfl, fun _ => rfl⟩
  | setp hname hp =>
    simp only [Effect.setp, Option.map_eq_some_iff, Prod.mk.injEq] at hp
    obtain ⟨p, hp, rfl, _⟩ := hp
    obtain ⟨hle, heq⟩ := Delay.setp_len hp
    exact ⟨p.1, ht, hle, fun hne => heq fun hn => hne (hn ▸ hname)⟩

end Sys2Proof.Machine
end

section
/-! PROOFS. The Distortion (42_distortion.md): the exact fold, the bit depth, a process command, the setters, and that a
Distortion keeps no memory. -/

namespace Sys2Proof.F32

/-! ## Finite data up to one -/

theorem val_c1 : val c1 = oneUnits := by decide +kernel
theorem val_cNeg1 : val cNeg1 = -oneUnits := by decide +kernel

/-- A finite number lies in `[-1, 1]` exactly if its magnitude is at most one. -/
theorem between_neg_one_and_one_iff {v : F32} (hf : isFinite v = true) :
    (le cNeg1 v = true ∧ le v c1 = true) ↔ units v ≤ oneUnits := by
  rw [le_finite_iff (by decide) hf, le_finite_iff hf (by decide), val_c1, val_cNeg1, ← natAbs_val]
  omega

theorem oneUnits_lt_units_of_beyond_one {v : F32} (hf : isFinite v = true) (h : lt v cNeg1 = true ∨ lt c1 v = true) :
    oneUnits < units v := by
  rw [lt_finite_iff hf (by decide), lt_finite_iff (by decide) hf, val_c1, val_cNeg1] at h
  rw [← natAbs_val]
  omega

/-- Beyond one the last bit of a magnitude is worth at least `2^126` units. -/
theorem two_pow_dvd_val {v : F32} (h : oneUnits < units v) : (2 ^ 126 : Int) ∣ val v := by
  rw [← dvd_abs, abs_val, units_eq_magUnits]
  obtain ⟨sh, q, hm, hq, hs⟩ := exists_pattern (mag v)
  have hu : magUnits (mag v) = q * 2 ^ sh := hm ▸ magUnits_pattern sh q hq.le hs
  have hlt : (2 : Nat) ^ 149 < 2 ^ (24 + sh) :=
    calc 2 ^ 149 < q * 2 ^ sh := by rwa [← hu, ← units_eq_magUnits]
      _ ≤ 2 ^ 24 * 2 ^ sh := Nat.mul_le_mul_right _ hq.le
      _ = 2 ^ (24 + sh) := (Nat.pow_add ..).symm
  have hsh : 149 < 24 + sh := (Nat.pow_lt_pow_iff_right (by decide)).1 hlt
  rw [hu]
  exact_mod_cast Dvd.dvd.mul_left (Nat.pow_dvd_pow 2 (by omega)) q

/-! ## Integers that are rounded exactly -/

/-- A significand of at most `2^24`, shifted, is a magnitude. -/
theorem exists_magUnits_eq_mul_two_pow (e : Nat) {k : Nat} (hk : k ≤ 2 ^ 24) : ∃ m, magUnits m = k * 2 ^ e := by
  induction e generalizing k with
  | zero => exact ⟨_, magUnits_pattern 0 k hk (.inl rfl)⟩
  | succ e ih =>
    rcases Nat.lt_or_ge k (2 ^ 23) with hlt | hge
    · obtain ⟨m, hm⟩ := ih (k := 2 * k) (by omega)
      exact ⟨m, by rw [hm, Nat.pow_succ]; ring⟩
    · exact ⟨_, magUnits_pattern (e + 1) k hk (.inr hge)⟩

/-- A multiple of `2^126` units of at most one is a finite magnitude. -/
theorem exists_magUnits_eq_natAbs {z : Int} (hle : z.natAbs ≤ oneUnits) (hz : (2 ^ 126 : Int) ∣ z) :
    ∃ m, m < infMag ∧ magUnits m = z.natAbs := by
  obtain ⟨k, hk⟩ : 2 ^ 126 ∣ z.natAbs := Int.natAbs_dvd_natAbs.2 hz
  obtain ⟨m, hm⟩ := exists_magUnits_eq_mul_two_pow 126 (k := k) (by rw [oneUnits] at hle; omega)
  rw [Nat.mul_comm, ← hk] at hm
  have hone : magUnits (mag c1) = oneUnits := by decide +kernel
  have hm1 : m ≤ mag c1 := magUnits_le_iff.1 (by rwa [hm, hone])
  exact ⟨m, hm1.trans_lt (by decide), hm⟩

/-- An integer that a finite magnitude has is rounded to itself. -/
theorem roundInt_exact {z : Int} {m : Nat} (zn : Bool) (hm : m < infMag) (hz : magUnits m = z.natAbs) :
    isFinite (roundInt zn z) = true ∧ val (roundInt zn z) = z := by
  have hmag : mag (roundInt zn z) = m := by
    have h := roundMag_exact (d := 1) one_pos hm
    rwa [Nat.mul_one, hz, ← mag_roundInt zn] at h
  refine ⟨(isFinite_iff _).2 (hmag ▸ hm), ?_⟩
  rw [val, units_eq_magUnits, hmag, hz, sign_roundInt]
  rcases lt_trichotomy z 0 with h | rfl | h
  · rw [if_neg h.ne, decide_eq_true h, cond_true]; omega
  · cases zn <;> rfl
  · rw [if_neg h.ne', decide_eq_false h.not_gt, cond_false]; omega

/-! ## `FOLD` -/

theorem foldUnits_eq (u : Int) : foldUnits u =
    if (u + 2 ^ 149) % (4 * 2 ^ 149) ≤ 2 * 2 ^ 149 then (u + 2 ^ 149) % (4 * 2 ^ 149) - 2 ^ 149
    else 3 * 2 ^ 149 - (u + 2 ^ 149) % (4 * 2 ^ 149) := by
  rw [foldUnits, oneUnits_cast]

theorem natAbs_foldUnits_le (u : Int) : (foldUnits u).natAbs ≤ oneUnits := by
  rw [foldUnits_eq, oneUnits]; split <;> omega

theorem foldUnits_of_natAbs_le {u : Int} (h : u.natAbs ≤ oneUnits) : foldUnits u = u := by
  rw [oneUnits] at h; rw [foldUnits_eq]; split <;> omega

/-- The fold moves a value by multiples of two and negates it. -/
theorem two_pow_dvd_foldUnits {u : Int} (h : (2 ^ 126 : Int) ∣ u) : (2 ^ 126 : Int) ∣ foldUnits u := by
  rw [foldUnits_eq]; split <;> omega

theorem fold_of_nan {v : F32} (h : isNaN v = true) : fold v = v := by simp [fold, h]
theorem fold_of_inf {v : F32} (h : isInf v = true) : fold v = qNaN := by simp [fold, inf_not_nan h, h]

theorem fold_of_units_le {v : F32} (hf : isFinite v = true) (h : units v ≤ oneUnits) : fold v = v := by
  obtain ⟨h1, h2⟩ := (between_neg_one_and_one_iff hf).2 h
  simp [fold, finite_not_inf hf, h1, h2]

theorem fold_of_lt_units {v : F32} (hf : isFinite v = true) (h : oneUnits < units v) :
    fold v = roundInt false (foldUnits (val v)) := by
  have hout : ¬(le cNeg1 v = true ∧ le v c1 = true) := mt (between_neg_one_and_one_iff hf).1 (not_le.2 h)
  simp [fold, finite_not_nan hf, finite_not_inf hf, hout]

/-- `FOLD` of a finite datum is exact: it is the operand itself, or what it rounds is a multiple of `2^126` units. -/
theorem fold_exact {v : F32} (hf : isFinite v = true) :
    isFinite (fold v) = true ∧ val (fold v) = foldUnits (val v) := by
  rcases Nat.lt_or_ge oneUnits (units v) with h | h
  · obtain ⟨m, hm, hz⟩ :=
      exists_magUnits_eq_natAbs (natAbs_foldUnits_le (val v)) (two_pow_dvd_foldUnits (two_pow_dvd_val h))
    rw [fold_of_lt_units hf h]
    exact roundInt_exact false hm hz
  · rw [fold_of_units_le hf h, foldUnits_of_natAbs_le (by rwa [natAbs_val])]
    exact ⟨hf, rfl⟩

theorem units_fold_le {v : F32} (hf : isFinite v = true) : units (fold v) ≤ oneUnits := by
  rw [← natAbs_val, (fold_exact hf).2]; exact natAbs_foldUnits_le _

/-- A zero made by folding is `+0.0`. -/
theorem fold_eq_c0 {v : F32} (hf : isFinite v = true) (h : oneUnits < units v) (h0 : isZero (fold v) = true) :
    fold v = c0 := by
  have hz : foldUnits (val v) = 0 := (fold_exact hf).2.symm.trans (val_of_zero h0)
  rw [fold_of_lt_units hf h, hz]; rfl

/-- Settles O39: the exact fold is at most one and a multiple of the operand's last bit, so rounding keeps it. -/
theorem foldIsExactAndBounded : Obligations.FoldIsExactAndBounded := by
  refine fun v => ⟨fold_of_nan, fold_of_inf, fun hf => ?_⟩
  obtain ⟨hff, hval⟩ := fold_exact hf
  obtain ⟨hlo, hhi⟩ := (between_neg_one_and_one_iff hff).2 (units_fold_le hf)
  refine ⟨hlo, hhi, fun h1 h2 => ?_, fun h h0 => ?_, ?_⟩
  · exact fold_of_units_le hf ((between_neg_one_and_one_iff hf).1 ⟨h1, h2⟩)
  · exact fold_eq_c0 hf (oneUnits_lt_units_of_beyond_one hf h) h0
  · rintro _ rfl; exact hval.trans (foldUnits_eq _)

/-! ## `BITS` -/

theorem lt_eq_false_of_le {a b : F32} (h : le a b = true) : lt b a = false := by
  rw [Bool.eq_false_iff, Ne, lt_iff]
  have hk := (le_iff.1 h).2.2
  omega

theorem natAbs_key (a : F32) : (key a).natAbs = mag a := by
  cases h : sign a <;> simp [key, h]

/-- A number between finite data is finite. -/
theorem isFinite_of_le_of_le {a b v : F32} (ha : isFinite a = true) (hb : isFinite b = true)
    (h1 : le a v = true) (h2 : le v b = true) : isFinite v = true := by
  have hk1 := (le_iff.1 h1).2.2
  have hk2 := (le_iff.1 h2).2.2
  rw [isFinite_iff, ← natAbs_key] at *
  omega

theorem bits_of_nan {v : F32} (h : isNaN v = true) : bits v = 1 := by simp [bits, clamp_nan h, h]

theorem bits_of_lt_c1 {v : F32} (h : lt v c1 = true) : bits v = 1 := by
  rw [bits, clamp_below h]; decide

theorem bits_of_c16_lt {v : F32} (h1 : lt v c1 = false) (h : lt c16 v = true) : bits v = 16 := by
  rw [bits, clamp_above h1 h]; decide

/-- From 1 to 16 the bit depth is the integer part. -/
theorem bits_bounds {v : F32} (h1 : le c1 v = true) (h2 : le v c16 = true) :
    (bits v : Int) * 2 ^ 149 ≤ val v ∧ val v < ((bits v : Int) + 1) * 2 ^ 149 := by
  have hf : isFinite v = true := isFinite_of_le_of_le (by decide) (by decide) h1 h2
  have hv : 0 ≤ val v := by
    have h := (le_finite_iff (by decide) hf).1 h1
    rw [val_c1] at h; omega
  obtain ⟨hlo, hhi, hnonneg, _⟩ := truncInt_bounds hf
  have ht : 0 ≤ truncInt v := hnonneg hv
  have hbits : (bits v : Int) = truncInt v := by
    rw [bits, clamp_between (lt_eq_false_of_le h1) (lt_eq_false_of_le h2)]
    simp [finite_not_nan hf, ht]
  rw [abs_of_nonneg hv] at hlo hhi
  rw [abs_of_nonneg ht] at hhi
  rw [abs_of_nonneg (by omega)] at hlo
  rw [hbits]; exact ⟨hlo, hhi⟩

theorem val_c16 : val c16 = 16 * oneUnits := by decide +kernel

theorem bits_of_le_c1 {v : F32} (h : le v c1 = true) : bits v = 1 := by
  obtain ⟨hn, _, _⟩ := le_iff.1 h
  rcases le_or_lt_of_not_nan (a := c1) (by decide) hn with h1 | h1
  · have hf : isFinite v = true := isFinite_of_le_of_le (by decide) (by decide) h1 h
    have hv := (le_finite_iff hf (by decide)).1 h
    rw [val_c1, oneUnits_cast] at hv
    have hlo := (bits_bounds h1 (le_trans' h (by decide))).1
    have hpos := (Machine.bits_range v).1
    omega
  · exact bits_of_lt_c1 h1

theorem bits_of_c16_le {v : F32} (h : le c16 v = true) : bits v = 16 := by
  obtain ⟨_, hn, _⟩ := le_iff.1 h
  have h1 : le c1 v = true := le_trans' (by decide) h
  rcases le_or_lt_of_not_nan (b := c16) hn (by decide) with h2 | h2
  · have hf : isFinite v = true := isFinite_of_le_of_le (by decide) (by decide) h h2
    have hv := (le_finite_iff (by decide) hf).1 h
    rw [val_c16, oneUnits_cast] at hv
    have hhi := (bits_bounds h1 h2).2
    have hle := (Machine.bits_range v).2
    omega
  · exact bits_of_c16_lt (lt_eq_false_of_le h1) h2

/-- Settles O40: at the ends the bounds of the integer part leave only 1 and 16. -/
theorem bitDepthConversion : Obligations.BitDepthConversion := fun v =>
  ⟨(Machine.bits_range v).1, (Machine.bits_range v).2, bits_of_nan, bits_of_le_c1, bits_of_c16_le, bits_bounds⟩

end Sys2Proof.F32

namespace Sys2Proof.Machine

/-! ## `EFX.PROC` -/

/-- A process command on a Distortion changes `RESULT` and `STATUS` alone (R219). -/
theorem exec_efxProc_distortion {idx : Nat} {s : State} {z : Distortion} (hs : s.slot idx = some (.distortion z)) :
    exec (.efxProc idx) s = .next (s.complete (z.output s.cfg s.data)) := onSlot_keeps hs rfl

/-- Settles O37: the word stated is the output of `DIST_STEP`, its transfer function that of the type. -/
theorem distortionProcess : Obligations.DistortionProcess := by
  rintro s idx z hs _ _ rfl rfl
  rw [exec_efxProc_distortion hs, Distortion.output, Distortion.shape]
  cases z.type <;> rfl

/-- A command on another unit leaves the slot. -/
theorem exec_slot_other {i : Instr} {u : UnitRef} {s t : State} {idx : Nat} (hu : unitOf i = some u)
    (hne : u ≠ .slot idx) (h : exec i s = .next t) : t.slot idx = s.slot idx := by
  cases u with
  | slot j =>
    obtain ⟨g, hg⟩ := exec_slot hu
    rw [hg] at h; cases h
    have hj : j ≠ idx := fun e => hne (congrArg UnitRef.slot e)
    exact List.getElem?_modify_ne _ s.chain hj
  | env j => obtain ⟨g, hg⟩ := exec_env_modify hu; rw [hg] at h; cases h; rfl
  | sm j => obtain ⟨g, hg⟩ := exec_sm_modify hu; rw [hg] at h; cases h; rfl

/-- Settles O41: neither command changes the slot or the configuration, and the output depends on nothing else. -/
theorem distortionIsMemoryless : Obligations.DistortionIsMemoryless := by
  intro s s1 s2 s3 idx z i u w hs hu hne h1 h2 h3
  rw [exec_efxProc_distortion hs] at h1
  cases h1
  have hs2 : s2.slot idx = some (.distortion z) := (exec_slot_other hu hne h2).trans hs
  have hcfg : s2.cfg = s.cfg := (exec_cfg h2).trans rfl
  rw [exec_efxProc_distortion (s := { s2 with data := s.data }) hs2] at h3
  cases h3
  exact congrArg (fun c => z.output c s.data) hcfg

/-! ## `EFX.SETP` -/

theorem exec_efxSetp_distortion {idx : Nat} {name : ParamName} {s : State} {z z' : Distortion}
    (hs : s.slot idx = some (.distortion z)) (hz : z.setp name s.data = some z') :
    exec (.efxSetp idx name) s =
      .next { s with chain := s.chain.set idx (.distortion z'), result := 0x00000001#32, status := 0x00000000#32 } :=
  execEfxSetp_some (cap := false) hs (by simp [Effect.setp, State.operand, hz])

theorem Distortion.setp_other {name : ParamName} (z : Distortion) (v : F32) (h1 : name ≠ .drive) (h2 : name ≠ .mix)
    (h3 : name ≠ .outputGain) (h4 : name ≠ .bitDepth) (h5 : name ≠ .type) : z.setp name v = none := by
  cases name with
  | drive => exact absurd rfl h1
  | mix => exact absurd rfl h2
  | outputGain => exact absurd rfl h3
  | bitDepth => exact absurd rfl h4
  | type => exact absurd rfl h5
  | _ => rfl

/-- Settles O38: a recognized name stores its value, any other is not recognized. -/
theorem distortionSetters : Obligations.DistortionSetters := by
  refine fun s idx z hs => ⟨exec_efxSetp_distortion hs rfl, exec_efxSetp_distortion hs rfl,
    exec_efxSetp_distortion hs rfl, exec_efxSetp_distortion hs rfl, exec_efxSetp_distortion hs rfl,
    fun name h1 h2 h3 h4 h5 => execEfxSetp_false hs ?_⟩
  rw [Effect.setp, z.setp_other s.operand h1 h2 h3 h4 h5]; rfl

end Sys2Proof.Machine
end

section
/-! PROOFS. The chain (43_chain.md): what a command on one unit leaves of the others, the fold of `CH.PROC`, commands
that are on no unit, and the count law. -/

namespace Sys2Proof.Machine

/-! ## Commands on one unit -/

/-- Settles O16: a unit command modifies one position of one list, so the lengths and other positions stay. -/
theorem unitCommandsChangeOneUnit : Obligations.UnitCommandsChangeOneUnit := by
  intro i u s t hu h
  cases u with
  | slot idx =>
    have hslots : ∀ j, UnitRef.slot idx ≠ .slot j → t.slot j = s.slot j := fun _ hj => exec_slot_other hu hj h
    obtain ⟨g, hg⟩ := exec_slot hu
    rw [hg] at h; cases h
    exact ⟨List.length_modify .., rfl, rfl, hslots, fun _ _ => rfl, fun _ _ => rfl⟩
  | env idx =>
    obtain ⟨g, hg⟩ := exec_env_modify hu
    rw [hg] at h; cases h
    exact ⟨rfl, List.length_modify .., rfl, fun _ _ => rfl,
      fun j hj => List.getElem?_modify_ne _ s.envs fun hidx => hj (congrArg UnitRef.env hidx), fun _ _ => rfl⟩
  | sm idx =>
    obtain ⟨g, hg⟩ := exec_sm_modify hu
    rw [hg] at h; cases h
    exact ⟨rfl, rfl, List.length_modify .., fun _ _ => rfl, fun _ _ => rfl,
      fun j hj => List.getElem?_modify_ne _ s.sms fun hidx => hj (congrArg UnitRef.sm hidx)⟩

/-! ## `CH.PROC` -/

/-- The sample that reaches slot `k` of a chain fed `v`: what the effects before it return (43_chain.md R245). -/
def chainInput (c : Cfg) (es : List Effect) (v : F32) (k : Nat) : F32 := (chainStep c (es.take k) v).2

theorem chainInput_length (c : Cfg) (es : List Effect) (v : F32) :
    chainInput c es v es.length = (chainStep c es v).2 := by rw [chainInput, List.take_length]

/-- An effect passes its output on to the next slot. -/
theorem chainInput_succ {c : Cfg} {es : List Effect} {k : Nat} {e : Effect} (h : es[k]? = some e) (v : F32) :
    chainInput c es v (k + 1) = (e.step c (chainInput c es v k)).2 := by
  induction es generalizing k v with
  | nil => cases h
  | cons e' es ih =>
    cases k with
    | zero => cases h; rfl
    | succ k => exact ih h _

/-- The fold leaves each effect as its own process of its input does. -/
theorem chainStep_getElem?_eq {c : Cfg} {es : List Effect} {k : Nat} {e : Effect} (h : es[k]? = some e) (v : F32) :
    (chainStep c es v).1[k]? = some (e.step c (chainInput c es v k)).1 := by
  induction es generalizing k v with
  | nil => cases h
  | cons e' es ih =>
    cases k with
    | zero => cases h; rfl
    | succ k => exact ih h _

/-- Settles O44: the values are the inputs of the slots, and the last of them is the output of the fold. -/
theorem chainProcessComposes : Obligations.ChainProcessComposes := by
  intro s
  refine ⟨_, chainInput s.cfg s.chain s.data, rfl, ?_, rfl, chainStep_length ..,
    fun k e hk => ⟨chainStep_getElem?_eq hk s.data, chainInput_succ hk s.data⟩⟩
  rw [State.count, chainInput_length]; rfl

/-! ## `CH.REM` -/

theorem execChRem_of_lt_count {s : State} {idx : Nat} (h : idx < s.count) :
    execChRem idx s = .next ({ s with chain := s.chain.eraseIdx idx }.complete (boolWord true)) := if_pos h

/-- Settles O43: the effect at `idx` is erased from the list, or nothing is. -/
theorem chainRemove : Obligations.ChainRemove := by
  refine fun s idx => ⟨fun h => ⟨_, execChRem_of_lt_count h, rfl, List.length_eraseIdx_add_one h, fun k hk => ?_,
    fun k hk => ?_⟩, execChRem_of_count_le⟩
  · exact List.getElem?_eraseIdx_of_lt hk
  · exact List.getElem?_eraseIdx_of_ge hk

/-! ## `CH.RSTALL`, `CH.COUNT` and `NOP` -/

theorem getElem?_map_reset {es : List Effect} {k : Nat} {e : Effect} (h : es[k]? = some e) :
    (es.map Effect.reset)[k]? = some e.reset := by rw [List.getElem?_map, h]; rfl

/-- Settles O45: `CH.RSTALL` maps the reset over the chain; the other two complete with their word. -/
theorem chainResetCountAndNop : Obligations.ChainResetCountAndNop := fun _ =>
  ⟨⟨_, rfl, rfl, List.length_map .., fun _ _ hk => getElem?_map_reset hk⟩, rfl, rfl⟩

/-! ## The count law -/

/-- `CH.ADD` raises the count exactly when it leaves `STATUS` 0. -/
theorem execChAdd_count {kind : KindCode} {s t : State} (h : execChAdd kind s = .next t) :
    (t.status = 0x00000000#32 → t.count = s.count + 1) ∧ (t.status ≠ 0x00000000#32 → t.count = s.count) := by
  obtain ⟨_, rfl⟩ | ⟨_, _, ⟨_, rfl⟩ | ⟨_, rfl⟩⟩ := execChAdd_next h
  · exact ⟨fun hs => absurd (a := statusIll = statusOk) hs (by decide), fun _ => rfl⟩
  · exact ⟨fun hs => absurd (a := statusCap = statusOk) hs (by decide), fun _ => rfl⟩
  · exact ⟨fun _ => List.length_append, fun hs => absurd rfl hs⟩

/-- `CH.REM` lowers the count exactly when it returns true. -/
theorem execChRem_count {idx : Nat} {s t : State} (h : execChRem idx s = .next t) :
    (t.result = 0x00000001#32 → t.count + 1 = s.count) ∧ (t.result ≠ 0x00000001#32 → t.count = s.count) := by
  obtain hlt | hle := lt_or_ge idx s.count
  · rw [execChRem_of_lt_count hlt] at h; cases h
    exact ⟨fun _ => List.length_eraseIdx_add_one hlt, fun hr => absurd rfl hr⟩
  · rw [execChRem_of_count_le hle] at h; cases h
    exact ⟨fun hr => absurd (a := boolWord false = boolWord true) hr (by decide), fun _ => rfl⟩

/-- Every command but `CH.ADD` and `CH.REM` keeps the count. -/
theorem exec_count {i : Instr} {s t : State} (h : exec i s = .next t) (ha : ∀ k, i ≠ .chAdd k)
    (hr : ∀ j, i ≠ .chRem j) : t.count = s.count := by
  cases hu : unitOf i with
  | some u => exact (unitCommandsChangeOneUnit i u s t hu h).1
  | none =>
    cases i <;> simp only [unitOf, reduceCtorEq] at hu
    case nop => cases h; rfl
    case chAdd kind => exact absurd rfl (ha kind)
    case chRem idx => exact absurd rfl (hr idx)
    case chProc => cases h; exact chainStep_length ..
    case chRstall => cases h; exact List.length_map ..
    case chCount => cases h; rfl

/-- Settles O46: `CH.ADD` and `CH.REM` change the count as their outcome says, and no other command changes it. -/
theorem countLaw : Obligations.CountLaw := by
  intro i s t h
  refine ⟨?_, ?_, fun ha hr => ?_⟩
  · rintro kind rfl hs; exact (execChAdd_count h).1 hs
  · rintro idx rfl hres; exact (execChRem_count h).1 hres
  · cases i with
    | chAdd kind => exact (execChAdd_count h).2 fun hs => ha ⟨kind, rfl, hs⟩
    | chRem idx => exact (execChRem_count h).2 fun hres => hr ⟨idx, rfl, hres⟩
    | _ => exact exec_count h nofun nofun

end Sys2Proof.Machine
end

section
/-! PROOFS. The Envelope (44_envelope.md): what a command can make of an envelope, and from it the bound of its level
under `EXP_UNIT` (R285) and its stage graph (R290 item 5); then the commands `ENV.*` one by one. -/

namespace Sys2Proof.F32

/-- `FLOOR_AT` makes no NaN (00_scope.md R19). -/
theorem isNaN_floorAt {v lo : F32} (hv : isNaN v = false) (hlo : isNaN lo = false) : isNaN (floorAt v lo) = false := by
  unfold floorAt
  split
  · exact hlo
  · exact hv

/-- `CLAMP` makes no NaN (R19). -/
theorem isNaN_clamp {v lo hi : F32} (hv : isNaN v = false) (hlo : isNaN lo = false) (hhi : isNaN hi = false) :
    isNaN (clamp v lo hi) = false := by
  unfold clamp
  split
  · exact hlo
  · split
    · exact hhi
    · exact hv

end Sys2Proof.F32

namespace Sys2Proof.Machine

/-! ## What a command makes of an envelope -/

/-- A command that is not on an envelope leaves the envelopes (44_envelope.md R288). -/
theorem exec_envs_of_unit_ne {i : Instr} {s t : State} (hu : ∀ idx, unitOf i ≠ some (.env idx))
    (h : exec i s = .next t) : t.envs = s.envs := by
  cases hi : unitOf i with
  | some u =>
    cases u with
    | slot idx => obtain ⟨g, hg⟩ := exec_slot hi; rw [hg] at h; cases h; rfl
    | env idx => exact absurd hi (hu idx)
    | sm idx => obtain ⟨g, hg⟩ := exec_sm_modify hi; rw [hg] at h; cases h; rfl
  | none =>
    cases i <;> simp only [unitOf, reduceCtorEq] at hi
    case nop => cases h; rfl
    case chAdd kind => obtain ⟨_, rfl⟩ | ⟨_, _, ⟨_, rfl⟩ | ⟨_, rfl⟩⟩ := execChAdd_next h <;> rfl
    case chRem idx => obtain rfl | rfl := execChRem_next h <;> rfl
    case chProc => cases h; rfl
    case chRstall => cases h; rfl
    case chCount => cases h; rfl

/-- What a command can make of envelope `idx`: nothing, a set parameter, or what its own trigger, release or process
makes of it. -/
inductive EnvChange (c : Cfg) (v : F32) (i : Instr) (idx : Nat) (e : Envelope) : Envelope → Prop where
  | keep : EnvChange c v i idx e e
  | attack : EnvChange c v i idx e { e with attack := floorTime v }
  | decay : EnvChange c v i idx e { e with decay := floorTime v }
  | hold : EnvChange c v i idx e { e with hold := floorHold v }
  | sustain : EnvChange c v i idx e { e with sustain := clampSustain v }
  | release : EnvChange c v i idx e { e with release := floorTime v }
  | trigger (hi : i = .envTrig idx) : EnvChange c v i idx e e.trigger
  | releaseNow (hi : i = .envRel idx) : EnvChange c v i idx e e.releaseNow
  | step (hi : i = .envProc idx) : EnvChange c v i idx e (e.step c)

theorem onEnv_envChange {c : Cfg} {v : F32} {i : Instr} {idx j : Nat} {s t : State} {e' : Envelope}
    {f : Envelope → Envelope × Word} (h : onEnv j s f = .next t) (ht : t.envs[idx]? = some e')
    (hf : ∀ e, EnvChange c v i j e (f e).1) : ∃ e, s.envs[idx]? = some e ∧ EnvChange c v i idx e e' := by
  obtain ⟨_, rfl⟩ | ⟨e, he, rfl⟩ := onEnv_next h
  · exact ⟨e', ht, .keep⟩
  · have hj : s.envs[j]? = some e := ((s.env_some_iff j e).1 he).2
    rw [State.complete_envs, State.setEnv_envs, set_eq_modify hj fun e => (f e).1, List.getElem?_modify] at ht
    obtain ⟨e₁, he₁, rfl⟩ := Option.map_eq_some_iff.1 ht
    refine ⟨e₁, he₁, ?_⟩
    split
    · next hidx => subst hidx; exact hf e₁
    · exact .keep

/-- Every envelope after a command is what an `EnvChange` makes of the envelope that was there. -/
theorem exec_envChange {i : Instr} {s t : State} {idx : Nat} {e' : Envelope} (h : exec i s = .next t)
    (ht : t.envs[idx]? = some e') : ∃ e, s.envs[idx]? = some e ∧ EnvChange s.cfg s.data i idx e e' := by
  by_cases hu : ∃ j, unitOf i = some (.env j)
  · obtain ⟨j, hu⟩ := hu
    cases i <;> simp only [unitOf, reduceCtorEq, Option.some.injEq] at hu
    case envSeta => exact onEnv_envChange h ht fun _ => .attack
    case envSetd => exact onEnv_envChange h ht fun _ => .decay
    case envSeth => exact onEnv_envChange h ht fun _ => .hold
    case envSets => exact onEnv_envChange h ht fun _ => .sustain
    case envSetr => exact onEnv_envChange h ht fun _ => .release
    case envTrig => exact onEnv_envChange h ht fun _ => .trigger rfl
    case envRel => exact onEnv_envChange h ht fun _ => .releaseNow rfl
    case envProc => exact onEnv_envChange h ht fun _ => .step rfl
    case envActive => exact onEnv_envChange h ht fun _ => .keep
  · rw [exec_envs_of_unit_ne (not_exists.1 hu) h] at ht
    exact ⟨e', ht, .keep⟩

/-! ## The level -/

theorem Envelope.Bounded_releaseNow {e : Envelope} (hb : e.Bounded) : e.releaseNow.Bounded := by
  unfold Envelope.releaseNow
  split
  · exact hb
  · exact { hb with startLevel := hb.level }

/-- Under `EXP_UNIT` and with an operand that is no NaN, no change of an envelope leaves its bounds. -/
theorem EnvChange.bounded {c : Cfg} {v : F32} {i : Instr} {idx : Nat} {e e' : Envelope} (h : EnvChange c v i idx e e')
    (hc : c.valid = true) (hx : ExpUnit c) (hv : F32.isNaN v = false) (hi : e.Inv) (hb : e.Bounded) : e'.Bounded := by
  have hfloor : F32.isNaN (floorTime v) = false := F32.isNaN_floorAt hv (by decide)
  cases h with
  | keep => exact hb
  | attack => exact { hb with attack := hfloor }
  | decay => exact { hb with decay := hfloor }
  | hold => exact { hb with hold := F32.isNaN_floorAt hv (by decide) }
  | sustain => exact { hb with sustain := F32.isNaN_clamp hv (by decide) (by decide) }
  | release => exact { hb with release := hfloor }
  | trigger => exact { hb with startLevel := hb.level }
  | releaseNow => exact Envelope.Bounded_releaseNow hb
  | step => exact Envelope.Bounded_step hc hx hi hb

/-- Settles O53: an envelope after the command is a change of one that was there, and changes keep the bounds. -/
theorem envelopeLevelBounded : Obligations.EnvelopeLevelBounded := by
  intro i s t hx hs hv hb h e' he'
  obtain ⟨idx, ht⟩ := List.mem_iff_getElem?.1 he'
  obtain ⟨e, he, hchange⟩ := exec_envChange h ht
  have hmem : e ∈ s.envs := List.mem_of_getElem? he
  exact hchange.bounded hs.cfg hx hv (hs.envs e hmem) (hb e hmem)

/-! ## The stage graph -/

/-- An arm keeps the stage or moves to the next one (44_envelope.md R277 to R282). -/
theorem Envelope.arm_stage (c : Cfg) (e : Envelope) : (e.arm c).stage = e.stage ∨
    (e.stage = .attack ∧ (e.arm c).stage = .decay) ∨ (e.stage = .decay ∧ (e.arm c).stage = .hold) ∨
    (e.stage = .hold ∧ (e.arm c).stage = .sustain) ∨ (e.stage = .release ∧ (e.arm c).stage = .idle) := by
  unfold Envelope.arm
  cases hst : e.stage with
  | idle => exact .inl hst
  | attack => simp only [Envelope.attackArm]; split <;> simp [hst]
  | decay => simp only [Envelope.decayArm]; split <;> simp [hst]
  | hold => simp only [Envelope.holdArm]; split <;> simp [hst]
  | sustain => exact .inl hst
  | release => simp only [Envelope.releaseArm]; split <;> simp [hst]

theorem Envelope.releaseNow_of_idle {e : Envelope} (h : e.stage = .idle) : e.releaseNow = e := if_pos h

theorem Envelope.releaseNow_of_ne_idle {e : Envelope} (h : e.stage ≠ .idle) :
    e.releaseNow = { e with startLevel := e.level, stage := .release, stageTime := F32.c0 } := if_neg h

/-- Settles O51: of the changes of an envelope, only its own trigger, release and process touch the stage. -/
theorem envelopeStageGraph : Obligations.EnvelopeStageGraph := by
  intro i s t idx e e' h he he'
  obtain ⟨e₁, he₁, hchange⟩ := exec_envChange h ((t.env_some_iff idx e').1 he').2
  cases he₁.symm.trans ((s.env_some_iff idx e).1 he).2
  cases hchange with
  | trigger hi => exact .inr (.inl ⟨hi, rfl⟩)
  | releaseNow hi =>
    by_cases hidle : e.stage = .idle
    · exact .inl (congrArg Envelope.stage (Envelope.releaseNow_of_idle hidle))
    · exact .inr (.inr (.inl ⟨hi, hidle, congrArg Envelope.stage (Envelope.releaseNow_of_ne_idle hidle)⟩))
  | step hi => exact (Envelope.arm_stage s.cfg (e.tick s.cfg)).imp_right fun hnext => .inr (.inr ⟨hi, hnext⟩)
  | _ => exact .inl rfl

/-! ## The commands `ENV.*` -/

theorem State.setEnv_self {s : State} {idx : Nat} {e : Envelope} (h : s.env idx = some e) : s.setEnv idx e = s := by
  obtain ⟨hi, rfl⟩ := List.getElem?_eq_some_iff.1 ((s.env_some_iff idx e).1 h).2
  rw [State.setEnv, List.set_getElem_self hi]

/-- What was written to an envelope that is there is read back. -/
theorem State.env_setEnv {s : State} {idx : Nat} {e e' : Envelope} (h : s.env idx = some e) :
    (s.setEnv idx e').env idx = some e' := by
  obtain ⟨hlt, he⟩ := (s.env_some_iff idx e).1 h
  obtain ⟨hi, _⟩ := List.getElem?_eq_some_iff.1 he
  exact ((s.setEnv idx e').env_some_iff idx e').2 ⟨hlt, List.getElem?_set_self hi⟩

/-- A command that leaves the envelope as it is changes `RESULT` and `STATUS` alone. -/
theorem onEnv_keeps {idx : Nat} {s : State} {f : Envelope → Envelope × Word} {e : Envelope} {v : Word}
    (h : s.env idx = some e) (hf : f e = (e, v)) : onEnv idx s f = .next (s.complete v) := by
  rw [onEnv_some h, hf, State.setEnv_self h]

/-- Settles O47: each setter is a command on the envelope, which is there. -/
theorem envelopeSetters : Obligations.EnvelopeSetters := fun _ _ _ he =>
  ⟨onEnv_some he, onEnv_some he, onEnv_some he, onEnv_some he, onEnv_some he⟩

/-- Settles O48: a release is a change of the envelope in every stage but Idle. -/
theorem envelopeTriggerAndRelease : Obligations.EnvelopeTriggerAndRelease := by
  refine fun s idx e he => ⟨onEnv_some he, fun hst => ?_, fun hst => ?_⟩
  · rw [← Envelope.releaseNow_of_ne_idle hst]; exact onEnv_some he
  · exact onEnv_keeps he (congrArg (·, 0x00000000#32) (Envelope.releaseNow_of_idle hst))

/-- Settles O49: the envelope stated is that after `ENV_STEP`, stage by stage. -/
theorem envelopeProcess : Obligations.EnvelopeProcess := by
  intro s idx e he st e' hst he'
  have hstep : e' = e.step s.cfg := by
    subst hst he'
    obtain ⟨stage, level, stageTime, startLevel, attack, decay, hold, sustain, release⟩ := e
    cases stage <;> rfl
  rw [hstep]
  exact onEnv_some he

/-- Settles O50: the word is 1 exactly where the stage is not Idle, and the envelope stays as it is. -/
theorem envelopeActive : Obligations.EnvelopeActive := by
  intro s idx e he
  have hword : boolWord (decide (e.stage ≠ .idle)) = if e.stage = .idle then 0x00000000#32 else 0x00000001#32 := by
    cases e.stage <;> rfl
  rw [← hword]
  exact onEnv_keeps he rfl

/-- A command on an envelope that one before it has set: the last write to the list stays. -/
theorem onEnv_of_set {idx : Nat} {s : State} {f : Envelope → Envelope × Word} {e e' : Envelope} {v r st : Word}
    (h : s.env idx = some e) :
    onEnv idx { s with data := v, envs := s.envs.set idx e', result := r, status := st } f =
      .next { s with data := v, envs := s.envs.set idx (f e').1, result := (f e').2, status := statusOk } := by
  have henv : ({ s with data := v, envs := s.envs.set idx e', result := r, status := st } : State).env idx = some e' :=
    State.env_setEnv h
  rw [onEnv_some henv, State.setEnv, List.set_set]
  rfl

/-- Settles O52: each setter works on the envelope the setter before it left. -/
theorem envelopeSetParameters : Obligations.EnvelopeSetParameters := fun _ _ _ _ _ _ _ _ he =>
  ⟨_, _, _, _, onEnv_some he, onEnv_of_set he, onEnv_of_set he, onEnv_of_set he, onEnv_of_set he⟩

/-! ## A position without an envelope or a smoother -/

theorem State.env_eq_none_of_le {s : State} {idx : Nat} (h : s.cfg.N_ENV ≤ idx) : s.env idx = none :=
  if_neg (not_lt.2 h)

theorem State.sm_eq_none_of_le {s : State} {idx : Nat} (h : s.cfg.N_SM ≤ idx) : s.sm idx = none := if_neg (not_lt.2 h)

/-- Settles O58: every command on an envelope or a smoother is illegal where there is none. -/
theorem noSuchEnvelopeOrSmoother : Obligations.NoSuchEnvelopeOrSmoother := by
  rintro s idx i (⟨hu, hidx⟩ | ⟨hu, hidx⟩)
  · obtain ⟨f, hf⟩ := exec_env hu
    exact (hf s).trans (onEnv_none (State.env_eq_none_of_le hidx))
  · obtain ⟨f, hf⟩ := exec_sm hu
    exact (hf s).trans (onSm_none (State.sm_eq_none_of_le hidx))

end Sys2Proof.Machine
end

section
/-! PROOFS. The ParameterSmoother (45_smoother.md): the arithmetic of a smoother that has reached its target, the commands
`SM.*` one by one, and what `SM.PROC` returns after `SM.RST` (R312, R313). -/

namespace Sys2Proof.F32

/-! ## Differences, products and sums that are exact -/

theorem isZero_zero (b : Bool) : isZero (zero b) = true := isZero_iff.2 (mag_zero b)

theorem eq_zero_sign {a : F32} (h : isZero a = true) : a = zero (sign a) :=
  ext_sign_mag (sign_zero _).symm ((isZero_iff.1 h).trans (mag_zero _).symm)

/-- The difference of a finite datum and itself is `+0.0`. -/
theorem sub_self_eq_zero {a : F32} (ha : isFinite a = true) : sub a a = zero false := by
  rw [sub_finite ha ha, Bool.and_not_self, Int.sub_self]; rfl

theorem mul_zero_right {a : F32} (ha : isFinite a = true) (b : Bool) : mul a (zero b) = zero (sign a != b) := by
  rw [mul_finite ha (zero_finite (isZero_zero b)), units_of_zero (isZero_zero b), sign_zero, Nat.mul_zero, roundQ,
    roundMag_zero]
  rfl

/-- The value of a finite datum other than a zero is rounded to the datum itself. -/
theorem roundInt_val {a : F32} (zn : Bool) (ha : isFinite a = true) (h0 : isZero a = false) :
    roundInt zn (val a) = a := by
  have hpos : 0 < units a := units_pos h0
  apply ext_sign_mag
  · have hne : val a ≠ 0 := by rw [← Int.natAbs_ne_zero, natAbs_val]; omega
    rw [sign_roundInt, if_neg hne]
    cases hs : sign a <;> simp only [val, hs, cond_true, cond_false, decide_eq_true_eq, decide_eq_false_iff_not] <;> omega
  · have hexact := roundMag_exact (d := 1) one_pos ((isFinite_iff a).1 ha)
    rwa [Nat.mul_one, ← units_eq_magUnits, ← natAbs_val, ← mag_roundInt zn] at hexact

/-- A zero added to another datum leaves it; of two zeros the sum is `-0.0` exactly if both are. -/
theorem add_zero_right {a : F32} (ha : isFinite a = true) (b : Bool) :
    add a (zero b) = if isZero a = true then zero (sign a && b) else a := by
  rw [add_finite ha (zero_finite (isZero_zero b)), val_of_zero (isZero_zero b), Int.add_zero, sign_zero]
  split
  next h0 => rw [val_of_zero h0]; rfl
  next h0 => exact roundInt_val _ ha (Bool.eq_false_of_not_eq_true h0)

/-! ## A distance and a threshold -/

/-- No absolute value is less than a number of at most zero. -/
theorem lt_abs_of_le_c0 {a b : F32} (h : le b c0 = true) : lt (abs a) b = false := by
  obtain ⟨_, _, hb⟩ := le_iff.1 h
  have hkey : key b ≤ key (abs a) :=
    calc key b ≤ 0 := hb
      _ ≤ (mag a : Int) := Int.natCast_nonneg _
      _ = key (abs a) := by rw [key, sign_abs, mag_abs, cond_false]
  rw [Bool.eq_false_iff, Ne, lt_iff]
  rintro ⟨_, _, hlt⟩
  exact hkey.not_gt hlt

end Sys2Proof.F32

namespace Sys2Proof.Machine

/-! ## A command on a smoother that is there -/

theorem State.setSm_self {s : State} {idx : Nat} {x : Smoother} (h : s.sm idx = some x) : s.setSm idx x = s := by
  obtain ⟨hi, rfl⟩ := List.getElem?_eq_some_iff.1 ((s.sm_some_iff idx x).1 h).2
  rw [State.setSm, List.set_getElem_self hi]

/-- What was written to a smoother that is there is read back. -/
theorem State.sm_setSm {s : State} {idx : Nat} {x x' : Smoother} (h : s.sm idx = some x) :
    (s.setSm idx x').sm idx = some x' := by
  obtain ⟨hlt, hx⟩ := (s.sm_some_iff idx x).1 h
  obtain ⟨hi, _⟩ := List.getElem?_eq_some_iff.1 hx
  exact ((s.setSm idx x').sm_some_iff idx x').2 ⟨hlt, List.getElem?_set_self hi⟩

/-- A command that leaves the smoother as it is changes `RESULT` and `STATUS` alone. -/
theorem onSm_keeps {idx : Nat} {s : State} {f : Smoother → Smoother × Word} {x : Smoother} {v : Word}
    (h : s.sm idx = some x) (hf : f x = (x, v)) : onSm idx s f = .next (s.complete v) := by
  rw [onSm_some h, hf, State.setSm_self h]

/-! ## The commands `SM.*` -/

/-- Settles O54: each setter is a command on the smoother, which is there. -/
theorem smootherSetters : Obligations.SmootherSetters := fun _ _ _ hx => ⟨onSm_some hx, onSm_some hx, onSm_some hx⟩

/-- Settles O55: `SM.PROC` stores and returns the `current` of the step's formula. -/
theorem smootherProcess : Obligations.SmootherProcess := by
  rintro s idx x hx v rfl
  exact onSm_some hx

theorem execSmClose_some {idx : Nat} {s : State} {x : Smoother} (h : s.sm idx = some x) :
    exec (.smClose idx) s = .next (s.complete (boolWord (x.isClose s.data))) := onSm_keeps h rfl

theorem boolWord_eq_ite (b : Bool) : boolWord b = if b = true then 0x00000001#32 else 0x00000000#32 := by
  cases b <;> rfl

/-- No distance is below a NaN or a threshold of at most zero (45_smoother.md R314). -/
theorem Smoother.isClose_eq_false (x : Smoother) {v : F32} (h : F32.isNaN v = true ∨ F32.le v F32.c0 = true) :
    x.isClose v = false := by
  obtain hnan | hle := h
  · exact F32.lt_of_nan (.inr hnan)
  · exact F32.lt_abs_of_le_c0 hle

/-- Settles O56: the word is that of the comparison, and the smoother stays as it is. -/
theorem smootherIsClose : Obligations.SmootherIsClose := by
  intro s idx x hx
  rw [execSmClose_some hx]
  refine ⟨?_, fun hv => ?_⟩
  · rw [boolWord_eq_ite, Smoother.isClose, F32.abs_eq_and]; rfl
  · rw [Smoother.isClose_eq_false x hv]; rfl

/-! ## `SM.PROC` after `SM.RST` -/

/-- A step at the target adds a zero with the factor's sign: it returns the value, or of a zero value that sum of zeros. -/
theorem Smoother.step_at_target {f v : F32} (hv : F32.isFinite v = true) (hf : F32.isFinite f = true) :
    (Smoother.step ⟨v, v, f⟩).current = if F32.isZero v = true then F32.zero (F32.sign v && F32.sign f) else v := by
  rw [Smoother.step, F32.sub_self_eq_zero hv, F32.mul_zero_right hf, Bool.bne_false, F32.add_zero_right hv]

/-- The value returned at the target equals the target as IEEE compares. -/
theorem Smoother.eq_step_at_target {f v : F32} (hv : F32.isFinite v = true) (hf : F32.isFinite f = true) :
    F32.eq (Smoother.step ⟨v, v, f⟩).current v = true := by
  rw [Smoother.step_at_target hv hf]
  split
  next h0 =>
    obtain ⟨_, _, heq⟩ := F32.compare_zeros (F32.isZero_zero (F32.sign v && F32.sign f)) h0
    exact heq
  next => exact F32.eq_iff.2 ⟨F32.finite_not_nan hv, F32.finite_not_nan hv, rfl⟩

/-- The one value that does not come back bit for bit is `-0.0`, with a factor whose sign bit is clear (log 18). -/
theorem Smoother.step_at_target_bits {f v : F32} (hv : F32.isFinite v = true) (hf : F32.isFinite f = true) :
    (Smoother.step ⟨v, v, f⟩).current =
      if v = 0x80000000#32 ∧ F32.sign f = false then 0x00000000#32 else v := by
  rw [Smoother.step_at_target hv hf]
  cases h0 : F32.isZero v with
  | true =>
    rw [F32.eq_zero_sign h0, F32.sign_zero]
    cases F32.sign v <;> cases F32.sign f <;> decide
  | false =>
    have hne : v ≠ 0x80000000#32 := by rintro rfl; exact absurd h0 (by decide)
    rw [if_neg Bool.false_ne_true, if_neg fun h => hne h.1]

/-- Settles O57: `SM.RST` brings the smoother to its target, where a step returns the value up to the sign of a zero. -/
theorem smootherHoldsAfterReset : Obligations.SmootherHoldsAfterReset := by
  intro s idx x hx hv hf
  have hreset : ((s.setSm idx ⟨s.data, s.data, x.factor⟩).complete 0x00000000#32).sm idx =
    some ⟨s.data, s.data, x.factor⟩ := State.sm_setSm hx
  exact ⟨_, _, onSm_some hx, onSm_some hreset, Smoother.eq_step_at_target hv hf, Smoother.step_at_target_bits hv hf⟩

end Sys2Proof.Machine
end

section
/-! PROOFS. The outcomes of a command and of a step (60_exceptions.md): every command completes (R330), which commands are
illegal (R331, R332), which meet a capacity limit (R333), and the inputs that change nothing or are refused (R341, R350). -/

namespace Sys2Proof.Machine

/-! ## How a command ends -/

/-- The commands that their own meaning finds illegal: a bad kind code, and an index at which there is no effect, envelope or
smoother (60_exceptions.md R332). -/
def raisesIllegal (s : State) : Instr → Prop
  | .efxProc idx | .efxRst idx | .efxName idx => s.slot idx = none
  | .chAdd kind => construct s.cfg kind = none
  | .envSeta idx | .envSetd idx | .envSeth idx | .envSets idx | .envSetr idx => s.env idx = none
  | .envTrig idx | .envRel idx | .envProc idx | .envActive idx => s.env idx = none
  | .smTgt idx | .smFact idx | .smProc idx | .smRst idx | .smClose idx => s.sm idx = none
  | .nop | .efxSetp _ _ | .chRem _ | .chProc | .chRstall | .chCount => False

/-- The four ways a command can end: illegal, at the capacity of the chain, at the capacity of a Delay, or with `STATUS` 0
(60_exceptions.md R331, R333, R335). -/
inductive Ending (i : Instr) (s t : State) : Prop where
  | illegal (hi : raisesIllegal s i) (ht : t = s.raiseIllegal)
  | chainFull {kind : KindCode} {e : Effect} (hi : i = .chAdd kind) (he : construct s.cfg kind = some e)
      (hc : s.count = s.cfg.CHAIN_CAP) (ht : t = s.completeCap 0x00000000#32 true)
  | delayLimited {idx : Nat} {d : Delay} (hi : i = .efxSetp idx .time) (hs : s.slot idx = some (.delay d))
      (hd : s.cfg.DELAY_CAP - 1 < s.cfg.DSAMP s.data)
      (ht : t = (s.setSlot idx (.delay (d.setTime s.cfg s.data))).completeCap (boolWord true) true)
  | ok (hi : ¬ raisesIllegal s i) (ht : t.status = statusOk)

theorem onSlot_ending {i : Instr} {idx : Nat} {s t : State} {f : Effect → Effect × Word}
    (hi : raisesIllegal s i ↔ s.slot idx = none) (h : onSlot idx s f = .next t) : Ending i s t := by
  obtain ⟨hs, rfl⟩ | ⟨e, hs, rfl⟩ := onSlot_next h
  · exact .illegal (hi.2 hs) rfl
  · exact .ok (by simp [hi, hs]) rfl

theorem onEnv_ending {i : Instr} {idx : Nat} {s t : State} {f : Envelope → Envelope × Word}
    (hi : raisesIllegal s i ↔ s.env idx = none) (h : onEnv idx s f = .next t) : Ending i s t := by
  obtain ⟨hs, rfl⟩ | ⟨e, hs, rfl⟩ := onEnv_next h
  · exact .illegal (hi.2 hs) rfl
  · exact .ok (by simp [hi, hs]) rfl

theorem onSm_ending {i : Instr} {idx : Nat} {s t : State} {f : Smoother → Smoother × Word}
    (hi : raisesIllegal s i ↔ s.sm idx = none) (h : onSm idx s f = .next t) : Ending i s t := by
  obtain ⟨hs, rfl⟩ | ⟨x, hs, rfl⟩ := onSm_next h
  · exact .illegal (hi.2 hs) rfl
  · exact .ok (by simp [hi, hs]) rfl

/-- Only "time" on a Delay signals the capacity limit (41_delay.md R187). -/
theorem Effect.setp_signals_cap {c : Cfg} {e e' : Effect} {name : ParamName} {v : F32}
    (h : e.setp c name v = some (e', true)) :
    ∃ d, e = .delay d ∧ name = .time ∧ c.DELAY_CAP - 1 < c.DSAMP v ∧ e' = .delay (d.setTime c v) := by
  cases e with
  | filter f => simp [Effect.setp] at h
  | distortion z => simp [Effect.setp] at h
  | delay d =>
    simp only [Effect.setp, Option.map_eq_some_iff, Prod.mk.injEq] at h
    obtain ⟨⟨d', cap⟩, hd, rfl, rfl⟩ := h
    cases name <;> simp only [Delay.setp, reduceCtorEq, Option.some.injEq, Prod.mk.injEq, and_false] at hd
    case time => exact ⟨d, rfl, rfl, of_decide_eq_true hd.2, congrArg Effect.delay hd.1.symm⟩

theorem execEfxSetp_ending {idx : Nat} {name : ParamName} {s t : State} (h : execEfxSetp idx name s = .next t) :
    Ending (.efxSetp idx name) s t := by
  obtain rfl | ⟨e, e', cap, hs, hp, rfl⟩ := execEfxSetp_next h
  · exact .ok not_false rfl
  · cases cap with
    | false => exact .ok not_false rfl
    | true =>
      obtain ⟨d, rfl, rfl, hd, rfl⟩ := Effect.setp_signals_cap hp
      exact .delayLimited rfl hs hd rfl

theorem execChAdd_ending {kind : KindCode} {s t : State} (h : execChAdd kind s = .next t) : Ending (.chAdd kind) s t := by
  obtain ⟨hk, rfl⟩ | ⟨e, he, ⟨hc, rfl⟩ | ⟨_, rfl⟩⟩ := execChAdd_next h
  · exact .illegal hk rfl
  · exact .chainFull rfl he hc rfl
  · exact .ok (by simp [raisesIllegal, he]) rfl

/-- Every next state of a command is one of its four endings. -/
theorem exec_ending {i : Instr} {s t : State} (h : exec i s = .next t) : Ending i s t := by
  cases i with
  | efxProc idx | efxRst idx | efxName idx => exact onSlot_ending Iff.rfl h
  | efxSetp idx name => exact execEfxSetp_ending h
  | chAdd kind => exact execChAdd_ending h
  | chRem idx => obtain rfl | rfl := execChRem_next h <;> exact .ok not_false rfl
  | nop | chProc | chRstall | chCount => cases h; exact .ok not_false rfl
  | envSeta idx | envSetd idx | envSeth idx | envSets idx | envSetr idx => exact onEnv_ending Iff.rfl h
  | envTrig idx | envRel idx | envProc idx | envActive idx => exact onEnv_ending Iff.rfl h
  | smTgt idx | smFact idx | smProc idx | smRst idx | smClose idx => exact onSm_ending Iff.rfl h

theorem Ending.status_cases {i : Instr} {s t : State} (h : Ending i s t) :
    t.status = statusOk ∨ t.status = statusIll ∨ t.status = statusCap := by
  cases h with
  | illegal _ ht => exact .inr (.inl (congrArg State.status ht))
  | chainFull _ _ _ ht => exact .inr (.inr (congrArg State.status ht))
  | delayLimited _ _ _ ht => exact .inr (.inr (congrArg State.status ht))
  | ok _ ht => exact .inl ht

/-- Settles O14: a command reaches neither `DATA`, the configuration nor the host's side (`exec_eq_next`), and each of its
endings leaves one of the three `STATUS` words. -/
theorem everyCommandCompletes : Obligations.EveryCommandCompletes := by
  intro i s
  obtain ⟨_, _, _, _, _, h⟩ := exec_eq_next i s
  exact ⟨_, h, (exec_ending h).status_cases, rfl, rfl, rfl, rfl, rfl⟩

/-! ## The capacity limits -/

/-- An ending with `STATUS` 2 is one of the two at a capacity (60_exceptions.md R333). -/
theorem Ending.of_status_cap {i : Instr} {s t : State} (h : Ending i s t) (hcap : t.status = statusCap) :
    (∃ kind e, i = .chAdd kind ∧ construct s.cfg kind = some e ∧ s.count = s.cfg.CHAIN_CAP ∧
      t = s.completeCap 0x00000000#32 true) ∨
    ∃ idx d, i = .efxSetp idx .time ∧ s.slot idx = some (.delay d) ∧ s.cfg.DELAY_CAP - 1 < s.cfg.DSAMP s.data ∧
      t = (s.setSlot idx (.delay (d.setTime s.cfg s.data))).completeCap (boolWord true) true := by
  cases h with
  | illegal _ ht => rw [ht] at hcap; exact absurd (a := statusIll = statusCap) hcap (by decide)
  | chainFull hi he hc ht => exact .inl ⟨_, _, hi, he, hc, ht⟩
  | delayLimited hi hs hd ht => exact .inr ⟨_, _, hi, hs, hd, ht⟩
  | ok _ ht => exact absurd (a := statusOk = statusCap) (ht.symm.trans hcap) (by decide)

/-- `CONSTRUCT` gives an effect for the three kinds and for no other code (30_encoding.md R105). -/
theorem exists_construct_iff {c : Cfg} {kind : KindCode} :
    (∃ e, construct c kind = some e) ↔ kind = .filter ∨ kind = .delay ∨ kind = .distortion := by
  cases kind <;> simp [construct]

theorem Delay.setTime_d_of_lt {c : Cfg} {d : Delay} {v : F32} (h : c.DELAY_CAP - 1 < c.DSAMP v) :
    (d.setTime c v).d = c.DELAY_CAP - 1 := Nat.min_eq_right h.le

/-- Settles O15: `Ending.of_status_cap` in one direction, running the command at its limit in the other. -/
theorem capacityStatusExactlyTwoCases : Obligations.CapacityStatusExactlyTwoCases := by
  intro i s t h
  have hcases := (exec_ending h).of_status_cap
  refine ⟨⟨fun hcap => ?_, ?_⟩, ?_, ?_⟩
  · obtain ⟨kind, e, rfl, he, hc, _⟩ | ⟨idx, d, rfl, hs, hd, _⟩ := hcases hcap
    · obtain rfl | rfl | rfl := exists_construct_iff.1 ⟨e, he⟩ <;> simp [hc]
    · exact .inr ⟨idx, d, rfl, hs, hd⟩
  · rintro (⟨hkind, hc⟩ | ⟨idx, d, rfl, hs, hd⟩)
    · obtain rfl | rfl | rfl := hkind <;> (rw [exec_chAdd_full rfl hc] at h; cases h; rfl)
    · rw [exec_efxSetp_delay hs rfl, statusOf_timeExceeds] at h
      cases h
      exact if_pos hd
  · rintro kind rfl hcap
    obtain ⟨_, _, _, _, _, ht⟩ | ⟨_, _, hi, _⟩ := hcases hcap
    · exact ht
    · cases hi
  · rintro idx rfl hcap
    obtain ⟨_, _, hi, _⟩ | ⟨_, d, hi, hs, hd, rfl⟩ := hcases hcap
    · cases hi
    · cases hi
      refine ⟨rfl, d.setTime s.cfg s.data, ?_, Delay.setTime_d_of_lt hd⟩
      exact (State.slot_setSlot hs).trans (congrArg some (if_pos rfl))

/-! ## The decode procedure -/

theorem Ending.status_ill_iff {i : Instr} {s t : State} (h : Ending i s t) :
    t.status = statusIll ↔ raisesIllegal s i := by
  cases h with
  | illegal hi ht => exact iff_of_true (congrArg State.status ht) hi
  | chainFull hi he _ ht =>
    subst hi ht
    exact iff_of_false (by decide : statusCap ≠ statusIll) (by simp [raisesIllegal, he])
  | delayLimited hi _ _ ht =>
    subst hi ht
    exact iff_of_false (by decide : statusCap ≠ statusIll) not_false
  | ok hi ht => exact iff_of_false (by rw [ht]; decide) hi

theorem Ending.eq_raiseIllegal {i : Instr} {s t : State} (h : Ending i s t) (hi : raisesIllegal s i) :
    t = s.raiseIllegal := by
  cases h with
  | illegal _ ht => exact ht
  | chainFull hk he _ _ => subst hk; exact absurd (he.symm.trans hi) nofun
  | delayLimited hk _ _ _ => subst hk; exact hi.elim
  | ok hn _ => exact absurd hi hn

theorem State.env_eq_none_iff {s : State} (h : s.envs.length = s.cfg.N_ENV) (idx : Nat) :
    s.env idx = none ↔ s.cfg.N_ENV ≤ idx := by
  simp only [State.env, ite_eq_right_iff, List.getElem?_eq_none_iff]
  omega

theorem State.sm_eq_none_iff {s : State} (h : s.sms.length = s.cfg.N_SM) (idx : Nat) :
    s.sm idx = none ↔ s.cfg.N_SM ≤ idx := by
  simp only [State.sm, ite_eq_right_iff, List.getElem?_eq_none_iff]
  omega

theorem exists_decode_of_row {w : Word} {op idx sel : Nat} {r : OpRow} {i : Instr} (hrsv : byteField w 0 = 0)
    (hop : byteField w 24 = op) (hidx : byteField w 16 = idx) (hsel : byteField w 8 = sel)
    (hfind : opcodeMap.find? (fun r => r.op == op) = some r) (hread : r.shape.read idx sel = .ok i) :
    ∃ i, decode w = .ok i := by
  subst hop hidx hsel
  exact ⟨i, decode_eq_ok_iff.2 ⟨hrsv, r, hfind, hread⟩⟩

/-- A word legal by R111 is one the decoder reads: its opcode has a row, and a field the row does not use is 0. -/
theorem exists_decode_of_legalWord {w : Word} {n : Nat} {c : Cfg} (h : Claim.legalWord w n c) :
    ∃ i, decode w = .ok i := by
  obtain ⟨hrsv, h⟩ := h
  simp only [← byteField_eq_extractLsb'] at hrsv h
  obtain ⟨hop, hidx, hsel⟩ | ⟨hop, hsel, _⟩ | hop | ⟨hop, hidx, _⟩ | ⟨hop, hsel⟩ | ⟨hop, hidx, hsel⟩ |
    ⟨hlo, hhi, hsel, _⟩ | ⟨hlo, hhi, hsel, _⟩ := h
  · exact exists_decode_of_row hrsv hop hidx hsel rfl rfl
  · obtain hop | hop | hop := hop <;> exact exists_decode_of_row hrsv hop rfl hsel rfl rfl
  · exact exists_decode_of_row hrsv hop rfl rfl rfl rfl
  · exact exists_decode_of_row hrsv hop hidx rfl rfl rfl
  · exact exists_decode_of_row hrsv hop rfl hsel rfl rfl
  · obtain hop | hop | hop := hop <;> exact exists_decode_of_row hrsv hop hidx hsel rfl rfl
  · generalize hop : byteField w 24 = op at hlo hhi
    interval_cases op <;> exact exists_decode_of_row hrsv hop rfl hsel rfl rfl
  · generalize hop : byteField w 24 = op at hlo hhi
    interval_cases op <;> exact exists_decode_of_row hrsv hop rfl hsel rfl rfl

/-- The word of a command is legal by R111 exactly if the command's meaning does not find it illegal. -/
theorem legalWord_encode_iff {s : State} (henv : s.envs.length = s.cfg.N_ENV) (hsm : s.sms.length = s.cfg.N_SM)
    {i : Instr} (hi : i.wf = true) : Claim.legalWord (encode i) s.count s.cfg ↔ ¬ raisesIllegal s i := by
  obtain ⟨hidx, hsel⟩ := Instr.idx_sel_lt hi
  have h24 : byteField (encode i) 24 = i.fields.1 := opField_packFields i.opcode_lt
  have h16 : byteField (encode i) 16 = i.fields.2.1 := idxField_packFields hidx
  have h8 : byteField (encode i) 8 = i.fields.2.2 := selField_packFields hsel
  have h0 : byteField (encode i) 0 = 0 := rsvField_packFields (by decide)
  simp only [Claim.legalWord, ← byteField_eq_extractLsb', h24, h16, h8, h0]
  cases i with
  | nop | efxSetp | chRem | chProc | chRstall | chCount => simp [Instr.fields, raisesIllegal]
  | efxProc | efxRst | efxName => simp [Instr.fields, raisesIllegal, State.slot_eq_none_iff]
  | chAdd kind =>
    cases kind with
    | bad code =>
      have hcode : code ≠ 1 ∧ code ≠ 2 ∧ code ≠ 3 := by
        simp only [Instr.wf, KindCode.wf, Bool.and_eq_true, decide_eq_true_eq] at hi
        omega
      simp [Instr.fields, KindCode.code, raisesIllegal, construct, hcode]
    | filter | delay | distortion => simp [Instr.fields, KindCode.code, raisesIllegal, construct]
  | envSeta | envSetd | envSeth | envSets | envSetr | envTrig | envRel | envProc | envActive =>
    simp [Instr.fields, raisesIllegal, State.env_eq_none_iff henv]
  | smTgt | smFact | smProc | smRst | smClose => simp [Instr.fields, raisesIllegal, State.sm_eq_none_iff hsm]

/-- Settles O5: a word the decoder refuses is not legal and ends illegal; of a command's word both are decided by the
command's meaning. -/
theorem illegalExactlyByDecodeProcedure : Obligations.IllegalExactlyByDecodeProcedure := by
  intro s w henv hsm
  cases hw : decode w with
  | error e =>
    have hnot : ¬ Claim.legalWord w s.count s.cfg := fun h => by
      obtain ⟨_, hi⟩ := exists_decode_of_legalWord h
      exact absurd (hw.symm.trans hi) nofun
    exact ⟨_, command_of_decode_error hw s, iff_of_true rfl hnot, fun _ => rfl⟩
  | ok i =>
    obtain ⟨hwf, rfl⟩ := encodeOfDecode w i hw
    have hill : raisesIllegal s.advance i ↔ ¬ Claim.legalWord (encode i) s.count s.cfg :=
      iff_not_comm.1 (legalWord_encode_iff (s := s.advance) henv hsm hwf)
    obtain ⟨_, _, _, _, _, h⟩ := exec_eq_next i s.advance
    have hend := exec_ending h
    exact ⟨_, (command_of_decode_ok hw s).trans h, hend.status_ill_iff.trans hill,
      fun hnot => hend.eq_raiseIllegal (hill.2 hnot)⟩

/-! ## Inputs that change nothing or are refused -/

theorem step_idle {s : State} (hv : s.cfg.valid = true) (hp : s.pending = []) : step s = .next s := by
  simp [step, hv, hp]

theorem step_invalid {s : State} (hv : s.cfg.valid = false) : step s = .refused .invalidConfiguration := by
  simp [step, hv]

/-- Settles O12: by the branches of `step`, and of `eventStep` for the concurrent accesses. -/
theorem idleAndRefusedInputs : Obligations.IdleAndRefusedInputs :=
  ⟨fun _ => step_idle, fun _ => step_invalid, fun _ _ _ _ hv hp => step_pending hv hp⟩

end Sys2Proof.Machine
end

section
/-! PROOFS. Reset and the order of commands (70_reset_and_hazards.md): power-on reset as an event (R360), and commands on
different units in either order (R370). A command on a unit is read here as a function of that unit alone, whatever kind of
unit it is (43_chain.md R255, 44_envelope.md R288, 45_smoother.md R316). -/

namespace Sys2Proof.Machine

/-! ## Power-on reset -/

/-- Settles O13: the next state of the event is `powerCycle`, which rests on the configuration and the host's side alone. -/
theorem powerOnEventResets : Obligations.PowerOnEventResets := fun _ _ hv hp => step_pending hv hp

/-! ## Units of every kind -/

/-- The type of what the unit `u` holds. -/
def UnitRef.Content : UnitRef → Type
  | .slot _ => Effect
  | .env _ => Envelope
  | .sm _ => Smoother

/-- The unit `u` of the state, if there is one. -/
def State.unit (s : State) : (u : UnitRef) → Option u.Content
  | .slot idx => s.slot idx
  | .env idx => s.env idx
  | .sm idx => s.sm idx

/-- What a command does to the unit `u` and leaves in `RESULT` and `STATUS`. -/
structure UnitRef.Effects (u : UnitRef) where
  change : u.Content → u.Content
  result : Word
  status : Word

/-- The state after a command on the unit `u`, issued with operand `v`, that does `o`. -/
def State.afterUnit (s : State) (v : Word) : (u : UnitRef) → u.Effects → State
  | .slot idx, o =>
    { s with data := v, chain := s.chain.modify idx o.change, result := o.result, status := o.status }
  | .env idx, o =>
    { s with data := v, envs := s.envs.modify idx o.change, result := o.result, status := o.status }
  | .sm idx, o =>
    { s with data := v, sms := s.sms.modify idx o.change, result := o.result, status := o.status }

@[simp] theorem State.afterUnit_cfg (s : State) (v : Word) (u : UnitRef) (o : u.Effects) :
    (s.afterUnit v u o).cfg = s.cfg := by cases u <;> rfl
@[simp] theorem State.afterUnit_result (s : State) (v : Word) (u : UnitRef) (o : u.Effects) :
    (s.afterUnit v u o).result = o.result := by cases u <;> rfl
@[simp] theorem State.afterUnit_status (s : State) (v : Word) (u : UnitRef) (o : u.Effects) :
    (s.afterUnit v u o).status = o.status := by cases u <;> rfl

/-- A command on a unit does what that unit, the operand and the configuration decide, to that unit alone. -/
theorem exec_unit {i : Instr} {u : UnitRef} (h : unitOf i = some u) :
    ∃ f : Cfg → Word → Option u.Content → u.Effects, ∀ (s : State) (v : Word),
      exec i { s with data := v } = .next (s.afterUnit v u (f s.cfg v (s.unit u))) := by
  cases u with
  | slot idx =>
    obtain ⟨g, hg⟩ := exec_slot h
    exact ⟨fun c v o => ⟨(g c v o).1, (g c v o).2.1, (g c v o).2.2⟩, fun s v => hg { s with data := v }⟩
  | env idx =>
    obtain ⟨g, hg⟩ := exec_env_modify h
    exact ⟨fun c v o => ⟨(g c v o).1, (g c v o).2.1, (g c v o).2.2⟩, fun s v => hg { s with data := v }⟩
  | sm idx =>
    obtain ⟨g, hg⟩ := exec_sm_modify h
    exact ⟨fun c v o => ⟨(g c v o).1, (g c v o).2.1, (g c v o).2.2⟩, fun s v => hg { s with data := v }⟩

/-! ## Different units -/

/-- A command on `u` leaves every other unit as it is. -/
theorem State.unit_afterUnit {u w : UnitRef} (hne : u ≠ w) (s : State) (v : Word) (o : u.Effects) :
    (s.afterUnit v u o).unit w = s.unit w := by
  cases u with
  | slot i =>
    cases w with
    | slot j => exact List.getElem?_modify_ne _ s.chain fun h => hne (congrArg UnitRef.slot h)
    | env | sm => rfl
  | env i =>
    cases w with
    | env j =>
      have henvs : (s.envs.modify i o.change)[j]? = s.envs[j]? :=
        List.getElem?_modify_ne _ s.envs fun h => hne (congrArg UnitRef.env h)
      exact congrArg (fun e => if j < s.cfg.N_ENV then e else none) henvs
    | slot | sm => rfl
  | sm i =>
    cases w with
    | sm j =>
      have hsms : (s.sms.modify i o.change)[j]? = s.sms[j]? :=
        List.getElem?_modify_ne _ s.sms fun h => hne (congrArg UnitRef.sm h)
      exact congrArg (fun x => if j < s.cfg.N_SM then x else none) hsms
    | slot | env => rfl

/-- The changes of two different units commute. -/
theorem State.afterUnit_comm {u w : UnitRef} (hne : u ≠ w) (s : State) (vu vw : Word) (o : u.Effects) (p : w.Effects) :
    ((s.afterUnit vu u o).afterUnit vw w p).chain = ((s.afterUnit vw w p).afterUnit vu u o).chain ∧
    ((s.afterUnit vu u o).afterUnit vw w p).envs = ((s.afterUnit vw w p).afterUnit vu u o).envs ∧
    ((s.afterUnit vu u o).afterUnit vw w p).sms = ((s.afterUnit vw w p).afterUnit vu u o).sms := by
  cases u with
  | slot i =>
    cases w with
    | slot j => exact ⟨List.modify_modify_ne _ _ _ fun h => hne (congrArg UnitRef.slot h), rfl, rfl⟩
    | env | sm => exact ⟨rfl, rfl, rfl⟩
  | env i =>
    cases w with
    | env j => exact ⟨rfl, List.modify_modify_ne _ _ _ fun h => hne (congrArg UnitRef.env h), rfl⟩
    | slot | sm => exact ⟨rfl, rfl, rfl⟩
  | sm i =>
    cases w with
    | sm j => exact ⟨rfl, rfl, List.modify_modify_ne _ _ _ fun h => hne (congrArg UnitRef.sm h)⟩
    | slot | env => exact ⟨rfl, rfl, rfl⟩

/-- Settles O17: each command finds its unit as it was, so it does the same in both orders, and the two changes commute. -/
theorem commandsOnDifferentUnitsCommute : Obligations.CommandsOnDifferentUnitsCommute := by
  intro a b u w va vb s sa sab sb sba hu hw hne ha hab hb hba
  obtain ⟨f, hf⟩ := exec_unit hu
  obtain ⟨g, hg⟩ := exec_unit hw
  rw [hf] at ha hba
  rw [hg] at hab hb
  cases ha
  cases hb
  rw [State.afterUnit_cfg, State.unit_afterUnit hne] at hab
  rw [State.afterUnit_cfg, State.unit_afterUnit hne.symm] at hba
  cases hab
  cases hba
  obtain ⟨hchain, henvs, hsms⟩ := State.afterUnit_comm hne s va vb (f s.cfg va (s.unit u)) (g s.cfg vb (s.unit w))
  exact ⟨hchain, henvs, hsms, by simp⟩

end Sys2Proof.Machine
end
